-- ==== Sys2Proof/Word.lean ====
section
/-! DEFINITION. Word: the bit-level types of the block (R12, R21): bytes, device ids, sequence numbers. -/

namespace Sys2Proof

/-- A byte: 8 bits, bit 0 the least significant (R12). -/
abbrev Byte := BitVec 8

/-- A byte sequence; its head is first on the wire (R12). -/
abbrev Bytes := List Byte

/-- A device id, 0 to 127: the address byte less its top bit (R64). -/
abbrev DevId := BitVec 7

/-- A sequence number, 0 to 3 (R25). -/
abbrev Seq := BitVec 2

/-- Time in the host's units: an unbounded natural that never wraps (R265). -/
abbrev Time := Nat

end Sys2Proof
end

