-- ==== Sys2Proof/Config.lean ====
section
/-! DEFINITION. Config: the parameters of R9 and R10 as data, and what no source fixes as opaque constants: the
cryptographic primitives of R11, registry predicates (R170) and the random draws (R13). -/

namespace Sys2Proof

/-- `ROLE`: which of the two roles this block plays (R1, R263). -/
inductive Role where
  | cp
  | pd
deriving DecidableEq, Repr

/-- `CKSUM_MODE`: the plain 8-bit sum, or its two's complement (R87, C4). -/
inductive CksumMode where
  | sum
  | negsum
deriving DecidableEq, Repr

/-- Which set of functions serves the seven primitives of R11. DESIGN CHOICE (log entry 5). -/
inductive Suite where
  /-- The functions no source gives: opaque constants, about which nothing is known. -/
  | vendor
  /-- The toy functions of fixture T0 (95_test_vectors.md), the only set the spec writes out. -/
  | toyT0
deriving DecidableEq, Repr

/-- A payload schema (R170): a total predicate on byte sequences, as data. DESIGN CHOICE (log entry 16). -/
inductive Schema where
  /-- Always true. -/
  | any
  /-- A length test. -/
  | len (n : Nat)
  /-- A predicate no source gives, number `k` of the opaque `Config.schema`. -/
  | external (k : Nat)
deriving DecidableEq, Repr

/-- An entry of `REG_CMD` (R170). -/
structure CmdEntry where
  replies : List Byte
  schema  : Schema
deriving DecidableEq, Repr

/-- An entry of `REG_RPL` (R170). -/
structure RplEntry where
  schema : Schema
deriving DecidableEq, Repr

/-- The parameters of R9, `KEYSTORE` apart (log entry 3), and a PD's `USE_CRC` of R10. -/
structure Params where
  role          : Role
  myAddr        : DevId
  maxPayload    : Nat
  cksumMode     : CksumMode
  crcPoly       : BitVec 16
  crcInit       : BitVec 16
  macLen        : Nat
  chalLen       : Nat
  capsLen       : Nat
  cpCaps        : Bytes
  cryptoLen     : Nat
  keyLen        : Nat
  skeyLen       : Nat
  timeout       : Time
  retryMax      : Nat
  pollInterval  : Time
  turnaroundGap : Time
  qdepth        : Nat
  tPoll         : Byte
  tChlng        : Byte
  tScrypt       : Byte
  tCcrypt       : Byte
  tScdone       : Byte
  regCmd        : List (Byte × CmdEntry)
  regRpl        : List (Byte × RplEntry)
  suite         : Suite
  /-- A PD's `USE_CRC`, given at reset (R10); no rule reads it, since a PD answers with the check kind of the
  command it answers (R226) (log entry 18). -/
  pdUseCrc      : Bool
deriving DecidableEq, Repr

/-- Byte `i` of the vendor's `KDF_ENC(K, rnd_cp, rnd_pd)` (R11). A free value: log entry 5. -/
opaque Config.kdfEnc : Bytes → Bytes → Bytes → Nat → Byte
/-- Byte `i` of the vendor's `KDF_MAC(K, rnd_cp, rnd_pd)` (R11). A free value: log entry 5. -/
opaque Config.kdfMac : Bytes → Bytes → Bytes → Nat → Byte
/-- Byte `i` of the vendor's `CGRAM_PD(K, rnd_cp, rnd_pd)` (R11). A free value: log entry 5. -/
opaque Config.cgramPd : Bytes → Bytes → Bytes → Nat → Byte
/-- Byte `i` of the vendor's `CGRAM_CP(K, rnd_cp, rnd_pd)` (R11). A free value: log entry 5. -/
opaque Config.cgramCp : Bytes → Bytes → Bytes → Nat → Byte
/-- The vendor's `ENC(s_enc, plaintext)`, padding included (R11). A free value: log entry 5. -/
opaque Config.enc : Bytes → Bytes → Bytes
/-- The vendor's `DEC(s_enc, ciphertext)` (R11). A free value: log entry 5. -/
opaque Config.dec : Bytes → Bytes → Bytes
/-- Byte `i` of the vendor's `MAC(s_mac, ciphertext)` (R11). A free value: log entry 5. -/
opaque Config.mac : Bytes → Bytes → Nat → Byte
/-- Registry predicate number `k` (R170). A free value: log entry 16. -/
opaque Config.schema : Nat → Bytes → Bool
/-- Byte `i` of the `k`-th random draw for device `a` (R13, R143, R147, U10). A free value: log entry 4. -/
opaque Config.draw : DevId → Nat → Nat → Byte

/-- The straps in force at `State.reset`: R9's suggested values; where R9 suggests none, fixture F-PAR's and
F-REG's (95_test_vectors.md). DESIGN CHOICE (log entry 2). -/
def Config.straps : Params where
  role          := .cp
  myAddr        := 1
  maxPayload    := 1024
  cksumMode     := .sum
  crcPoly       := 0x1021
  crcInit       := 0x1D0F
  macLen        := 4
  chalLen       := 8
  capsLen       := 1
  cpCaps        := [0x01]
  cryptoLen     := 16
  keyLen        := 16
  skeyLen       := 16
  timeout       := 200
  retryMax      := 3
  pollInterval  := 50
  turnaroundGap := 2
  qdepth        := 4
  tPoll         := 0x60
  tChlng        := 0x76
  tScrypt       := 0x77
  tCcrypt       := 0x76
  tScdone       := 0x78
  regCmd        := [(0x60, { replies := [0x40, 0x41], schema := .len 0 }),
                    (0x76, { replies := [0x76], schema := .len 9 }),
                    (0x77, { replies := [0x78], schema := .len 16 }),
                    (0x6A, { replies := [0x40], schema := .any })]
  regRpl        := [(0x40, { schema := .any }), (0x41, { schema := .len 1 }),
                    (0x76, { schema := .len 24 }), (0x78, { schema := .len 0 })]
  suite         := .vendor
  pdUseCrc      := true

end Sys2Proof
end

