-- ==== Sys2Proof/Syntax.lean ====
section
/-! DEFINITION. Syntax: packets (R14), frames as the wire carries them (R80, R90), and the one type of instructions,
one constructor for each of the 37 rows of spec/opcode_table.json. -/

namespace Sys2Proof

/-- A `Packet` (R14): the address and control bytes split into their fields, the check left out. -/
structure Packet where
  devid   : DevId
  mbl     : Bool
  sqn     : Seq
  crc     : Bool
  sec     : Bool
  type    : Byte
  payload : Bytes
deriving DecidableEq, Repr

/-- The packet operand of `WF_ENCODE` as the host presents it: fields are naturals, and R110 checks their ranges. -/
structure RawPacket where
  devid   : Nat
  mbl     : Nat
  sqn     : Nat
  crc     : Nat
  sec     : Nat
  type    : Nat
  payload : Bytes
deriving DecidableEq, Repr

/-- What a wire frame carries beside its two format bits and its check (R80 to R85); `rsv` is CTRL bits 7:4. -/
structure FrameBody where
  devid   : DevId
  rsv     : BitVec 4
  sec     : Bool
  sqn     : Seq
  type    : Byte
  payload : Bytes
deriving DecidableEq, Repr

/-- A packet of an engine-known type with its framing taken off; the type code is the parameter its row names (R100). -/
structure Message where
  devid   : DevId
  sqn     : Seq
  crc     : Bool
  sec     : Bool
  payload : Bytes
deriving DecidableEq, Repr

/-- The five engine-known message types (R100). -/
inductive MsgKind where
  | poll
  | chlng
  | ccrypt
  | scrypt
  | scdone
deriving DecidableEq, Repr

/-- The instructions: the 27 operations of R96, the rule for every other op-select code, a delivered frame of each
of the four formats of R90 (log entry 8), a delivered packet of each of the five types of R100 (log entry 9).
Device ids, codes and flags are naturals because R252 gives out-of-range operands a result. -/
inductive Instr where
  | wfEncode (p : RawPacket)
  | wfDecode (b : Bytes)
  | wfFeed (a : Nat) (chunk : Bytes)
  | wfFlush (a : Nat)
  | scReset (a : Nat)
  | scCpBegin (a : Nat)
  | scCpVerify (a : Nat) (payload : Bytes)
  | scCpConfirm (a : Nat)
  | scCpFinish (a : Nat)
  | scPdChallenge (payload : Bytes)
  | scPdVerify (payload : Bytes)
  | scWrap (a : Nat) (p : Bytes)
  | scUnwrap (a : Nat) (w : Bytes)
  | regLookupCmd (t : Nat)
  | regLookupRpl (t : Nat)
  | devRegister (a : Nat) (useCrc : Nat)
  | devDeregister (a : Nat)
  | devStart (a : Nat)
  | devSubmit (a : Nat) (t : Nat) (p : Bytes)
  | devScStart (a : Nat)
  | devTick (a : Nat) (now : Time)
  | devRx (a : Nat) (chunk : Bytes)
  | pdRx (chunk : Bytes)
  | pdReply (t : Nat) (p : Bytes)
  | muxTick (now : Time)
  | muxRx (a : Nat) (chunk : Bytes)
  | reset
  | frameSk (a : Nat) (f : FrameBody) (check : Byte)
  | frameSc (a : Nat) (f : FrameBody) (check : BitVec 16)
  | frameLk (a : Nat) (f : FrameBody) (check : Byte)
  | frameLc (a : Nat) (f : FrameBody) (check : BitVec 16)
  | tPoll (a : Nat) (m : Message)
  | tChlng (a : Nat) (m : Message)
  | tCcrypt (a : Nat) (m : Message)
  | tScrypt (a : Nat) (m : Message)
  | tScdone (a : Nat) (m : Message)
  | otherOp (code : Byte)
deriving DecidableEq, Repr

/-- The operation port: the 8-bit op-select code and, beside it, the operands (R7, R96). The spec encodes only the
code, so the operands stand in ports of their own; an operation reads the ports it names (log entry 6). -/
structure OpRequest where
  code : Byte
  dev  : Nat
  flag : Nat
  typ  : Nat
  now  : Time
  data : Bytes
  pkt  : RawPacket
deriving DecidableEq, Repr

/-- What the host can present to the block, one at a time. -/
inductive Request where
  /-- An operation of R96. -/
  | op (r : OpRequest)
  /-- One frame off the wire, with the device id the host names for it (R243); a PD ignores the id. -/
  | frame (a : Nat) (bytes : Bytes)
  /-- One packet of an engine-known type, its framing taken off. -/
  | message (kind : MsgKind) (a : Nat) (m : Message)
deriving DecidableEq, Repr

/-- Why a request is no instruction. -/
inductive DecodeError where
  /-- Fewer bytes than the frame they begin. -/
  | frameTooShort
  /-- More bytes than the frame they begin. -/
  | frameTooLong
deriving DecidableEq, Repr

end Sys2Proof
end

