-- ==== Sys2Proof/WellFormed.lean ====
section
/-! DEFINITION. WellFormed: which terms of `Instr` stand for something the host can present (R82, R90, R96). -/

namespace Sys2Proof

/-- The 27 op-select codes of R96. -/
def opSelectCodes : List Byte :=
  [0x01, 0x02, 0x03, 0x04, 0x10, 0x11, 0x12, 0x13, 0x14, 0x15, 0x16, 0x17, 0x18, 0x20, 0x21,
   0x30, 0x31, 0x32, 0x33, 0x34, 0x35, 0x36, 0x40, 0x41, 0x50, 0x51, 0x7F]

/-- An instruction is well formed when its payload fits the length field of its frame format (R82) and, for the row
of all other codes, its code is none of R96. Operations have no ill-formed operands: R252 and R110 give every operand
value a result. Nor have messages, whatever their payload's length: DESIGN CHOICE (log entry 9). -/
def Instr.wf : Instr → Bool
  | .frameSk _ f _ => decide (f.payload.length ≤ 255)
  | .frameSc _ f _ => decide (f.payload.length ≤ 255)
  | .frameLk _ f _ => decide (f.payload.length ≤ 65535)
  | .frameLc _ f _ => decide (f.payload.length ≤ 65535)
  | .otherOp code  => !opSelectCodes.contains code
  | .wfEncode _ | .wfDecode _ | .wfFeed _ _ | .wfFlush _ | .scReset _ | .scCpBegin _ | .scCpVerify _ _
  | .scCpConfirm _ | .scCpFinish _ | .scPdChallenge _ | .scPdVerify _ | .scWrap _ _ | .scUnwrap _ _
  | .regLookupCmd _ | .regLookupRpl _ | .devRegister _ _ | .devDeregister _ | .devStart _ | .devSubmit _ _ _
  | .devScStart _ | .devTick _ _ | .devRx _ _ | .pdRx _ | .pdReply _ _ | .muxTick _ | .muxRx _ _ | .reset
  | .tPoll _ _ | .tChlng _ _ | .tCcrypt _ _ | .tScrypt _ _ | .tScdone _ _ => true

end Sys2Proof
end

