-- ==== Sys2Proof/Decode.lean ====
section
/-! DEFINITION. Decode: byte order and bit-field helpers, the byte layout of a frame (R80 to R90), the decoder from
what the host presents to `Instr`, and the encoder back. -/

namespace Sys2Proof

/-- The bytes `b[i..j)` (R12). -/
def slice (b : Bytes) (i j : Nat) : Bytes := (b.drop i).take (j - i)

/-- `le16(v)`: low byte first (R12, R61). -/
def le16 (v : BitVec 16) : Bytes := [v.extractLsb' 0 8, v.extractLsb' 8 8]

/-- The 16-bit number with these two bytes, low byte first: the inverse of `le16`. -/
def word16 (lo hi : Byte) : BitVec 16 := hi ++ lo

/-- `le(b)`: the number a byte sequence stands for, low byte first (R12). -/
def leNat : Bytes → Nat
  | [] => 0
  | b :: bs => b.toNat + 256 * leNat bs

/-- The `ADDR` byte: bit 7 `MBL`, bits 6:0 `DEVID` (R81). -/
def addrByte (mbl : Bool) (devid : DevId) : Byte := BitVec.ofBool mbl ++ devid

/-- The `LEN` field: one byte, or two low byte first when `MBL = 1` (R82). -/
def lenField (mbl : Bool) (n : Nat) : Bytes :=
  if mbl then le16 (BitVec.ofNat 16 n) else [BitVec.ofNat 8 n]

/-- The `CTRL` byte: bits 7:4 reserved, bit 3 `SEC`, bit 2 `CRC`, bits 1:0 `SQN` (R83). -/
def ctrlByte (rsv : BitVec 4) (sec crc : Bool) (sqn : Seq) : Byte :=
  rsv ++ BitVec.ofBool sec ++ BitVec.ofBool crc ++ sqn

/-- The bytes of a frame before its check (R80, R86). -/
def frameBytes (mbl crc : Bool) (f : FrameBody) : Bytes :=
  [addrByte mbl f.devid] ++ lenField mbl f.payload.length ++ [ctrlByte f.rsv f.sec crc f.sqn, f.type] ++ f.payload

/-- `MBL` of the frame that begins with these bytes (R81). -/
def mblOf (b : Bytes) : Bool := (b.getD 0 0).getLsbD 7

/-- `DEVID` of the frame that begins with these bytes (R81). -/
def devidOf (b : Bytes) : DevId := (b.getD 0 0).extractLsb' 0 7

/-- `LEN` of the frame that begins with these bytes (R82). -/
def lenOf (b : Bytes) : Nat := leNat (slice b 1 (2 + (mblOf b).toNat))

/-- The `CTRL` byte of the frame that begins with these bytes (R80). -/
def ctrlOf (b : Bytes) : Byte := b.getD (2 + (mblOf b).toNat) 0

/-- `CTRL.CRC` of the frame that begins with these bytes (R83). -/
def crcOf (b : Bytes) : Bool := (ctrlOf b).getLsbD 2

/-- The `TYPE` byte of the frame that begins with these bytes (R84). -/
def typeOf (b : Bytes) : Byte := b.getD (3 + (mblOf b).toNat) 0

/-- The payload of the frame that begins with these bytes (R85). -/
def payloadOf (b : Bytes) : Bytes := slice b (4 + (mblOf b).toNat) (4 + (mblOf b).toNat + lenOf b)

/-- `total`: the length of the frame that begins with these bytes (R89, R94). -/
def totalOf (b : Bytes) : Nat := 4 + (mblOf b).toNat + lenOf b + 1 + (crcOf b).toNat

/-- The fields of a whole frame, reserved bits included (R80). -/
def frameBodyOf (b : Bytes) : FrameBody where
  devid   := devidOf b
  rsv     := (ctrlOf b).extractLsb' 4 4
  sec     := (ctrlOf b).getLsbD 3
  sqn     := (ctrlOf b).extractLsb' 0 2
  type    := typeOf b
  payload := payloadOf b

/-- The instruction one wire frame stands for: its format by `ADDR[7]` and `CTRL[2]` (R90, R94). The check is carried,
not verified: the framer verifies it when the frame is delivered (R111). -/
def decodeFrame (a : Nat) (b : Bytes) : Except DecodeError Instr :=
  if b.length < 4 + (mblOf b).toNat then .error .frameTooShort
  else if b.length < totalOf b then .error .frameTooShort
  else if totalOf b < b.length then .error .frameTooLong
  else
    let lo := b.getD (totalOf b - 1 - (crcOf b).toNat) 0
    let hi := b.getD (totalOf b - 1) 0
    match mblOf b, crcOf b with
    | false, false => .ok (.frameSk a (frameBodyOf b) lo)
    | false, true  => .ok (.frameSc a (frameBodyOf b) (word16 lo hi))
    | true,  false => .ok (.frameLk a (frameBodyOf b) lo)
    | true,  true  => .ok (.frameLc a (frameBodyOf b) (word16 lo hi))

/-- The operation an op-select code selects, its operands taken from the ports it names (R96). -/
def decodeOp (r : OpRequest) : Instr :=
  match r.code with
  | 0x01#8 => .wfEncode r.pkt
  | 0x02#8 => .wfDecode r.data
  | 0x03#8 => .wfFeed r.dev r.data
  | 0x04#8 => .wfFlush r.dev
  | 0x10#8 => .scReset r.dev
  | 0x11#8 => .scCpBegin r.dev
  | 0x12#8 => .scCpVerify r.dev r.data
  | 0x13#8 => .scCpConfirm r.dev
  | 0x14#8 => .scCpFinish r.dev
  | 0x15#8 => .scPdChallenge r.data
  | 0x16#8 => .scPdVerify r.data
  | 0x17#8 => .scWrap r.dev r.data
  | 0x18#8 => .scUnwrap r.dev r.data
  | 0x20#8 => .regLookupCmd r.typ
  | 0x21#8 => .regLookupRpl r.typ
  | 0x30#8 => .devRegister r.dev r.flag
  | 0x31#8 => .devDeregister r.dev
  | 0x32#8 => .devStart r.dev
  | 0x33#8 => .devSubmit r.dev r.typ r.data
  | 0x34#8 => .devScStart r.dev
  | 0x35#8 => .devTick r.dev r.now
  | 0x36#8 => .devRx r.dev r.data
  | 0x40#8 => .pdRx r.data
  | 0x41#8 => .pdReply r.typ r.data
  | 0x50#8 => .muxTick r.now
  | 0x51#8 => .muxRx r.dev r.data
  | 0x7F#8 => .reset
  | code   => .otherOp code

/-- The instruction a delivered packet of an engine-known type stands for (R100). -/
def decodeMessage (kind : MsgKind) (a : Nat) (m : Message) : Instr :=
  match kind with
  | .poll   => .tPoll a m
  | .chlng  => .tChlng a m
  | .ccrypt => .tCcrypt a m
  | .scrypt => .tScrypt a m
  | .scdone => .tScdone a m

/-- The decoder: total; only bytes that are not one frame are rejected, by name. -/
def decode : Request → Except DecodeError Instr
  | .op r             => .ok (decodeOp r)
  | .frame a b        => decodeFrame a b
  | .message kind a m => .ok (decodeMessage kind a m)

/-- A packet operand with every field 0. -/
def RawPacket.zero : RawPacket :=
  { devid := 0, mbl := 0, sqn := 0, crc := 0, sec := 0, type := 0, payload := [] }

/-- An operation request with this op-select code and every operand port 0 or empty. -/
def OpRequest.ofCode (code : Byte) : OpRequest :=
  { code := code, dev := 0, flag := 0, typ := 0, now := 0, data := [], pkt := RawPacket.zero }

/-- The request that presents an instruction: the op-select code of R96 with its operands, the bytes of R90, or a
message. -/
def encode : Instr → Request
  | .wfEncode p         => .op { OpRequest.ofCode 0x01 with pkt := p }
  | .wfDecode b         => .op { OpRequest.ofCode 0x02 with data := b }
  | .wfFeed a b         => .op { OpRequest.ofCode 0x03 with dev := a, data := b }
  | .wfFlush a          => .op { OpRequest.ofCode 0x04 with dev := a }
  | .scReset a          => .op { OpRequest.ofCode 0x10 with dev := a }
  | .scCpBegin a        => .op { OpRequest.ofCode 0x11 with dev := a }
  | .scCpVerify a b     => .op { OpRequest.ofCode 0x12 with dev := a, data := b }
  | .scCpConfirm a      => .op { OpRequest.ofCode 0x13 with dev := a }
  | .scCpFinish a       => .op { OpRequest.ofCode 0x14 with dev := a }
  | .scPdChallenge b    => .op { OpRequest.ofCode 0x15 with data := b }
  | .scPdVerify b       => .op { OpRequest.ofCode 0x16 with data := b }
  | .scWrap a b         => .op { OpRequest.ofCode 0x17 with dev := a, data := b }
  | .scUnwrap a b       => .op { OpRequest.ofCode 0x18 with dev := a, data := b }
  | .regLookupCmd t     => .op { OpRequest.ofCode 0x20 with typ := t }
  | .regLookupRpl t     => .op { OpRequest.ofCode 0x21 with typ := t }
  | .devRegister a u    => .op { OpRequest.ofCode 0x30 with dev := a, flag := u }
  | .devDeregister a    => .op { OpRequest.ofCode 0x31 with dev := a }
  | .devStart a         => .op { OpRequest.ofCode 0x32 with dev := a }
  | .devSubmit a t b    => .op { OpRequest.ofCode 0x33 with dev := a, typ := t, data := b }
  | .devScStart a       => .op { OpRequest.ofCode 0x34 with dev := a }
  | .devTick a now      => .op { OpRequest.ofCode 0x35 with dev := a, now := now }
  | .devRx a b          => .op { OpRequest.ofCode 0x36 with dev := a, data := b }
  | .pdRx b             => .op { OpRequest.ofCode 0x40 with data := b }
  | .pdReply t b        => .op { OpRequest.ofCode 0x41 with typ := t, data := b }
  | .muxTick now        => .op { OpRequest.ofCode 0x50 with now := now }
  | .muxRx a b          => .op { OpRequest.ofCode 0x51 with dev := a, data := b }
  | .reset              => .op (OpRequest.ofCode 0x7F)
  | .frameSk a f k      => .frame a (frameBytes false false f ++ [k])
  | .frameSc a f c      => .frame a (frameBytes false true f ++ le16 c)
  | .frameLk a f k      => .frame a (frameBytes true false f ++ [k])
  | .frameLc a f c      => .frame a (frameBytes true true f ++ le16 c)
  | .tPoll a m          => .message .poll a m
  | .tChlng a m         => .message .chlng a m
  | .tCcrypt a m        => .message .ccrypt a m
  | .tScrypt a m        => .message .scrypt a m
  | .tScdone a m        => .message .scdone a m
  | .otherOp code       => .op (OpRequest.ofCode code)

/-- The `k` bytes of a number, the byte of bits 7:0 first. -/
def bytesOfNat (k w : Nat) : Bytes := (List.range k).map fun i => BitVec.ofNat 8 (w / 256 ^ i)

/-- Bytes completed with zero bytes to the length of the frame they begin. -/
def padFrame (b : Bytes) : Bytes :=
  b ++ List.replicate (totalOf (b ++ List.replicate 5 0) - b.length) 0

/-- The request a table row's word stands for, operands 0: a word of one byte is an op-select code (R96), a longer one
the leading bytes of a frame (R90), the lowest byte first on the wire. -/
def tableRequest (nbits w : Nat) : Request :=
  if nbits ≤ 8 then .op (OpRequest.ofCode (BitVec.ofNat 8 w))
  else .frame 0 (padFrame (bytesOfNat (nbits / 8) w))

/-- The instruction the decoder reads from a word of spec/opcode_table.json. -/
def decodeTableWord (nbits w : Nat) : Option Instr := (decode (tableRequest nbits w)).toOption

end Sys2Proof
end

