-- ==== Sys2Proof/Machine/State.lean ====
section
/-! DEFINITION. State: every register of 10_state.md as plain data, the host interface's fields, the result record of
R7, the error and refusal codes of R250 and R252, the notifications of R262, the stop reasons, and the reset state. -/

namespace Sys2Proof.Machine

/-- The error taxonomy (R250). -/
inductive ErrorCode where
  | truncated
  | lengthMismatch
  | checksumInvalid
  | desync
  | unexpectedReply
  | malformedPayload
  | macInvalid
  | cryptogramInvalid
  | notEstablished
  | noKey
  | deviceUnreachable
deriving DecidableEq, Repr

/-- The refusals (R252): results of an operation, next states of the model. -/
inductive RefusalCode where
  | invalidPacket
  | noSuchDevice
  | alreadyRegistered
  | wrongState
  | queueFull
  | wrongRole
  | badOperand
  | replyNotAllowed
deriving DecidableEq, Repr

/-- What a `CommandFailed` note carries: an error (R197) or the refusal `InvalidPacket` (R187). -/
inductive FailCode where
  | error (e : ErrorCode)
  | refusal (r : RefusalCode)
deriving DecidableEq, Repr

/-- Why a device went offline (R189). -/
inductive OfflineReason where
  | unreachable
  | desync
deriving DecidableEq, Repr

/-- `DSTATE` (R180). -/
inductive DState where
  | offline
  | polling
  | awaitingReply
  | secureHandshake
deriving DecidableEq, Repr

/-- `SCSTATE` (R21, R140). -/
inductive ScState where
  | idle
  | challengeSent
  | challengeReceived
  | established
  | broken
deriving DecidableEq, Repr

/-- What the application sees of `SCSTATE` (R32). -/
inductive ScStatus where
  | none
  | pending
  | established
  | broken
deriving DecidableEq, Repr

/-- `PDSTATE` (R220). -/
inductive PdState where
  | idle
  | processingCommand
  | repliedWaiting
deriving DecidableEq, Repr

/-- The registers of one Secure Channel instance (R140, R28). -/
structure Sc where
  state : ScState
  rndCp : Option Bytes
  rndPd : Option Bytes
  sEnc  : Option Bytes
  sMac  : Option Bytes
deriving DecidableEq, Repr

/-- The outstanding-command slot while `SLOT.VALID = 1` (R21). -/
structure Slot where
  type    : Byte
  payload : Bytes
  seq     : Seq
  sec     : Bool
deriving DecidableEq, Repr

/-- An entry of `CMDQ` (R29). -/
structure Cmd where
  type    : Byte
  payload : Bytes
deriving DecidableEq, Repr

/-- A CP device context `DC[a]` with `VALID = 1` (R21). -/
structure Device where
  useCrc   : Bool
  dstate   : DState
  seq      : Seq
  sc       : Sc
  slot     : Option Slot
  retxp    : Bool
  retry    : Nat
  resync   : Bool
  online   : Bool
  deadline : Option Time
  lastpoll : Option Time
  cmdq     : List Cmd
  rxbuf    : Bytes
deriving DecidableEq, Repr

/-- The command being processed while `CUR.VALID = 1` (R22). -/
structure Cur where
  type : Byte
  seq  : Seq
  sec  : Bool
  crc  : Bool
deriving DecidableEq, Repr

/-- The PD context `PDC` (R22). -/
structure Pdc where
  pdstate : PdState
  pseq    : Seq
  sc      : Sc
  cur     : Option Cur
  rxbuf   : Bytes
deriving DecidableEq, Repr

/-- The multiplexer registers (R23). -/
structure Mux where
  rrptr  : DevId
  lasttx : Option Time
deriving DecidableEq, Repr

/-- Notifications (R262). `pdError` is the PD's `Error(code)`; a PD's `SCStatus` carries `MYADDR`. -/
inductive Note where
  | online (a : DevId)
  | offline (a : DevId) (reason : OfflineReason)
  | reply (a : DevId) (type : Byte) (payload : Bytes)
  | commandFailed (a : DevId) (type : Byte) (code : FailCode)
  | error (a : DevId) (code : ErrorCode)
  | scStatus (id : DevId) (s : ScStatus)
  | command (type : Byte) (payload : Bytes)
  | pdError (code : ErrorCode)
deriving DecidableEq, Repr

/-- A verdict of the framer (R111): a packet or one of the three `FrameError`s. -/
inductive Verdict where
  | packet (p : Packet)
  | error (e : ErrorCode)
deriving DecidableEq, Repr

/-- How an operation ended (R7): `OK`, an error, or a refusal. -/
inductive Status where
  | ok
  | error (e : ErrorCode)
  | refused (r : RefusalCode)
deriving DecidableEq, Repr

/-- The operation-specific return value (R7). -/
inductive Value where
  | none
  | bytes (b : Bytes)
  | packet (p : Packet)
  | verdicts (vs : List Verdict)
  | count (n : Nat)
  | cmdEntry (e : Option CmdEntry)
  | rplEntry (e : Option RplEntry)
  | served (a : Option DevId)
deriving DecidableEq, Repr

/-- The result record of an operation (R7). -/
structure Result where
  status : Status
  frames : List Bytes
  notes  : List Note
  value  : Value
deriving DecidableEq, Repr

/-- Why the model stops on a read the spec says never happens (R21, R22, U12: "fault if a model ever reads one").
Never a fault of the hardware (R258). Safe: no such state is reached from reset (log entry 11). -/
inductive Fault where
  /-- A transmission read `SLOT.*` while `SLOT.VALID = 0`. Raised by DEV_TICK and MUX_TICK. Safe. -/
  | slotUnspecified
  /-- A reply read `CUR.*` while `CUR.VALID = 0`. Raised by PD_REPLY. Safe. -/
  | curUnspecified
  /-- A rule needed the bytes of a challenge or key register that holds `none`. Raised by the secure channel
  operations and by the state machines that run them. Safe. -/
  | keyMaterialNone
deriving DecidableEq, Repr

/-- Why the model has no step. A refusal of R252 is none of these: it is a result of an operation. -/
inductive Refusal where
  /-- The instruction has no meaning yet. No arm of exec raises it. Safe. -/
  | notModelled (mnemonic : String)
  /-- A frame request whose bytes are not one whole frame. Raised by step. Safe: such bytes reach the block through
  the receive operations (log entry 25). -/
  | badRequest (e : DecodeError)
  /-- The parameters, or for RESET the straps to be sampled, break a constraint of R9 with the keys (U21). Raised by step.
  Safe (log entry 17). -/
  | invalidConfiguration
deriving DecidableEq, Repr

/-- The state. `par`, `straps` and `keystore` are entries 1 to 3 of the log; `dc`, `mux` and `pdc` are R20's registers;
`draws` counts the random draws taken for each device id (entry 4); `inbox` and `result` are the host interface of R7
(entries 6, 7). -/
structure State where
  par      : Params
  straps   : Params
  keystore : Vector (Option Bytes) 128
  dc       : Vector (Option Device) 128
  mux      : Mux
  pdc      : Pdc
  draws    : Vector Nat 128
  inbox    : List Request
  result   : Option Result
deriving DecidableEq, Repr

/-- A secure channel at creation and at reset (R21, R22). -/
def Sc.init : Sc := { state := .idle, rndCp := none, rndPd := none, sEnc := none, sMac := none }

/-- A device context at creation (R292). -/
def Device.create (useCrc : Bool) : Device where
  useCrc   := useCrc
  dstate   := .offline
  seq      := 0
  sc       := Sc.init
  slot     := none
  retxp    := false
  retry    := 0
  resync   := false
  online   := false
  deadline := none
  lastpoll := none
  cmdq     := []
  rxbuf    := []

/-- The multiplexer after reset (R291). -/
def Mux.init : Mux := { rrptr := 127, lasttx := none }

/-- The PD context after reset (R291). -/
def Pdc.init : Pdc := { pdstate := .idle, pseq := 0, sc := Sc.init, cur := none, rxbuf := [] }

/-- The machine right after reset with these straps sampled (R290, R291), no key known, nothing presented. -/
def State.resetWith (p : Params) : State where
  par      := p
  straps   := p
  keystore := Vector.replicate 128 none
  dc       := Vector.replicate 128 none
  mux      := Mux.init
  pdc      := Pdc.init
  draws    := Vector.replicate 128 0
  inbox    := []
  result   := none

/-- The machine right after reset (R291), with the straps of log entry 2. -/
def State.reset : State := State.resetWith Config.straps

end Sys2Proof.Machine
end

