-- ==== Sys2Proof/Machine/Flags.lean ====
section
/-! DEFINITION. Flags: the check functions of a frame (R87, R88), the projection of SCSTATE (R32), sequence arithmetic
(R24, R223), the time comparisons (R265), and the numeric codes (R250, R252). -/

namespace Sys2Proof.Machine

/-- The sum of all bytes modulo 256 (R87). -/
def sum8 (b : Bytes) : Byte := b.foldl (· + ·) 0

/-- `CKSUM8(b)` in both modes (R87). -/
def cksum8 (mode : CksumMode) (b : Bytes) : Byte :=
  match mode with
  | .sum    => sum8 b
  | .negsum => - sum8 b

/-- One of the eight shifts of R88. -/
def crcShift (poly crc : BitVec 16) : BitVec 16 :=
  if crc.getLsbD 15 then (crc <<< 1) ^^^ poly else crc <<< 1

/-- `n` shifts of R88. -/
def crcShifts (poly : BitVec 16) : Nat → BitVec 16 → BitVec 16
  | 0, crc => crc
  | n + 1, crc => crcShifts poly n (crcShift poly crc)

/-- One byte taken into the CRC (R88). -/
def crcByte (poly crc : BitVec 16) (b : Byte) : BitVec 16 :=
  crcShifts poly 8 (crc ^^^ (b.setWidth 16 <<< 8))

/-- `CRC16(b)` with this polynomial and start value (R88). -/
def crc16 (poly init : BitVec 16) (b : Bytes) : BitVec 16 := b.foldl (crcByte poly) init

/-- The check bytes of a frame whose bytes before the check are `body` (R86). -/
def checkBytes (par : Params) (crc : Bool) (body : Bytes) : Bytes :=
  if crc then le16 (crc16 par.crcPoly par.crcInit body) else [cksum8 par.cksumMode body]

/-- `proj`: what the application sees of `SCSTATE` (R32). -/
def proj : ScState → ScStatus
  | .idle              => .none
  | .challengeSent     => .pending
  | .challengeReceived => .pending
  | .established       => .established
  | .broken            => .broken

/-- `next(s) = (s + 1) mod 4` (R12, R24). -/
def nextSeq (s : Seq) : Seq := s + 1

/-- A PD finds a command's sequence number valid when it is 0 or its own counter (R223). -/
def seqValid (sqn pseq : Seq) : Bool := sqn == 0 || sqn == pseq

/-- `now >= DEADLINE`; a `none` deadline has not passed (R265; log entry 12). -/
def deadlinePassed (deadline : Option Time) (now : Time) : Bool :=
  match deadline with
  | some t => decide (t ≤ now)
  | none   => false

/-- `gap_ok(now)` (R240). -/
def gapOk (par : Params) (lasttx : Option Time) (now : Time) : Bool :=
  match lasttx with
  | some t => decide (t + par.turnaroundGap ≤ now)
  | none   => true

/-- `LASTPOLL = none or now >= LASTPOLL + POLL_INTERVAL` (R241). -/
def pollDue (par : Params) (lastpoll : Option Time) (now : Time) : Bool :=
  match lastpoll with
  | some t => decide (t + par.pollInterval ≤ now)
  | none   => true

/-- The numeric code of an error (R250). -/
def ErrorCode.code : ErrorCode → Byte
  | .truncated         => 0x01
  | .lengthMismatch    => 0x02
  | .checksumInvalid   => 0x03
  | .desync            => 0x11
  | .unexpectedReply   => 0x12
  | .malformedPayload  => 0x13
  | .macInvalid        => 0x21
  | .cryptogramInvalid => 0x22
  | .notEstablished    => 0x23
  | .noKey             => 0x24
  | .deviceUnreachable => 0x31

/-- The numeric code of a refusal (R252). -/
def RefusalCode.code : RefusalCode → Byte
  | .invalidPacket     => 0x41
  | .noSuchDevice      => 0x42
  | .alreadyRegistered => 0x43
  | .wrongState        => 0x44
  | .queueFull         => 0x45
  | .wrongRole         => 0x46
  | .badOperand        => 0x47
  | .replyNotAllowed   => 0x48

end Sys2Proof.Machine
end

