-- ==== Sys2Proof/Machine/Crypto.lean ====
section
/-! DEFINITION. Crypto: the seven primitives of R11 as the configuration selects them, the registry's lookups (R170),
the constraints of R9, and the named properties of R11. -/

namespace Sys2Proof.Machine

/-- `CRC16` with the constants R88 fixes, as the toy functions of fixture T0 use it. -/
def t0Crc (b : Bytes) : Bytes := le16 (crc16 0x1021 0x1D0F b)

/-- The `n` bytes a byte function gives. -/
def bytesFrom (n : Nat) (f : Nat → Byte) : Bytes := (List.range n).map f

/-- `KDF_ENC(K, rnd_cp, rnd_pd)`, `SKEY_LEN` bytes (R11; T0). -/
def kdfEnc (par : Params) (k rcp rpd : Bytes) : Bytes :=
  match par.suite with
  | .vendor => bytesFrom par.skeyLen (Config.kdfEnc k rcp rpd)
  | .toyT0  => t0Crc ([0x01] ++ k ++ rcp ++ rpd)

/-- `KDF_MAC(K, rnd_cp, rnd_pd)`, `SKEY_LEN` bytes (R11; T0). -/
def kdfMac (par : Params) (k rcp rpd : Bytes) : Bytes :=
  match par.suite with
  | .vendor => bytesFrom par.skeyLen (Config.kdfMac k rcp rpd)
  | .toyT0  => t0Crc ([0x02] ++ k ++ rcp ++ rpd)

/-- `CGRAM_PD(K, rnd_cp, rnd_pd)`, `CRYPTO_LEN` bytes (R11; T0). -/
def cgramPd (par : Params) (k rcp rpd : Bytes) : Bytes :=
  match par.suite with
  | .vendor => bytesFrom par.cryptoLen (Config.cgramPd k rcp rpd)
  | .toyT0  => t0Crc ([0x03] ++ k ++ rcp ++ rpd) ++ t0Crc ([0x04] ++ k ++ rcp ++ rpd)

/-- `CGRAM_CP(K, rnd_cp, rnd_pd)`, `CRYPTO_LEN` bytes (R11; T0). -/
def cgramCp (par : Params) (k rcp rpd : Bytes) : Bytes :=
  match par.suite with
  | .vendor => bytesFrom par.cryptoLen (Config.cgramCp k rcp rpd)
  | .toyT0  => t0Crc ([0x05] ++ k ++ rcp ++ rpd) ++ t0Crc ([0x06] ++ k ++ rcp ++ rpd)

/-- T0's `ENC`: byte `i` exclusive-or key byte `i mod 2`; its own inverse. -/
def t0Xor (k p : Bytes) : Bytes := p.mapIdx fun i b => b ^^^ k.getD (i % 2) 0

/-- `ENC(s_enc, plaintext)` (R11; T0). R9 asks of every configuration that a secure poll fits, so the vendor's `ENC` of
the empty payload is cut to the room R9 leaves: every `ENC` that meets R9 is one of these, and no other is (U21). DESIGN
CHOICE (log entry 17). -/
def enc (par : Params) (k p : Bytes) : Bytes :=
  match par.suite with
  | .vendor => if p.isEmpty then (Config.enc k p).take (par.maxPayload - par.macLen) else Config.enc k p
  | .toyT0  => t0Xor k p

/-- `DEC(s_enc, ciphertext)` (R11; T0). -/
def dec (par : Params) (k c : Bytes) : Bytes :=
  match par.suite with
  | .vendor => Config.dec k c
  | .toyT0  => t0Xor k c

/-- `MAC(s_mac, ciphertext)`, `MAC_LEN` bytes (R11; T0). -/
def mac (par : Params) (k c : Bytes) : Bytes :=
  match par.suite with
  | .vendor => bytesFrom par.macLen (Config.mac k c)
  | .toyT0  => t0Crc (k ++ c)

/-- `P_DEC_ENC` of R11: a property a claim may assume by name. -/
def PDecEnc (par : Params) : Prop := ∀ k p, dec par k (enc par k p) = p

/-- `P_MAC_1BYTE` of R11: ciphertexts of equal length that differ in exactly one byte have different tags. -/
def PMac1Byte (par : Params) : Prop :=
  ∀ k pre suf b b', b ≠ b' → mac par k (pre ++ [b] ++ suf) ≠ mac par k (pre ++ [b'] ++ suf)

/-- `P_ENC_LEN` of R11: under one key the ciphertext's length depends on the plaintext's length only. DEDUCED (log entry
5): R11 does not say whether two keys may differ in it, and ends with "No property relates different keys", so one key
it is, which is the weaker thing to assume. -/
def PEncLen (par : Params) : Prop :=
  ∀ k p p', p.length = p'.length → (enc par k p).length = (enc par k p').length

/-- The last constraint of R9: a secure poll always fits. It holds of every configuration that passes `paramsOk`
(`paramsOk_securePollFits` of Laws/Channel). -/
def SecurePollFits (par : Params) : Prop := ∀ k, (enc par k []).length + par.macLen ≤ par.maxPayload

/-- Whether a payload satisfies a schema (R170). -/
def schemaAccepts (s : Schema) (p : Bytes) : Bool :=
  match s with
  | .any        => true
  | .len n      => p.length == n
  | .external k => Config.schema k p

/-- `REG_CMD(t)` (R170). -/
def regCmd (par : Params) (t : Byte) : Option CmdEntry := par.regCmd.lookup t

/-- `REG_RPL(t)` (R170). -/
def regRpl (par : Params) (t : Byte) : Option RplEntry := par.regRpl.lookup t

/-- A reply of type `r` to a command of type `c` is legal (R173). -/
def replyLegal (par : Params) (c r : Byte) : Bool :=
  match regCmd par c with
  | some e => e.replies.contains r
  | none   => false

/-- `REG_CMD(t)` holds exactly this reply code and length test (R9, R97). -/
def cmdIs (par : Params) (t reply : Byte) (n : Nat) : Bool :=
  match regCmd par t with
  | some e => !e.replies.isEmpty && e.replies.all (· == reply) && e.schema == .len n
  | none   => false

/-- `REG_RPL(t)`, where present, is this length test (R97, R170). -/
def rplIs (par : Params) (t : Byte) (n : Nat) : Bool :=
  match regRpl par t with
  | some e => e.schema == .len n
  | none   => true

/-- The decidable constraints between parameters (R9, R170; U21). -/
def paramsOk (p : Params) : Bool :=
  decide (p.maxPayload ≤ 65535) && decide (1 ≤ p.macLen) && decide (1 ≤ p.chalLen) && decide (1 ≤ p.cryptoLen)
  && decide (1 ≤ p.keyLen) && decide (1 ≤ p.skeyLen) && decide (1 ≤ p.timeout) && decide (1 ≤ p.retryMax)
  && decide (1 ≤ p.qdepth) && p.cpCaps.length == p.capsLen
  && p.tPoll != p.tChlng && p.tPoll != p.tScrypt && p.tChlng != p.tScrypt
  && cmdIs p p.tChlng p.tCcrypt (p.chalLen + p.capsLen) && cmdIs p p.tScrypt p.tScdone p.cryptoLen
  && (match regCmd p p.tPoll with
      | some e => !e.replies.isEmpty && e.schema == .len 0
      | none   => false)
  && rplIs p p.tCcrypt (p.chalLen + p.cryptoLen) && rplIs p p.tScdone 0
  && decide (p.chalLen + p.capsLen ≤ p.maxPayload) && decide (p.chalLen + p.cryptoLen ≤ p.maxPayload)
  && decide (p.cryptoLen ≤ p.maxPayload) && decide (p.macLen ≤ p.maxPayload)
  && (p.suite == .vendor || (p.skeyLen == 2 && p.cryptoLen == 4 && p.macLen == 2))

/-- The key store's constraint: every key has `KEY_LEN` bytes (R9, R27). -/
def keysOk (par : Params) (keys : Vector (Option Bytes) 128) : Bool :=
  keys.toList.all fun k => k.all fun b => b.length == par.keyLen

/-- The parameters an instruction runs under: for RESET the straps it samples, for every other the sampled ones (R290). -/
def State.parFor (s : State) : Instr → Params
  | .reset => s.straps
  | _      => s.par

/-- These parameters and what the key store returns now meet R9's constraints (R27; U21). -/
def State.configOk (s : State) (par : Params) : Bool := paramsOk par && keysOk par s.keystore

end Sys2Proof.Machine
end

