-- ==== Sys2Proof/Machine/Operands.lean ====
section
/-! DEFINITION. Operands: access to the device contexts, the order in which an operation's operands are checked (R252),
the packet operand of WF_ENCODE (R110), and `mk_packet` (R99). -/

namespace Sys2Proof.Machine

/-- `DC[a]`, `none` when `VALID = 0` (R21). -/
def State.dev (s : State) (a : DevId) : Option Device := s.dc[a.toNat]'(a.isLt)

/-- Write `DC[a]`; `none` makes `VALID = 0` (R21, R182). -/
def State.setDev (s : State) (a : DevId) (d : Option Device) : State :=
  { s with dc := s.dc.set a.toNat d a.isLt }

/-- `KEYSTORE(a)` (R9). -/
def State.key (s : State) (a : DevId) : Option Bytes := s.keystore[a.toNat]'(a.isLt)

/-- How many random draws device `a` has taken (log entry 4). -/
def State.drawn (s : State) (a : DevId) : Nat := s.draws[a.toNat]'(a.isLt)

/-- Write how many random draws device `a` has taken. -/
def State.setDrawn (s : State) (a : DevId) (n : Nat) : State := { s with draws := s.draws.set a.toNat n a.isLt }

/-- `draw(n)`: random draw `k` of device `a`, the PD's own being those of `MYADDR` (R13; log entry 4). No two devices share
a draw, so that operations on different devices commute (R6, R66). -/
def drawBytes (a : DevId) (n k : Nat) : Bytes := bytesFrom n (Config.draw a k)

/-- The device id a natural operand names (R252: above 127 is out of range). -/
def devIdOf (a : Nat) : Option DevId := if a ≤ 127 then some (BitVec.ofNat 7 a) else none

/-- The type code a natural operand names (log entry 14). -/
def codeOf (t : Nat) : Option Byte := if t ≤ 255 then some (BitVec.ofNat 8 t) else none

/-- `WrongRole` unless the block is a CP (R96, R252). -/
def requireCp (s : State) : Except RefusalCode Unit :=
  if s.par.role = .cp then .ok () else .error .wrongRole

/-- `WrongRole` unless the block is a PD (R96, R252). -/
def requirePd (s : State) : Except RefusalCode Unit :=
  if s.par.role = .pd then .ok () else .error .wrongRole

/-- A device id operand of a CP operation: role, then range (R252). -/
def cpId (s : State) (a : Nat) : Except RefusalCode DevId :=
  match requireCp s, devIdOf a with
  | .error r, _      => .error r
  | .ok (), none     => .error .badOperand
  | .ok (), some i   => .ok i

/-- The context a CP operation names: role, then range, then `NoSuchDevice` (R252). -/
def cpDevice (s : State) (a : Nat) : Except RefusalCode (DevId × Device) :=
  match cpId s a with
  | .error r => .error r
  | .ok i =>
    match s.dev i with
    | some d => .ok (i, d)
    | none   => .error .noSuchDevice

/-- The packet a raw operand constructs, if every field is in range (R110, first line). -/
def toPacket? (p : RawPacket) : Option Packet :=
  if p.devid ≤ 127 ∧ p.sqn ≤ 3 ∧ p.crc ≤ 1 ∧ p.sec ≤ 1 ∧ p.mbl ≤ 1 ∧ p.type ≤ 255 then
    some { devid := BitVec.ofNat 7 p.devid, mbl := p.mbl == 1, sqn := BitVec.ofNat 2 p.sqn, crc := p.crc == 1,
           sec := p.sec == 1, type := BitVec.ofNat 8 p.type, payload := p.payload }
  else none

/-- `valid(P)` (R14). -/
def packetValid (par : Params) (p : Packet) : Bool :=
  decide (p.payload.length ≤ par.maxPayload) && (p.mbl || decide (p.payload.length ≤ 255))

/-- `mk_packet`: `mbl = 1` exactly when the payload is longer than 255 bytes (R99). -/
def mkPacket (devid : DevId) (sqn : Seq) (crc sec : Bool) (type : Byte) (payload : Bytes) : Packet :=
  { devid := devid, mbl := decide (255 < payload.length), sqn := sqn, crc := crc, sec := sec, type := type,
    payload := payload }

end Sys2Proof.Machine
end

