-- ==== Sys2Proof/Machine/Ops.lean ====
section
/-! DEFINITION. Ops: how an operation ends (raise and refuse of R13), the work an operation has done so far (R7, R13),
reporting an error (R254), and the framer's two functions, encode (R110) and verdict (R111). -/

namespace Sys2Proof.Machine

/-- Why an operation ends before its last line (R13); `fault` is the model's own (log entry 11). -/
inductive Stop where
  | raise (e : ErrorCode)
  | refuse (r : RefusalCode)
  | fault (f : Fault)
deriving DecidableEq, Repr

/-- What an operation has done so far: its context, how many draws its device has taken, and the frames and notes it
produced (R7). -/
structure Work (σ : Type) where
  ctx    : σ
  draws  : Nat
  frames : List Bytes
  notes  : List Note
deriving DecidableEq, Repr

/-- A procedure's end: its work, and the stop that ends the whole operation, if any (R13). -/
structure Done (σ : Type) where
  work : Work σ
  stop : Option Stop
deriving DecidableEq, Repr

/-- A procedure that came to its last line. -/
def Work.done {σ : Type} (w : Work σ) : Done σ := { work := w, stop := none }

/-- A procedure that stopped. -/
def Work.stopped {σ : Type} (w : Work σ) (s : Stop) : Done σ := { work := w, stop := some s }

/-- Go on with `f` unless the operation has ended. -/
def Done.andThen {σ : Type} (x : Done σ) (f : Work σ → Done σ) : Done σ :=
  match x.stop with
  | none   => f x.work
  | some _ => x

/-- Work on a context before anything is done. -/
def Work.start {σ : Type} (ctx : σ) (draws : Nat) : Work σ :=
  { ctx := ctx, draws := draws, frames := [], notes := [] }

/-- `note(N)` (R13). -/
def Work.note {σ : Type} (w : Work σ) (n : Note) : Work σ := { w with notes := w.notes ++ [n] }

/-- `emit(f)` (R13). -/
def Work.emit {σ : Type} (w : Work σ) (f : Bytes) : Work σ := { w with frames := w.frames ++ [f] }

/-- A procedure that stopped, a raised error reported by its note `mk e` (R152, R254). -/
def Work.stoppedNoting {σ : Type} (mk : ErrorCode → Note) (w : Work σ) (s : Stop) : Done σ :=
  match s with
  | .raise e  => (w.note (mk e)).stopped s
  | .refuse _ => w.stopped s
  | .fault _  => w.stopped s

/-- Handle verdicts one after another in stream order, each seeing what the previous left (R253). -/
def eachVerdict {σ : Type} (f : Verdict → Work σ → Done σ) : List Verdict → Work σ → Done σ
  | [], w      => w.done
  | v :: vs, w => (f v w).andThen (eachVerdict f vs)

/-- The result record with nothing in it but the status `OK`. -/
def Result.ok : Result := { status := .ok, frames := [], notes := [], value := .none }

/-- `refuse X`: the status is the refusal and no register changes (R13, R252). -/
def State.refuse (s : State) (r : RefusalCode) : State :=
  { s with result := some { status := .refused r, frames := [], notes := [], value := .none } }

/-- The end of an operation (R7, R13): `s0` is the state it began in, `s1` the state its writes left. `OK` and `raise`
keep the writes, the frames and the notes; `refuse` keeps none; `okValue` is returned with `OK`, `errValue` with an
error. -/
def finish (s0 s1 : State) (stop : Option Stop) (frames : List Bytes) (notes : List Note) (okValue errValue : Value) :
    Host.Outcome State Fault Refusal :=
  match stop with
  | none              => .next { s1 with result := some { status := .ok, frames := frames, notes := notes, value := okValue } }
  | some (.raise e)   => .next { s1 with result := some { status := .error e, frames := frames, notes := notes, value := errValue } }
  | some (.refuse r)  => .next (s0.refuse r)
  | some (.fault f)   => .fault f

/-- What a procedure of the secure channel reads beside its registers: the parameters, `id` (the device id on a CP,
`MYADDR` on a PD) and `KEYSTORE(id)` (R140, 41_secure_channel.md). -/
structure Env where
  par : Params
  id  : DevId
  key : Option Bytes
deriving DecidableEq, Repr

/-- The environment of the operations on device `i` of a CP. -/
def State.cpEnv (s : State) (i : DevId) : Env := { par := s.par, id := i, key := s.key i }

/-- The environment of the operations of a PD. -/
def State.pdEnv (s : State) : Env := { par := s.par, id := s.par.myAddr, key := s.key s.par.myAddr }

/-- The frame fields of a packet; the encoder writes the reserved bits 0 (R91). -/
def packetBody (p : Packet) : FrameBody :=
  { devid := p.devid, rsv := 0, sec := p.sec, sqn := p.sqn, type := p.type, payload := p.payload }

/-- The frame of a packet: the bytes before the check, then the check (R110). -/
def frameOf (par : Params) (p : Packet) : Bytes :=
  frameBytes p.mbl p.crc (packetBody p) ++ checkBytes par p.crc (frameBytes p.mbl p.crc (packetBody p))

/-- `WF_ENCODE` of a packet whose fields are in range: its frame, or a refusal when it is not `valid` (R110). -/
def encodePacket (par : Params) (p : Packet) : Except RefusalCode Bytes :=
  if packetValid par p then .ok (frameOf par p) else .error .invalidPacket

/-- The packet in a whole frame; the reserved bits are ignored (R91, R111 step 8). -/
def packetOf (b : Bytes) : Packet :=
  { devid := devidOf b, mbl := mblOf b, sqn := (ctrlOf b).extractLsb' 0 2, crc := crcOf b,
    sec := (ctrlOf b).getLsbD 3, type := typeOf b, payload := payloadOf b }

/-- The bytes of a whole frame before its check (R86). -/
def bodyOf (b : Bytes) : Bytes := slice b 0 (totalOf b - 1 - (crcOf b).toNat)

/-- The check bytes of a whole frame (R86). -/
def checkOf (b : Bytes) : Bytes := slice b (totalOf b - 1 - (crcOf b).toNat) (totalOf b)

/-- `verdict(b, exact)`: the checks in R111's order, the first that fails decides. -/
def verdict (par : Params) (b : Bytes) (exact : Bool) : Verdict :=
  if b.length = 0 then .error .truncated
  else if b.length < 2 + (mblOf b).toNat then .error .truncated
  else if par.maxPayload < lenOf b then .error .lengthMismatch
  else if b.length < 4 + (mblOf b).toNat then .error .truncated
  else if b.length < totalOf b then .error .truncated
  else if exact ∧ totalOf b < b.length then .error .lengthMismatch
  else if checkOf b ≠ checkBytes par (crcOf b) (bodyOf b) then .error .checksumInvalid
  else .packet (packetOf b)

/-- `WF_FEED`: bytes are taken one by one; any verdict but `Truncated` empties the accumulator (R113). Answers the
verdicts in order and the accumulator left. -/
def feed (par : Params) : Bytes → Bytes → List Verdict × Bytes
  | rx, [] => ([], rx)
  | rx, c :: cs =>
    let v := verdict par (rx ++ [c]) false
    if v = .error .truncated then feed par (rx ++ [c]) cs
    else
      let r := feed par [] cs
      (v :: r.1, r.2)

end Sys2Proof.Machine
end

