-- ==== Sys2Proof/Machine/Channel.lean ====
section
/-! DEFINITION. Channel: the cipher and MAC engine (41_secure_channel.md), its procedures R142 to R151 on the registers
of one instance, and the meanings of the operations SC_RESET to SC_UNWRAP. -/

namespace Sys2Proof.Machine

/-- A secure channel procedure's end: the registers it left, the notes it emitted, whether it took a draw, and its
value or the stop that ended it (R13). -/
structure ScDone (α : Type) where
  sc    : Sc
  notes : List Note
  drew  : Bool
  out   : Except Stop α

/-- `set_sc(s)` (R142): the register written and the note of a change of projection. -/
def setSc (id : DevId) (st : ScState) (sc : Sc) : Sc × List Note :=
  ({ sc with state := st }, if proj sc.state = proj st then [] else [.scStatus id (proj st)])

/-- Key material zeroed: `none` in all four registers (R28). -/
def scClear (sc : Sc) : Sc := { sc with rndCp := none, rndPd := none, sEnc := none, sMac := none }

/-- `SC_RESET` (R141). -/
def scReset (id : DevId) (sc : Sc) : Sc × List Note :=
  (scClear (setSc id .idle sc).1, (setSc id .idle sc).2)

/-- `SC_BREAK` (R149). -/
def scBreak (id : DevId) (sc : Sc) : Sc × List Note :=
  (scClear (setSc id .broken sc).1, (setSc id .broken sc).2)

/-- End with a stop and nothing written. -/
def scStop {α : Type} (sc : Sc) (s : Stop) : ScDone α := { sc := sc, notes := [], drew := false, out := .error s }

/-- `SC_BREAK; raise e`. -/
def scBreakRaise {α : Type} (id : DevId) (sc : Sc) (e : ErrorCode) : ScDone α :=
  { sc := (scBreak id sc).1, notes := (scBreak id sc).2, drew := false, out := .error (.raise e) }

/-- `SC_CP_BEGIN` with the draw `rnd` (R143). It returns the challenge, as R143 says, although R28, R154 and R264 say that
no operation does: DEDUCED (log entry 28). -/
def scCpBegin (e : Env) (rnd : Bytes) (sc : Sc) : ScDone Bytes :=
  if sc.state ≠ .idle then scStop sc (.refuse .wrongState)
  else
    let r := setSc e.id .challengeSent { sc with rndCp := some rnd }
    { sc := r.1, notes := r.2, drew := true, out := .ok (rnd ++ e.par.cpCaps) }

/-- `SC_CP_VERIFY` (R144). -/
def scCpVerify (e : Env) (payload : Bytes) (sc : Sc) : ScDone Unit :=
  if sc.state ≠ .challengeSent then scStop sc (.refuse .wrongState)
  else if payload.length ≠ e.par.chalLen + e.par.cryptoLen then scStop sc (.raise .malformedPayload)
  else
    match e.key with
    | none => scBreakRaise e.id sc .noKey
    | some k =>
      match sc.rndCp with
      | none => scStop sc (.fault .keyMaterialNone)
      | some rcp =>
        let rpd := slice payload 0 e.par.chalLen
        let cg := slice payload e.par.chalLen (e.par.chalLen + e.par.cryptoLen)
        if cg ≠ cgramPd e.par k rcp rpd then scBreakRaise e.id sc .cryptogramInvalid
        else
          let r := setSc e.id .challengeReceived
            { sc with rndPd := some rpd, sEnc := some (kdfEnc e.par k rcp rpd), sMac := some (kdfMac e.par k rcp rpd) }
          { sc := r.1, notes := r.2, drew := false, out := .ok () }

/-- `SC_CP_CONFIRM` (R145). -/
def scCpConfirm (e : Env) (sc : Sc) : ScDone Bytes :=
  if sc.state ≠ .challengeReceived then scStop sc (.refuse .wrongState)
  else
    match e.key with
    | none => scBreakRaise e.id sc .noKey
    | some k =>
      match sc.rndCp, sc.rndPd with
      | some rcp, some rpd => { sc := sc, notes := [], drew := false, out := .ok (cgramCp e.par k rcp rpd) }
      | _, _ => scStop sc (.fault .keyMaterialNone)

/-- `SC_CP_FINISH` (R146). -/
def scCpFinish (e : Env) (sc : Sc) : ScDone Unit :=
  if sc.state ≠ .challengeReceived then scStop sc (.refuse .wrongState)
  else
    let r := setSc e.id .established sc
    { sc := r.1, notes := r.2, drew := false, out := .ok () }

/-- `SC_PD_CHALLENGE` with the draw `rnd` (R147); the capabilities bytes are not examined. It returns the PD's challenge, as
R147 says, although R28, R154 and R264 say that no operation does: DEDUCED (log entry 28). -/
def scPdChallenge (e : Env) (rnd payload : Bytes) (sc : Sc) : ScDone Bytes :=
  if payload.length ≠ e.par.chalLen + e.par.capsLen then scStop sc (.raise .malformedPayload)
  else
    match e.key with
    | none => scStop sc (.raise .noKey)
    | some k =>
      let rcp := slice payload 0 e.par.chalLen
      let r0 := scReset e.id sc
      let r1 := setSc e.id .challengeReceived { r0.1 with rndCp := some rcp }
      let r2 := setSc e.id .challengeSent
        { r1.1 with rndPd := some rnd, sEnc := some (kdfEnc e.par k rcp rnd), sMac := some (kdfMac e.par k rcp rnd) }
      { sc := r2.1, notes := r0.2 ++ r1.2 ++ r2.2, drew := true, out := .ok (rnd ++ cgramPd e.par k rcp rnd) }

/-- `SC_PD_VERIFY` (R148). -/
def scPdVerify (e : Env) (payload : Bytes) (sc : Sc) : ScDone Unit :=
  if sc.state ≠ .challengeSent then scStop sc (.raise .notEstablished)
  else if payload.length ≠ e.par.cryptoLen then scStop sc (.raise .malformedPayload)
  else
    match e.key with
    | none => scBreakRaise e.id sc .noKey
    | some k =>
      match sc.rndCp, sc.rndPd with
      | some rcp, some rpd =>
        if payload ≠ cgramCp e.par k rcp rpd then scBreakRaise e.id sc .cryptogramInvalid
        else
          let r := setSc e.id .established sc
          { sc := r.1, notes := r.2, drew := false, out := .ok () }
      | _, _ => scStop sc (.fault .keyMaterialNone)

/-- The wire payload of a plaintext under these keys: ciphertext, then tag (R95, R150). -/
def sealed (par : Params) (kEnc kMac p : Bytes) : Bytes := enc par kEnc p ++ mac par kMac (enc par kEnc p)

/-- `SC_WRAP` (R150); it writes no register. -/
def scWrap (par : Params) (p : Bytes) (sc : Sc) : Except Stop Bytes :=
  if sc.state ≠ .established then .error (.raise .notEstablished)
  else
    match sc.sEnc, sc.sMac with
    | some ke, some km =>
      if par.maxPayload < (sealed par ke km p).length then .error (.refuse .invalidPacket)
      else .ok (sealed par ke km p)
    | _, _ => .error (.fault .keyMaterialNone)

/-- `SC_UNWRAP` (R151). -/
def scUnwrap (e : Env) (w : Bytes) (sc : Sc) : ScDone Bytes :=
  if sc.state ≠ .established then scStop sc (.raise .notEstablished)
  else if w.length < e.par.macLen then scBreakRaise e.id sc .macInvalid
  else
    match sc.sEnc, sc.sMac with
    | some ke, some km =>
      let c := slice w 0 (w.length - e.par.macLen)
      let t := slice w (w.length - e.par.macLen) w.length
      if t ≠ mac e.par km c then scBreakRaise e.id sc .macInvalid
      else { sc := sc, notes := [], drew := false, out := .ok (dec e.par ke c) }
    | _, _ => scStop sc (.fault .keyMaterialNone)

/-- The stop of a procedure, if it has one. -/
def stopOf {α : Type} (out : Except Stop α) : Option Stop :=
  match out with
  | .ok _    => none
  | .error s => some s

/-- The value an operation returns with `OK`. -/
def valueOf {α : Type} (f : α → Value) (out : Except Stop α) : Value :=
  match out with
  | .ok v    => f v
  | .error _ => .none

/-- End of a secure channel operation of device `id` whose registers were written back into `s1`. -/
def finishSc {α : Type} (s0 s1 : State) (id : DevId) (f : α → Value) (r : ScDone α) :
    Host.Outcome State Fault Refusal :=
  finish s0 (s1.setDrawn id (s1.drawn id + r.drew.toNat)) (stopOf r.out) [] r.notes (valueOf f r.out) .none

/-- A secure channel operation on device `a` of a CP: the checks of R252, the procedure, its writes. -/
def onCpChannel {α : Type} (s : State) (a : Nat) (f : α → Value) (g : Env → Sc → ScDone α) :
    Host.Outcome State Fault Refusal :=
  match cpDevice s a with
  | .error r => .next (s.refuse r)
  | .ok (i, d) =>
    finishSc s (s.setDev i (some { d with sc := (g (s.cpEnv i) d.sc).sc })) i f (g (s.cpEnv i) d.sc)

/-- A secure channel operation on a PD's own instance. -/
def onPdChannel {α : Type} (s : State) (f : α → Value) (g : Env → Sc → ScDone α) : Host.Outcome State Fault Refusal :=
  match requirePd s with
  | .error r => .next (s.refuse r)
  | .ok () =>
    finishSc s { s with pdc := { s.pdc with sc := (g s.pdEnv s.pdc.sc).sc } } s.par.myAddr f (g s.pdEnv s.pdc.sc)

/-- A secure channel operation of either role (`SCX` of 41_secure_channel.md); a PD ignores `a` (log entry 13). -/
def onChannel {α : Type} (s : State) (a : Nat) (f : α → Value) (g : Env → Sc → ScDone α) :
    Host.Outcome State Fault Refusal :=
  match s.par.role with
  | .cp => onCpChannel s a f g
  | .pd => onPdChannel s f g

/-- `SC_RESET` as a procedure with an end: status `OK` always (R141). -/
def scResetDone (e : Env) (sc : Sc) : ScDone Unit :=
  { sc := (scReset e.id sc).1, notes := (scReset e.id sc).2, drew := false, out := .ok () }

/-- `SC_WRAP` as a procedure with an end. -/
def scWrapDone (p : Bytes) (e : Env) (sc : Sc) : ScDone Bytes :=
  { sc := sc, notes := [], drew := false, out := scWrap e.par p sc }

/-- SC_RESET (R141). -/
def execScReset (a : Nat) (s : State) : Host.Outcome State Fault Refusal :=
  onChannel s a (fun _ => .none) scResetDone

/-- SC_CP_BEGIN (R143). -/
def execScCpBegin (a : Nat) (s : State) : Host.Outcome State Fault Refusal :=
  onCpChannel s a .bytes fun e sc => scCpBegin e (drawBytes e.id e.par.chalLen (s.drawn e.id)) sc

/-- SC_CP_VERIFY (R144). -/
def execScCpVerify (a : Nat) (payload : Bytes) (s : State) : Host.Outcome State Fault Refusal :=
  onCpChannel s a (fun _ => .none) fun e sc => scCpVerify e payload sc

/-- SC_CP_CONFIRM (R145). -/
def execScCpConfirm (a : Nat) (s : State) : Host.Outcome State Fault Refusal :=
  onCpChannel s a .bytes scCpConfirm

/-- SC_CP_FINISH (R146). -/
def execScCpFinish (a : Nat) (s : State) : Host.Outcome State Fault Refusal :=
  onCpChannel s a (fun _ => .none) scCpFinish

/-- SC_PD_CHALLENGE (R147). -/
def execScPdChallenge (payload : Bytes) (s : State) : Host.Outcome State Fault Refusal :=
  onPdChannel s .bytes fun e sc => scPdChallenge e (drawBytes e.id e.par.chalLen (s.drawn e.id)) payload sc

/-- SC_PD_VERIFY (R148). -/
def execScPdVerify (payload : Bytes) (s : State) : Host.Outcome State Fault Refusal :=
  onPdChannel s (fun _ => .none) fun e sc => scPdVerify e payload sc

/-- SC_WRAP (R150). -/
def execScWrap (a : Nat) (p : Bytes) (s : State) : Host.Outcome State Fault Refusal :=
  onChannel s a .bytes (scWrapDone p)

/-- SC_UNWRAP (R151). -/
def execScUnwrap (a : Nat) (w : Bytes) (s : State) : Host.Outcome State Fault Refusal :=
  onChannel s a .bytes fun e sc => scUnwrap e w sc

end Sys2Proof.Machine
end

