-- ==== Sys2Proof/Machine/Framer.lean ====
section
/-! DEFINITION. Framer: the meanings of WF_ENCODE, WF_DECODE, WF_FEED and WF_FLUSH (40_wire_codec.md). -/

namespace Sys2Proof.Machine

/-- The end of an operation that came to its last line with this value and no frame or note. -/
def State.answer (s : State) (status : Status) (value : Value) : State :=
  { s with result := some { status := status, frames := [], notes := [], value := value } }

/-- WF_ENCODE (R110): pure; a packet out of range or not valid is refused. -/
def execWfEncode (p : RawPacket) (s : State) : Host.Outcome State Fault Refusal :=
  match toPacket? p with
  | none => .next (s.refuse .invalidPacket)
  | some q =>
    match encodePacket s.par q with
    | .error r => .next (s.refuse r)
    | .ok f    => .next (s.answer .ok (.bytes f))

/-- WF_DECODE (R112): pure; a `FrameError` is the status. -/
def execWfDecode (b : Bytes) (s : State) : Host.Outcome State Fault Refusal :=
  match verdict s.par b true with
  | .packet p => .next (s.answer .ok (.packet p))
  | .error e  => .next (s.answer (.error e) .none)

/-- WF_FEED (R113); a PD has one accumulator and ignores `a` (log entry 13). -/
def execWfFeed (a : Nat) (chunk : Bytes) (s : State) : Host.Outcome State Fault Refusal :=
  match s.par.role with
  | .pd =>
    let r := feed s.par s.pdc.rxbuf chunk
    .next ({ s with pdc := { s.pdc with rxbuf := r.2 } }.answer .ok (.verdicts r.1))
  | .cp =>
    match cpDevice s a with
    | .error r => .next (s.refuse r)
    | .ok (i, d) =>
      let r := feed s.par d.rxbuf chunk
      .next ((s.setDev i (some { d with rxbuf := r.2 })).answer .ok (.verdicts r.1))

/-- The status of a flush of `n` bytes (R114). -/
def flushStatus (n : Nat) : Status := if n = 0 then .ok else .error .truncated

/-- WF_FLUSH (R114); a PD ignores `a` (log entry 13). -/
def execWfFlush (a : Nat) (s : State) : Host.Outcome State Fault Refusal :=
  match s.par.role with
  | .pd =>
    .next ({ s with pdc := { s.pdc with rxbuf := [] } }.answer
      (flushStatus s.pdc.rxbuf.length) (.count s.pdc.rxbuf.length))
  | .cp =>
    match cpDevice s a with
    | .error r => .next (s.refuse r)
    | .ok (i, d) =>
      .next ((s.setDev i (some { d with rxbuf := [] })).answer (flushStatus d.rxbuf.length) (.count d.rxbuf.length))

end Sys2Proof.Machine
end

