-- ==== Sys2Proof/Machine/Registry.lean ====
section
/-! DEFINITION. Registry: the meanings of REG_LOOKUP_CMD and REG_LOOKUP_RPL (42_registry.md). -/

namespace Sys2Proof.Machine

/-- REG_LOOKUP_CMD (R171): status `OK` whether or not the entry exists; a code above 255 is out of range (log entry 14). -/
def execRegLookupCmd (t : Nat) (s : State) : Host.Outcome State Fault Refusal :=
  match codeOf t with
  | none   => .next (s.refuse .badOperand)
  | some c => .next (s.answer .ok (.cmdEntry (regCmd s.par c)))

/-- REG_LOOKUP_RPL (R172). -/
def execRegLookupRpl (t : Nat) (s : State) : Host.Outcome State Fault Refusal :=
  match codeOf t with
  | none   => .next (s.refuse .badOperand)
  | some c => .next (s.answer .ok (.rplEntry (regRpl s.par c)))

end Sys2Proof.Machine
end

