-- ==== Sys2Proof/Machine/DeviceCp.lean ====
section
/-! DEFINITION. DeviceCp: the CP's device state machine (43_dsm_cp.md): its procedures R186 to R197 as functions of one
device context, and the meanings of DEV_REGISTER to DEV_RX. -/

namespace Sys2Proof.Machine

/-- Take over what a secure channel procedure did to a device: its registers, its notes, its draw. -/
def absorbSc {α : Type} (w : Work Device) (r : ScDone α) : Work Device :=
  { w with ctx := { w.ctx with sc := r.sc }, draws := w.draws + r.drew.toNat, notes := w.notes ++ r.notes }

/-- `SC_RESET(a)` inside another rule (R141). -/
def cpScReset (e : Env) (w : Work Device) : Work Device := absorbSc w (scResetDone e w.ctx.sc)

/-- `go_offline(a, reason)` (R189). -/
def goOffline (e : Env) (reason : OfflineReason) (w : Work Device) : Work Device :=
  let w1 := cpScReset e w
  { w1 with
    ctx := { w1.ctx with
      dstate := .offline, slot := none, retxp := false, resync := false, deadline := none, cmdq := [],
      online := false, rxbuf := [] } }.note (.offline e.id reason)

/-- `bounded_retry(a)` (R188): whether the budget is left, and the work after it. -/
def boundedRetry (e : Env) (w : Work Device) : Work Device × Bool :=
  let w1 := { w with ctx := { w.ctx with retry := w.ctx.retry + 1 } }
  if e.par.retryMax ≤ w.ctx.retry + 1 then (goOffline e .unreachable w1, false) else (w1, true)

/-- The payload that goes on the wire: wrapped when the frame is secure, as it is otherwise (R186, R226, R153). -/
def wirePayload (par : Params) (sc : Sc) (sec : Bool) (p : Bytes) : Except Stop Bytes :=
  if sec then scWrap par p sc else .ok p

/-- `xmit(a, now)` (R186). An error of SC_WRAP ends the operation with that status (R298) and its `Error` note (R152, R251):
DEDUCED (log entry 29). -/
def xmit (e : Env) (now : Time) (w : Work Device) : Done Device :=
  match w.ctx.slot with
  | none => w.stopped (.fault .slotUnspecified)
  | some sl =>
    match wirePayload e.par w.ctx.sc sl.sec sl.payload with
    | .error st => w.stoppedNoting (.error e.id) st
    | .ok wire =>
      match encodePacket e.par (mkPacket e.id sl.seq w.ctx.useCrc sl.sec sl.type wire) with
      | .error r => w.stopped (.refuse r)
      | .ok f =>
        ({ w with ctx := { w.ctx with
            deadline := some (now + e.par.timeout), lastpoll := some now, retxp := false } }.emit f).done

/-- The slot a command goes into (R186): secure exactly when the channel is established and the command is none of
the two handshake commands. -/
def slotFor (par : Params) (d : Device) (t : Byte) (p : Bytes) : Slot :=
  { type := t, payload := p, seq := d.seq,
    sec := decide (d.sc.state = .established) && t != par.tChlng && t != par.tScrypt }

/-- `send(a, now, t, p)` (R186). -/
def send (e : Env) (now : Time) (t : Byte) (p : Bytes) (w : Work Device) : Done Device :=
  xmit e now { w with ctx := { w.ctx with slot := some (slotFor e.par w.ctx t p) } }

/-- `channel_broken(a, code)` (R197). -/
def channelBroken (e : Env) (code : ErrorCode) (w : Work Device) : Work Device :=
  let w1 := match w.ctx.slot with
    | some sl => w.note (.commandFailed e.id sl.type (.error code))
    | none    => w
  { w1 with ctx := { w1.ctx with
      slot := none, retxp := false, resync := false, deadline := none, dstate := .secureHandshake, seq := 0 } }

/-- `awaiting(a, now)` (R187). -/
def awaiting (e : Env) (now : Time) (w : Work Device) : Done Device :=
  if w.ctx.retxp then xmit e now w
  else if deadlinePassed w.ctx.deadline now then
    let r := boundedRetry e w
    if r.2 then xmit e now r.1 else r.1.done
  else w.done

/-- What a tick in `Polling` sends (R187): the head of the queue, else a poll; a queued command too long to be sent
secure is dropped with a note and a poll goes instead. -/
def pickCommand (e : Env) (w : Work Device) : Except Stop (Work Device × Cmd) :=
  match w.ctx.cmdq with
  | [] => .ok (w, { type := e.par.tPoll, payload := [] })
  | c :: rest =>
    let w1 := { w with ctx := { w.ctx with cmdq := rest } }
    if w.ctx.sc.state = .established then
      match w.ctx.sc.sEnc with
      | none => .error (.fault .keyMaterialNone)
      | some k =>
        if e.par.maxPayload < (enc e.par k c.payload).length + e.par.macLen then
          .ok (w1.note (.commandFailed e.id c.type (.refusal .invalidPacket)), { type := e.par.tPoll, payload := [] })
        else .ok (w1, c)
    else .ok (w1, c)

/-- A tick in `Polling` (R187). -/
def tickPolling (e : Env) (now : Time) (w : Work Device) : Done Device :=
  match pickCommand e w with
  | .error st => w.stopped st
  | .ok (w1, c) =>
    (send e now c.type c.payload w1).andThen fun w2 =>
      { w2 with ctx := { w2.ctx with dstate := .awaitingReply } }.done

/-- A tick in `SecureHandshake` with `SCSTATE = Idle`: sequence 0, a fresh challenge, `T_CHLNG` (R187). -/
def tickChallenge (e : Env) (now : Time) (w : Work Device) : Done Device :=
  let w1 := { w with ctx := { w.ctx with seq := 0 } }
  let r := scCpBegin e (drawBytes e.id e.par.chalLen w1.draws) w1.ctx.sc
  match r.out with
  | .ok payload => send e now e.par.tChlng payload (absorbSc w1 r)
  | .error st   => (absorbSc w1 r).stopped st

/-- A tick in `SecureHandshake` with `SCSTATE = ChallengeReceived`: the confirmation cryptogram, `T_SCRYPT` (R187). -/
def tickConfirm (e : Env) (now : Time) (w : Work Device) : Done Device :=
  let r := scCpConfirm e w.ctx.sc
  match r.out with
  | .ok payload         => send e now e.par.tScrypt payload (absorbSc w r)
  | .error (.raise err) => (channelBroken e err ((absorbSc w r).note (.error e.id err))).done
  | .error st           => (absorbSc w r).stopped st

/-- A tick in `SecureHandshake` (R187). -/
def tickHandshake (e : Env) (now : Time) (w : Work Device) : Done Device :=
  if w.ctx.slot.isSome then awaiting e now w
  else
    let w1 := if w.ctx.sc.state = .broken then cpScReset e w else w
    match w1.ctx.sc.state with
    | .idle              => tickChallenge e now w1
    | .challengeReceived => tickConfirm e now w1
    | .challengeSent     => w1.done
    | .established       => w1.done
    | .broken            => w1.done

/-- `DEV_TICK a, now` on the device's context (R187). -/
def devTick (e : Env) (now : Time) (w : Work Device) : Done Device :=
  match w.ctx.dstate with
  | .offline         => w.done
  | .polling         => tickPolling e now w
  | .awaitingReply   => awaiting e now w
  | .secureHandshake => tickHandshake e now w

/-- `desync(a)` (R192). -/
def desync (e : Env) (w : Work Device) : Work Device :=
  let w1 := w.note (.error e.id .desync)
  if w.ctx.resync then goOffline e .desync w1
  else
    { w1 with ctx := { w1.ctx with
        resync := true, seq := 0, slot := w1.ctx.slot.map fun sl => { sl with seq := 0 }, retxp := true } }

/-- `unexpected(a, code)` (R193). -/
def unexpected (e : Env) (code : ErrorCode) (w : Work Device) : Work Device :=
  let r := boundedRetry e (w.note (.error e.id code))
  if r.2 then { r.1 with ctx := { r.1.ctx with retxp := true } } else r.1

/-- `complete(a)` for the exchange whose command is in `sl` (R194). -/
def complete (e : Env) (sl : Slot) (w : Work Device) : Work Device :=
  let w1 := { w with ctx := { w.ctx with
      seq := nextSeq sl.seq, retry := 0, resync := false, retxp := false, slot := none, deadline := none,
      online := true } }
  if w.ctx.online then w1 else w1.note (.online e.id)

/-- `success(a, r, pay)` (R194). -/
def success (e : Env) (sl : Slot) (r : Byte) (pay : Bytes) (w : Work Device) : Work Device :=
  let w1 := (complete e sl w).note (.reply e.id r pay)
  { w1 with ctx := { w1.ctx with dstate := .polling } }

/-- `on_ccrypt(a, pay)` (R195). -/
def onCcrypt (e : Env) (sl : Slot) (pay : Bytes) (w : Work Device) : Done Device :=
  let r := scCpVerify e pay w.ctx.sc
  match r.out with
  | .ok _                             => (complete e sl (absorbSc w r)).done
  | .error (.raise .malformedPayload) => (unexpected e .malformedPayload (absorbSc w r)).done
  | .error (.raise err)               => (channelBroken e err ((absorbSc w r).note (.error e.id err))).done
  | .error st                         => (absorbSc w r).stopped st

/-- `on_scdone(a)` (R196). -/
def onScdone (e : Env) (sl : Slot) (w : Work Device) : Done Device :=
  let r := scCpFinish e w.ctx.sc
  match r.out with
  | .ok _ =>
    let w1 := complete e sl (absorbSc w r)
    { w1 with ctx := { w1.ctx with dstate := .polling } }.done
  | .error st => (absorbSc w r).stopped st

/-- `schema_ok(r, pay)` for the reply to the command in `sl` (R191 step 6). -/
def schemaOk (par : Params) (sl : Slot) (r : Byte) (pay : Bytes) : Bool :=
  if sl.type = par.tScrypt then pay.isEmpty
  else
    match regRpl par r with
    | some en => schemaAccepts en.schema pay
    | none    => true

/-- Steps 4 to 7 of `accept_reply`: sequence, type, schema, then the exchange (R191). -/
def acceptPlain (e : Env) (sl : Slot) (p : Packet) (pay : Bytes) (w : Work Device) : Done Device :=
  if p.sqn ≠ sl.seq then (desync e w).done
  else if !replyLegal e.par sl.type p.type then (unexpected e .unexpectedReply w).done
  else if sl.type ≠ e.par.tChlng ∧ !schemaOk e.par sl p.type pay then (unexpected e .malformedPayload w).done
  else if sl.type = e.par.tChlng then onCcrypt e sl pay w
  else if sl.type = e.par.tScrypt then onScdone e sl w
  else (success e sl p.type pay w).done

/-- `accept_reply(a, P)` (R191). -/
def acceptReply (e : Env) (p : Packet) (w : Work Device) : Done Device :=
  if p.devid ≠ e.id then w.done
  else
    match w.ctx.slot with
    | none => w.done
    | some sl =>
      if p.sec then
        let r := scUnwrap e p.payload w.ctx.sc
        match r.out with
        | .ok pay                         => acceptPlain e sl p pay (absorbSc w r)
        | .error (.raise .notEstablished) => ((absorbSc w r).note (.error e.id .notEstablished)).done
        | .error (.raise err)             => (channelBroken e err ((absorbSc w r).note (.error e.id err))).done
        | .error st                       => (absorbSc w r).stopped st
      else acceptPlain e sl p p.payload w

/-- One verdict of `DEV_RX` (R190). -/
def cpVerdict (e : Env) (v : Verdict) (w : Work Device) : Done Device :=
  match v with
  | .error err => (w.note (.error e.id err)).done
  | .packet p  => acceptReply e p w

/-- `DEV_RX a, chunk` on the device's context (R190). -/
def devRx (e : Env) (chunk : Bytes) (w : Work Device) : Done Device :=
  if w.ctx.dstate = .offline then w.done
  else
    let r := feed e.par w.ctx.rxbuf chunk
    eachVerdict (cpVerdict e) r.1 { w with ctx := { w.ctx with rxbuf := r.2 } }

/-- `DEV_START a` on the device's context (R183). -/
def devStart (e : Env) (w : Work Device) : Done Device :=
  if w.ctx.dstate ≠ .offline then w.stopped (.refuse .wrongState)
  else
    let w1 := cpScReset e w
    { w1 with ctx := { w1.ctx with
        dstate := .polling, seq := 0, retry := 0, resync := false, retxp := false, slot := none,
        deadline := none, rxbuf := [] } }.done

/-- `DEV_SC_START a` on the device's context (R185). -/
def devScStart (e : Env) (w : Work Device) : Done Device :=
  if w.ctx.dstate ≠ .polling then w.stopped (.refuse .wrongState)
  else if e.key = none then w.stopped (.raise .noKey)
  else
    let w1 := cpScReset e w
    { w1 with ctx := { w1.ctx with dstate := .secureHandshake, seq := 0 } }.done

/-- `DEV_SUBMIT a, t, p` on the device's context (R184). -/
def devSubmit (par : Params) (t : Byte) (p : Bytes) (d : Device) : Except RefusalCode Device :=
  if d.dstate = .offline then .error .wrongState
  else if t = par.tChlng ∨ t = par.tScrypt then .error .badOperand
  else
    match regCmd par t with
    | none => .error .badOperand
    | some en =>
      if !schemaAccepts en.schema p then .error .badOperand
      else if par.maxPayload < p.length then .error .invalidPacket
      else if d.cmdq.length = par.qdepth then .error .queueFull
      else .ok { d with cmdq := d.cmdq ++ [{ type := t, payload := p }] }

/-- The state after a procedure ran on device `i`. -/
def State.putWork (s : State) (i : DevId) (w : Work Device) : State :=
  (s.setDev i (some w.ctx)).setDrawn i w.draws

/-- End of an operation that ran a procedure on device `i` (R7). -/
def finishDev (s : State) (i : DevId) (r : Done Device) : Host.Outcome State Fault Refusal :=
  finish s (s.putWork i r.work) r.stop r.work.frames r.work.notes .none .none

/-- An operation on device `a` of a CP: the checks of R252, then the procedure on its context. -/
def onDevice (s : State) (a : Nat) (g : Env → Work Device → Done Device) : Host.Outcome State Fault Refusal :=
  match cpDevice s a with
  | .error r   => .next (s.refuse r)
  | .ok (i, d) => finishDev s i (g (s.cpEnv i) (Work.start d (s.drawn i)))

/-- DEV_REGISTER (R181). -/
def execDevRegister (a : Nat) (useCrc : Nat) (s : State) : Host.Outcome State Fault Refusal :=
  match cpId s a with
  | .error r => .next (s.refuse r)
  | .ok i =>
    if 1 < useCrc then .next (s.refuse .badOperand)
    else
      match s.dev i with
      | some _ => .next (s.refuse .alreadyRegistered)
      | none   => .next ((s.setDev i (some (Device.create (useCrc == 1)))).answer .ok .none)

/-- DEV_DEREGISTER (R182): silent; nothing of the context is left. -/
def execDevDeregister (a : Nat) (s : State) : Host.Outcome State Fault Refusal :=
  match cpDevice s a with
  | .error r   => .next (s.refuse r)
  | .ok (i, _) => .next ((s.setDev i none).answer .ok .none)

/-- DEV_START (R183). -/
def execDevStart (a : Nat) (s : State) : Host.Outcome State Fault Refusal := onDevice s a devStart

/-- DEV_SUBMIT (R184); a type code above 255 is out of range (log entry 14). -/
def execDevSubmit (a : Nat) (t : Nat) (p : Bytes) (s : State) : Host.Outcome State Fault Refusal :=
  match cpId s a with
  | .error r => .next (s.refuse r)
  | .ok i =>
    match codeOf t, s.dev i with
    | none, _        => .next (s.refuse .badOperand)
    | some _, none   => .next (s.refuse .noSuchDevice)
    | some c, some d =>
      match devSubmit s.par c p d with
      | .error r => .next (s.refuse r)
      | .ok d'   => .next ((s.setDev i (some d')).answer .ok .none)

/-- DEV_SC_START (R185). -/
def execDevScStart (a : Nat) (s : State) : Host.Outcome State Fault Refusal := onDevice s a devScStart

/-- DEV_TICK (R187). -/
def execDevTick (a : Nat) (now : Time) (s : State) : Host.Outcome State Fault Refusal :=
  onDevice s a fun e w => devTick e now w

/-- DEV_RX (R190). -/
def execDevRx (a : Nat) (chunk : Bytes) (s : State) : Host.Outcome State Fault Refusal :=
  onDevice s a fun e w => devRx e chunk w

end Sys2Proof.Machine
end

