-- ==== Sys2Proof/Machine/DevicePd.lean ====
section
/-! DEFINITION. DevicePd: the PD's device state machine (44_dsm_pd.md): `accept_command` and the handshake's PD half, and
the meanings of PD_RX and PD_REPLY. -/

namespace Sys2Proof.Machine

/-- Take over what a secure channel procedure did to the PD: its registers, its notes, its draw. -/
def absorbPdSc {α : Type} (w : Work Pdc) (r : ScDone α) : Work Pdc :=
  { w with ctx := { w.ctx with sc := r.sc }, draws := w.draws + r.drew.toNat, notes := w.notes ++ r.notes }

/-- Send a reply that carries the number `sqn` of the command it answers (R224 to R226): the frame goes out, `PSEQ`
advances past that number, and the PD waits for the next command. -/
def pdSend (e : Env) (sqn : Seq) (crc sec : Bool) (t : Byte) (wire : Bytes) (w : Work Pdc) : Done Pdc :=
  match encodePacket e.par (mkPacket e.id sqn crc sec t wire) with
  | .error r => w.stopped (.refuse r)
  | .ok f =>
    ({ w with ctx := { w.ctx with pseq := nextSeq sqn, pdstate := .repliedWaiting } }.emit f).done

/-- `on_chlng(P, pay)` (R224). -/
def onChlng (e : Env) (p : Packet) (pay : Bytes) (w : Work Pdc) : Done Pdc :=
  let r := scPdChallenge e (drawBytes e.id e.par.chalLen w.draws) pay w.ctx.sc
  match r.out with
  | .ok value           => pdSend e p.sqn p.crc false e.par.tCcrypt value (absorbPdSc w r)
  | .error (.raise err) => ((absorbPdSc w r).note (.pdError err)).done
  | .error st           => (absorbPdSc w r).stopped st

/-- `on_scrypt(P, pay)` (R225). -/
def onScrypt (e : Env) (p : Packet) (pay : Bytes) (w : Work Pdc) : Done Pdc :=
  let r := scPdVerify e pay w.ctx.sc
  match r.out with
  | .ok _               => pdSend e p.sqn p.crc false e.par.tScdone [] (absorbPdSc w r)
  | .error (.raise err) => ((absorbPdSc w r).note (.pdError err)).done
  | .error st           => (absorbPdSc w r).stopped st

/-- Steps 4 and 5 of `accept_command`: sequence, then type (R222). -/
def commandPlain (e : Env) (p : Packet) (pay : Bytes) (w : Work Pdc) : Done Pdc :=
  if !seqValid p.sqn w.ctx.pseq then w.done
  else if p.type = e.par.tChlng then onChlng e p pay w
  else if p.type = e.par.tScrypt then onScrypt e p pay w
  else
    ({ w with ctx := { w.ctx with
        cur := some { type := p.type, seq := p.sqn, sec := p.sec, crc := p.crc },
        pdstate := .processingCommand } }.note (.command p.type pay)).done

/-- `accept_command(P)` (R222). -/
def acceptCommand (e : Env) (p : Packet) (w : Work Pdc) : Done Pdc :=
  if p.devid ≠ e.id then w.done
  else if w.ctx.pdstate = .processingCommand then w.done
  else if p.sec then
    let r := scUnwrap e p.payload w.ctx.sc
    match r.out with
    | .ok pay             => commandPlain e p pay (absorbPdSc w r)
    | .error (.raise err) => ((absorbPdSc w r).note (.pdError err)).done
    | .error st           => (absorbPdSc w r).stopped st
  else commandPlain e p p.payload w

/-- One verdict of `PD_RX` (R221). -/
def pdVerdict (e : Env) (v : Verdict) (w : Work Pdc) : Done Pdc :=
  match v with
  | .error err => (w.note (.pdError err)).done
  | .packet p  => acceptCommand e p w

/-- `PD_RX chunk` on the PD's context (R221). -/
def pdRx (e : Env) (chunk : Bytes) (w : Work Pdc) : Done Pdc :=
  let r := feed e.par w.ctx.rxbuf chunk
  eachVerdict (pdVerdict e) r.1 { w with ctx := { w.ctx with rxbuf := r.2 } }

/-- The registry allows reply `t` to the command being answered (R226): any reply when the command is unknown. -/
def replyAllowed (par : Params) (cmd t : Byte) : Bool :=
  match regCmd par cmd with
  | some en => en.replies.contains t
  | none    => true

/-- `PD_REPLY t, p` on the PD's context (R226). An error of SC_WRAP ends it with that status (R298) and its `Error` note
(R152, R251): DEDUCED (log entry 29). -/
def pdReply (e : Env) (t : Byte) (p : Bytes) (w : Work Pdc) : Done Pdc :=
  if w.ctx.pdstate ≠ .processingCommand then w.stopped (.refuse .wrongState)
  else
    match w.ctx.cur with
    | none => w.stopped (.fault .curUnspecified)
    | some c =>
      if !replyAllowed e.par c.type t then w.stopped (.refuse .replyNotAllowed)
      else if e.par.maxPayload < p.length then w.stopped (.refuse .invalidPacket)
      else
        match wirePayload e.par w.ctx.sc c.sec p with
        | .error st => w.stoppedNoting .pdError st
        | .ok wire =>
          (pdSend e c.seq c.crc c.sec t wire w).andThen fun w1 =>
            { w1 with ctx := { w1.ctx with cur := none } }.done

/-- End of an operation that ran a procedure on the PD's context (R7). -/
def finishPd (s : State) (r : Done Pdc) : Host.Outcome State Fault Refusal :=
  finish s ({ s with pdc := r.work.ctx }.setDrawn s.par.myAddr r.work.draws) r.stop r.work.frames r.work.notes .none .none

/-- An operation on the PD's context: the role check of R252, then the procedure. -/
def onPd (s : State) (g : Env → Work Pdc → Done Pdc) : Host.Outcome State Fault Refusal :=
  match requirePd s with
  | .error r => .next (s.refuse r)
  | .ok ()   => finishPd s (g s.pdEnv (Work.start s.pdc (s.drawn s.par.myAddr)))

/-- PD_RX (R221). -/
def execPdRx (chunk : Bytes) (s : State) : Host.Outcome State Fault Refusal :=
  onPd s fun e w => pdRx e chunk w

/-- PD_REPLY (R226): the role, then the range of the reply code (R252, log entry 14), then R226's own lines. -/
def execPdReply (t : Nat) (p : Bytes) (s : State) : Host.Outcome State Fault Refusal :=
  onPd s fun e w =>
    match codeOf t with
    | none   => w.stopped (.refuse .badOperand)
    | some c => pdReply e c p w

end Sys2Proof.Machine
end

