-- ==== Sys2Proof/Machine/BusMux.lean ====
section
/-! DEFINITION. BusMux: the bus multiplexer (45_bus_mux.md): whom a tick serves, and the meanings of MUX_TICK and
MUX_RX. -/

namespace Sys2Proof.Machine

/-- The device ids in increasing order. -/
def allIds : List DevId := (List.range 128).map (BitVec.ofNat 7)

/-- `DC[b].VALID = 1 and DC[b].SLOT.VALID = 1` (R241). -/
def busy (s : State) (b : DevId) : Bool :=
  match s.dev b with
  | some d => d.slot.isSome
  | none   => false

/-- `min(B)`, the lowest busy device (R241). -/
def lowestBusy (s : State) : Option DevId := allIds.find? (busy s)

/-- The device's state takes part in the round robin and its interval has elapsed (R241). -/
def eligible (s : State) (now : Time) (a : DevId) : Bool :=
  match s.dev a with
  | some d => (d.dstate == .polling || d.dstate == .secureHandshake) && pollDue s.par d.lastpoll now
  | none   => false

/-- The ids in scan order, `RRPTR + 1` first, `RRPTR` itself last, modulo 128 (R241). -/
def scanOrder (rrptr : DevId) : List DevId := (List.range 128).map fun k => rrptr + BitVec.ofNat 7 (k + 1)

/-- The first eligible device in scan order (R241). -/
def nextEligible (s : State) (now : Time) : Option DevId := (scanOrder s.mux.rrptr).find? (eligible s now)

/-- The multiplexer after serving: `RRPTR` as given, `LASTTX` moved when a frame went out (R241). -/
def muxAfter (s : State) (rrptr : DevId) (now : Time) (frames : List Bytes) : Mux :=
  { rrptr := rrptr, lasttx := if frames = [] then s.mux.lasttx else some now }

/-- Serve device `a`: its `DEV_TICK` result, with `value = a` (R241). -/
def serve (s : State) (a : DevId) (d : Device) (rrptr : DevId) (now : Time) : Host.Outcome State Fault Refusal :=
  let r := devTick (s.cpEnv a) now (Work.start d (s.drawn a))
  finish s { s.putWork a r.work with mux := muxAfter s rrptr now r.work.frames } r.stop r.work.frames r.work.notes
    (.served (some a)) (.served (some a))

/-- A tick that serves nobody (R241). -/
def serveNone (s : State) : Host.Outcome State Fault Refusal := .next (s.answer .ok (.served none))

/-- The busy branch of R241: the lowest busy device, when its retransmission is pending or its deadline has passed. -/
def muxBusy (s : State) (b : DevId) (now : Time) : Host.Outcome State Fault Refusal :=
  match s.dev b with
  | some d =>
    if (d.retxp || deadlinePassed d.deadline now) && gapOk s.par s.mux.lasttx now then serve s b d s.mux.rrptr now
    else serveNone s
  | none => serveNone s

/-- The round-robin branch of R241. -/
def muxScan (s : State) (now : Time) : Host.Outcome State Fault Refusal :=
  if gapOk s.par s.mux.lasttx now then
    match nextEligible s now with
    | some a =>
      match s.dev a with
      | some d => serve s a d a now
      | none   => serveNone s
    | none => serveNone s
  else serveNone s

/-- MUX_TICK (R241). -/
def execMuxTick (now : Time) (s : State) : Host.Outcome State Fault Refusal :=
  match requireCp s with
  | .error r => .next (s.refuse r)
  | .ok () =>
    match lowestBusy s with
    | some b => muxBusy s b now
    | none   => muxScan s now

/-- Bytes routed to device `a`'s receive procedure (R242): the range check, bytes for an unregistered id discarded,
else the procedure. -/
def muxRoute (s : State) (a : Nat) (g : Env → Work Device → Done Device) : Host.Outcome State Fault Refusal :=
  match cpId s a with
  | .error r => .next (s.refuse r)
  | .ok i =>
    match s.dev i with
    | none   => .next (s.answer .ok .none)
    | some d => finishDev s i (g (s.cpEnv i) (Work.start d (s.drawn i)))

/-- MUX_RX (R242). -/
def execMuxRx (a : Nat) (chunk : Bytes) (s : State) : Host.Outcome State Fault Refusal :=
  muxRoute s a fun e w => devRx e chunk w

end Sys2Proof.Machine
end

