-- ==== Sys2Proof/Machine/Wire.lean ====
section
/-! DEFINITION. Wire: a delivered frame of each format (R90, log entry 8), a delivered packet of each engine-known type
(R100, log entry 9), RESET (R290), and every other op-select code (R96). -/

namespace Sys2Proof.Machine

/-- Bytes handed to the block's receive entry (R5, R8): `MUX_RX` for the device the host names on a CP, `PD_RX` on a
PD. -/
def deliver (a : Nat) (bytes : Bytes) (s : State) : Host.Outcome State Fault Refusal :=
  match s.par.role with
  | .cp => muxRoute s a fun e w => devRx e bytes w
  | .pd => onPd s fun e w => pdRx e bytes w

/-- FRAME_SK: a frame with a one-byte length and a checksum arrives (R90). -/
def execFrameSk (a : Nat) (f : FrameBody) (check : Byte) (s : State) : Host.Outcome State Fault Refusal :=
  deliver a (frameBytes false false f ++ [check]) s

/-- FRAME_SC: a frame with a one-byte length and a CRC arrives (R90). -/
def execFrameSc (a : Nat) (f : FrameBody) (check : BitVec 16) (s : State) : Host.Outcome State Fault Refusal :=
  deliver a (frameBytes false true f ++ le16 check) s

/-- FRAME_LK: a frame with a two-byte length and a checksum arrives (R90). -/
def execFrameLk (a : Nat) (f : FrameBody) (check : Byte) (s : State) : Host.Outcome State Fault Refusal :=
  deliver a (frameBytes true false f ++ [check]) s

/-- FRAME_LC: a frame with a two-byte length and a CRC arrives (R90). -/
def execFrameLc (a : Nat) (f : FrameBody) (check : BitVec 16) (s : State) : Host.Outcome State Fault Refusal :=
  deliver a (frameBytes true true f ++ le16 check) s

/-- The packet a message stands for, given its type code; `mbl` as `mk_packet` sets it (R99, R100). -/
def messagePacket (t : Byte) (m : Message) : Packet := mkPacket m.devid m.sqn m.crc m.sec t m.payload

/-- A packet given to a CP's device as `DEV_RX` gives it one the framer decoded: ignored in `Offline` (R190, R191). -/
def cpPacket (e : Env) (p : Packet) (w : Work Device) : Done Device :=
  if w.ctx.dstate = .offline then w.done else acceptReply e p w

/-- A packet given to the state machine of the role: `accept_reply` of the named device on a CP (R191), and
`accept_command` on a PD (R222). DESIGN CHOICE (log entry 9): a message whose payload is longer than `MAX_PAYLOAD`, which no
frame can carry (R111 step 3), is taken like any other. -/
def deliverMessage (a : Nat) (t : Byte) (m : Message) (s : State) : Host.Outcome State Fault Refusal :=
  match s.par.role with
  | .cp => muxRoute s a fun e w => cpPacket e (messagePacket t m) w
  | .pd => onPd s fun e w => acceptCommand e (messagePacket t m) w

/-- T_POLL: a keep-alive poll arrives (R100, R222). -/
def execTPoll (a : Nat) (m : Message) (s : State) : Host.Outcome State Fault Refusal :=
  deliverMessage a s.par.tPoll m s

/-- T_CHLNG: a challenge arrives (R100, R224). -/
def execTChlng (a : Nat) (m : Message) (s : State) : Host.Outcome State Fault Refusal :=
  deliverMessage a s.par.tChlng m s

/-- T_CCRYPT: the PD's challenge and cryptogram arrive (R100, R195). -/
def execTCcrypt (a : Nat) (m : Message) (s : State) : Host.Outcome State Fault Refusal :=
  deliverMessage a s.par.tCcrypt m s

/-- T_SCRYPT: the confirmation cryptogram arrives (R100, R225). -/
def execTScrypt (a : Nat) (m : Message) (s : State) : Host.Outcome State Fault Refusal :=
  deliverMessage a s.par.tScrypt m s

/-- T_SCDONE: the PD's acceptance arrives (R100, R196). -/
def execTScdone (a : Nat) (m : Message) (s : State) : Host.Outcome State Fault Refusal :=
  deliverMessage a s.par.tScdone m s

/-- RESET (R290, R291): the straps are sampled and every register takes its reset value; silent, status `OK` always.
The host's own things stay: its straps, its keys, the operations it has presented, and the counts of the draws taken. -/
def execReset (s : State) : Host.Outcome State Fault Refusal :=
  .next ({ State.resetWith s.straps with keystore := s.keystore, draws := s.draws, inbox := s.inbox }.answer .ok .none)

/-- Every other op-select code: `Refused(BadOperand)`, no state change, in either role (R96, R252). -/
def execOtherOp (_code : Byte) (s : State) : Host.Outcome State Fault Refusal := .next (s.refuse .badOperand)

end Sys2Proof.Machine
end

