-- ==== Sys2Proof/Machine/Dispatch.lean ====
section
/-! DEFINITION. Dispatch: one arm per instruction, each a direct call of its meaning. -/

namespace Sys2Proof.Machine

def exec (i : Instr) (s : State) : Host.Outcome State Fault Refusal :=
  match i with
  | .wfEncode p => Sys2Proof.Machine.execWfEncode p s
  | .wfDecode b => Sys2Proof.Machine.execWfDecode b s
  | .wfFeed a chunk => Sys2Proof.Machine.execWfFeed a chunk s
  | .wfFlush a => Sys2Proof.Machine.execWfFlush a s
  | .scReset a => Sys2Proof.Machine.execScReset a s
  | .scCpBegin a => Sys2Proof.Machine.execScCpBegin a s
  | .scCpVerify a payload => Sys2Proof.Machine.execScCpVerify a payload s
  | .scCpConfirm a => Sys2Proof.Machine.execScCpConfirm a s
  | .scCpFinish a => Sys2Proof.Machine.execScCpFinish a s
  | .scPdChallenge payload => Sys2Proof.Machine.execScPdChallenge payload s
  | .scPdVerify payload => Sys2Proof.Machine.execScPdVerify payload s
  | .scWrap a p => Sys2Proof.Machine.execScWrap a p s
  | .scUnwrap a w => Sys2Proof.Machine.execScUnwrap a w s
  | .regLookupCmd t => Sys2Proof.Machine.execRegLookupCmd t s
  | .regLookupRpl t => Sys2Proof.Machine.execRegLookupRpl t s
  | .devRegister a useCrc => Sys2Proof.Machine.execDevRegister a useCrc s
  | .devDeregister a => Sys2Proof.Machine.execDevDeregister a s
  | .devStart a => Sys2Proof.Machine.execDevStart a s
  | .devSubmit a t p => Sys2Proof.Machine.execDevSubmit a t p s
  | .devScStart a => Sys2Proof.Machine.execDevScStart a s
  | .devTick a now => Sys2Proof.Machine.execDevTick a now s
  | .devRx a chunk => Sys2Proof.Machine.execDevRx a chunk s
  | .pdRx chunk => Sys2Proof.Machine.execPdRx chunk s
  | .pdReply t p => Sys2Proof.Machine.execPdReply t p s
  | .muxTick now => Sys2Proof.Machine.execMuxTick now s
  | .muxRx a chunk => Sys2Proof.Machine.execMuxRx a chunk s
  | .reset => Sys2Proof.Machine.execReset s
  | .frameSk a f check => Sys2Proof.Machine.execFrameSk a f check s
  | .frameSc a f check => Sys2Proof.Machine.execFrameSc a f check s
  | .frameLk a f check => Sys2Proof.Machine.execFrameLk a f check s
  | .frameLc a f check => Sys2Proof.Machine.execFrameLc a f check s
  | .tPoll a m => Sys2Proof.Machine.execTPoll a m s
  | .tChlng a m => Sys2Proof.Machine.execTChlng a m s
  | .tCcrypt a m => Sys2Proof.Machine.execTCcrypt a m s
  | .tScrypt a m => Sys2Proof.Machine.execTScrypt a m s
  | .tScdone a m => Sys2Proof.Machine.execTScdone a m s
  | .otherOp code => Sys2Proof.Machine.execOtherOp code s

end Sys2Proof.Machine
end

