-- ==== Sys2Proof/Machine/Step.lean ====
section
/-! DEFINITION. Step: the block takes the oldest operation presented to it and performs it whole (R7, R66). -/

namespace Sys2Proof.Machine

/-- One step. With nothing presented the block does nothing at all (R269). A request that is no instruction, and an
instruction whose parameters are outside R9's constraints, are refused by name (U21, log entries 17 and 25). -/
def step (s : State) : Host.Outcome State Fault Refusal :=
  match s.inbox with
  | [] => .next s
  | q :: rest =>
    match decode q with
    | .error e => .refused (.badRequest e)
    | .ok i    =>
      if s.configOk (s.parFor i) then exec i { s with inbox := rest } else .refused .invalidConfiguration

/-- `s` with the instruction of a table row's word presented to it as the next operation (log entry 20). -/
def State.withFetchWord (s : State) (nbits w : Nat) : State :=
  { s with inbox := tableRequest nbits w :: s.inbox }

end Sys2Proof.Machine
end

