-- ==== Sys2Proof/Safety.lean ====
section
/-! DEFINITION. Safety: what counts as a good state (the invariants of R33 and R29, in the form every step keeps), which
contexts an instruction may touch (R6, R257), and small vocabulary for the statements. -/

namespace Sys2Proof.Machine

/-- The key material of a CP's channel agrees with its state (R33, last two bullets; `RND_PD` comes with the keys). -/
def ScInvCp (sc : Sc) : Prop :=
  (sc.rndCp.isSome = true ↔ sc.state ≠ .idle ∧ sc.state ≠ .broken) ∧
  (sc.rndPd.isSome = true ↔ sc.state = .challengeReceived ∨ sc.state = .established) ∧
  (sc.sEnc.isSome = true ↔ sc.state = .challengeReceived ∨ sc.state = .established) ∧
  (sc.sMac.isSome = true ↔ sc.state = .challengeReceived ∨ sc.state = .established)

/-- The key material of a PD's channel agrees with its state (R33); a PD is never left in `ChallengeReceived` (R147). -/
def ScInvPd (sc : Sc) : Prop :=
  sc.state ≠ .challengeReceived ∧
  (sc.rndCp.isSome = true ↔ sc.state = .challengeSent ∨ sc.state = .established) ∧
  (sc.rndPd.isSome = true ↔ sc.state = .challengeSent ∨ sc.state = .established) ∧
  (sc.sEnc.isSome = true ↔ sc.state = .challengeSent ∨ sc.state = .established) ∧
  (sc.sMac.isSome = true ↔ sc.state = .challengeSent ∨ sc.state = .established)

/-- An accumulator holds the beginning of a frame and no whole one (R29, R113): its verdict is still `Truncated`. -/
def Pending (par : Params) (rx : Bytes) : Prop := verdict par rx false = .error .truncated

/-- What holds of a CP device context whatever operations the host mixes: the bullets of R33 less what R298 excepts, and
that no ordinary or queued command is a handshake command (R184). -/
def DeviceInv (par : Params) (d : Device) : Prop :=
  ScInvCp d.sc ∧
  (d.slot.isSome = d.deadline.isSome) ∧
  (d.retxp = true → d.slot.isSome = true) ∧
  (d.dstate = .awaitingReply → d.slot.isSome = true) ∧
  (d.dstate = .awaitingReply → ∀ sl, d.slot = some sl → sl.type ≠ par.tChlng ∧ sl.type ≠ par.tScrypt) ∧
  (∀ c ∈ d.cmdq, c.type ≠ par.tChlng ∧ c.type ≠ par.tScrypt) ∧
  (d.dstate = .offline ∨ d.dstate = .polling → d.slot = none) ∧
  (d.dstate = .offline → d.cmdq = [] ∧ d.online = false) ∧
  (d.dstate ≠ .offline → d.retry < par.retryMax) ∧
  d.cmdq.length ≤ par.qdepth ∧
  Pending par d.rxbuf

/-- What holds of the PD context whatever operations the host mixes. -/
def PdcInv (par : Params) (p : Pdc) : Prop :=
  ScInvPd p.sc ∧ (p.pdstate = .processingCommand ↔ p.cur.isSome = true) ∧ Pending par p.rxbuf

/-- The invariant of the machine: every context is good, and the half of the other role is untouched (R20). -/
def State.Inv (s : State) : Prop :=
  (∀ i d, s.dev i = some d → DeviceInv s.par d) ∧ PdcInv s.par s.pdc ∧
  (s.par.role = .cp → s.pdc = Pdc.init) ∧
  (s.par.role = .pd → (∀ i, s.dev i = none) ∧ s.mux = Mux.init)

/-- The bullets of R33 on one CP context, with what makes them inductive: which slot goes with which channel state
during a handshake, that queued and ordinary commands are no handshake commands, and that a secure slot means an
established channel (R186). -/
def DeviceCoherent (par : Params) (d : Device) : Prop :=
  (d.dstate = .offline → d.slot = none ∧ d.retxp = false ∧ d.cmdq = [] ∧ d.sc = Sc.init ∧ d.online = false ∧
    d.rxbuf = [] ∧ d.deadline = none) ∧
  (d.dstate = .polling → d.slot = none ∧ d.retxp = false ∧ (d.sc.state = .idle ∨ d.sc.state = .established)) ∧
  (d.dstate = .awaitingReply → d.slot.isSome = true ∧ d.deadline.isSome = true ∧
    (d.sc.state = .idle ∨ d.sc.state = .established)) ∧
  (d.dstate = .awaitingReply → ∀ sl, d.slot = some sl → sl.type ≠ par.tChlng ∧ sl.type ≠ par.tScrypt) ∧
  (d.dstate = .secureHandshake → ∀ sl, d.slot = some sl → sl.sec = false ∧
    ((sl.type = par.tChlng ∧ d.sc.state = .challengeSent) ∨
     (sl.type = par.tScrypt ∧ d.sc.state = .challengeReceived))) ∧
  (d.dstate = .secureHandshake → d.slot = none →
    d.sc.state = .idle ∨ d.sc.state = .broken ∨ d.sc.state = .challengeReceived) ∧
  (d.retxp = true → d.slot.isSome = true) ∧
  (d.dstate ≠ .offline → d.retry < par.retryMax) ∧
  ScInvCp d.sc ∧
  (∀ sl, d.slot = some sl → sl.sec = true → d.sc.state = .established) ∧
  (∀ c ∈ d.cmdq, c.type ≠ par.tChlng ∧ c.type ≠ par.tScrypt)

/-- The operations R298 tells a host not to mix with the state machine's own: WF_FEED and the SC operations. -/
def isUnitOp : Instr → Bool
  | .wfFeed _ _ | .scReset _ | .scCpBegin _ | .scCpVerify _ _ | .scCpConfirm _ | .scCpFinish _ | .scPdChallenge _
  | .scPdVerify _ | .scWrap _ _ | .scUnwrap _ _ => true
  | _ => false

/-- The operations only a CP may invoke (R96). -/
def cpOnly : Instr → Bool
  | .scCpBegin _ | .scCpVerify _ _ | .scCpConfirm _ | .scCpFinish _ | .devRegister _ _ | .devDeregister _ | .devStart _
  | .devSubmit _ _ _ | .devScStart _ | .devTick _ _ | .devRx _ _ | .muxTick _ | .muxRx _ _ => true
  | _ => false

/-- The operations only a PD may invoke (R96). -/
def pdOnly : Instr → Bool
  | .scPdChallenge _ | .scPdVerify _ | .pdRx _ | .pdReply _ _ => true
  | _ => false

/-- The operations that name the device they act on, need it registered, and have no other operand with a range: all CP
forms but DEV_REGISTER, DEV_SUBMIT and MUX_RX (R252, `NoSuchDevice`). -/
def namedDevice : Instr → Option Nat
  | .wfFeed a _ | .wfFlush a | .scReset a | .scCpBegin a | .scCpVerify a _ | .scCpConfirm a | .scCpFinish a
  | .scWrap a _ | .scUnwrap a _ | .devDeregister a | .devStart a | .devScStart a | .devTick a _ | .devRx a _ => some a
  | _ => none

/-- The one device whose context an instruction may change: the one its operand names, or for MUX_TICK the one R241 serves
(R6, R257). -/
def touched (s : State) : Instr → Option DevId
  | .wfFeed a _ | .wfFlush a | .scReset a | .scCpBegin a | .scCpVerify a _ | .scCpConfirm a | .scCpFinish a
  | .scWrap a _ | .scUnwrap a _ | .devRegister a _ | .devDeregister a | .devStart a | .devSubmit a _ _ | .devScStart a
  | .devTick a _ | .devRx a _ | .muxRx a _ | .frameSk a _ _ | .frameSc a _ _ | .frameLk a _ _ | .frameLc a _ _
  | .tPoll a _ | .tChlng a _ | .tCcrypt a _ | .tScrypt a _ | .tScdone a _ => devIdOf a
  | .muxTick now =>
    match lowestBusy s with
    | some b => some b
    | none   => nextEligible s now
  | .wfEncode _ | .wfDecode _ | .scPdChallenge _ | .scPdVerify _ | .regLookupCmd _ | .regLookupRpl _ | .pdRx _
  | .pdReply _ _ | .reset | .otherOp _ => none

/-- The payloads of the good packets among these verdicts. -/
def payloadsOf (vs : List Verdict) : List Bytes :=
  vs.filterMap fun v =>
    match v with
    | .packet p => some p.payload
    | .error _  => none

/-- The payloads an instruction brings before a receiver whose accumulator holds `rx`: the operand of a verifying
operation, the payloads of the packets that the bytes received complete, or the payload of a delivered packet. -/
def presented (par : Params) (rx : Bytes) : Instr → List Bytes
  | .scCpVerify _ p | .scPdVerify p => [p]
  | .devRx _ c | .muxRx _ c | .pdRx c => payloadsOf (feed par rx c).1
  | .frameSk _ f k => payloadsOf (feed par rx (frameBytes false false f ++ [k])).1
  | .frameSc _ f k => payloadsOf (feed par rx (frameBytes false true f ++ le16 k)).1
  | .frameLk _ f k => payloadsOf (feed par rx (frameBytes true false f ++ [k])).1
  | .frameLc _ f k => payloadsOf (feed par rx (frameBytes true true f ++ le16 k)).1
  | .tPoll _ m | .tChlng _ m | .tCcrypt _ m | .tScrypt _ m | .tScdone _ m => [m.payload]
  | .wfEncode _ | .wfDecode _ | .wfFeed _ _ | .wfFlush _ | .scReset _ | .scCpBegin _ | .scCpConfirm _ | .scCpFinish _
  | .scPdChallenge _ | .scWrap _ _ | .scUnwrap _ _ | .regLookupCmd _ | .regLookupRpl _ | .devRegister _ _
  | .devDeregister _ | .devStart _ | .devSubmit _ _ _ | .devScStart _ | .devTick _ _ | .pdReply _ _ | .muxTick _
  | .reset | .otherOp _ => []

/-- Feeding a list of chunks one after another: all verdicts in order, and the accumulator left (R66, R113). -/
def feedAll (par : Params) : Bytes → List Bytes → List Verdict × Bytes
  | rx, []      => ([], rx)
  | rx, c :: cs => ((feed par rx c).1 ++ (feedAll par (feed par rx c).2 cs).1, (feedAll par (feed par rx c).2 cs).2)

/-- What goes on the wire for a plaintext `p`: `p` itself, or for a secure frame ciphertext and tag under the keys of an
established channel (R150, R186, R226). -/
def Seals (par : Params) (sc : Sc) (sec : Bool) (p wire : Bytes) : Prop :=
  (sec = false ∧ wire = p) ∨
  (sec = true ∧ sc.state = .established ∧ ∃ ke km, sc.sEnc = some ke ∧ sc.sMac = some km ∧
    wire = enc par ke p ++ mac par km (enc par ke p))

/-- What a wire payload stands for: itself, or for a secure frame the decryption of a ciphertext whose tag is right under
the keys of an established channel (R151, R191, R222). -/
def Opens (par : Params) (sc : Sc) (sec : Bool) (wire p : Bytes) : Prop :=
  (sec = false ∧ p = wire) ∨
  (sec = true ∧ sc.state = .established ∧ ∃ ke km c, sc.sEnc = some ke ∧ sc.sMac = some km ∧
    wire = c ++ mac par km c ∧ p = dec par ke c)

/-- The record of an operation that came to its last line with nothing to return. -/
def State.finished (s : State) (frames : List Bytes) (notes : List Note) : State :=
  { s with result := some { status := .ok, frames := frames, notes := notes, value := .none } }

/-- Ticks of one device at these times, one after another; the notes of all results in order. -/
def ticks (a : Nat) : List Time → State → Option (State × List Note)
  | [], s => some (s, [])
  | now :: rest, s =>
    match exec (.devTick a now) s with
    | .next t =>
      match ticks a rest t with
      | some r => some (r.1, (match t.result with | some res => res.notes | none => []) ++ r.2)
      | none   => none
    | _ => none

end Sys2Proof.Machine
end

