-- ==== Sys2Proof/Certificates/Slice0/Obligations.lean ====
section
/-! DEFINITION. Obligations: what the provers are asked to prove of the model, grouped as spec/ is. No statement rests on
a value of an opaque constant of Config; a draw appears as "some bytes of that length" (log entry 4). Where a statement
rests on a choice of the model its docstring names the log entry. -/

open Sys2Proof Sys2Proof.Machine

/-! ## Requests, decoding, the step -/

/-- What the host presents for a well-formed instruction decodes to exactly that instruction: every operand of every
operation (log entry 6), every field of every frame format (R90), every message. -/
def Obligations.DecodeOfEncodeIsIdentity : Prop :=
  ∀ i : Instr, i.wf = true → decode (encode i) = .ok i

/-- Words written out from R96 and R90 decode to the instructions they stand for. -/
def Obligations.SpecWordsDecode : Prop :=
  decodeTableWord 8 0x35 = some (.devTick 0 0) ∧
  decodeTableWord 8 0x18 = some (.scUnwrap 0 []) ∧
  decodeTableWord 8 0x7F = some .reset ∧
  decodeTableWord 8 0x05 = some (.otherOp 0x05) ∧
  decode (.frame 1 [0x01, 0x00, 0xF4, 0x60, 0x07, 0xCB]) =
    .ok (.frameSc 1 { devid := 1, rsv := 0xF, sec := false, sqn := 0, type := 0x60, payload := [] } 0xCB07) ∧
  decode (.frame 0 [0xFF, 0x03, 0x00, 0x0F, 0x6A, 0x01, 0x02, 0x03, 0x45, 0x98]) =
    .ok (.frameLc 0 { devid := 0x7F, rsv := 0, sec := true, sqn := 3, type := 0x6A, payload := [1, 2, 3] } 0x9845)

/-- An op-select code that is none of R96's 27 decodes to the row of all other codes, whose meaning is the refusal
`BadOperand` and nothing else. -/
def Obligations.UnknownOpSelectIsRefused : Prop :=
  ∀ (s : State) (r : OpRequest), opSelectCodes.contains r.code = false →
    decode (.op r) = .ok (.otherOp r.code) ∧
    exec (.otherOp r.code) s =
      .next { s with result := some { status := .refused .badOperand, frames := [], notes := [], value := .none } }

/-- A step performs the oldest presented instruction and takes it off the port (log entry 6); a block to which nothing
is presented does nothing at all (R269); bytes that are no whole frame are refused (log entry 25), and so is an
instruction under a configuration outside R9's constraints (U21, log entry 17), a key of another length than `KEY_LEN`
among them. The configuration is the sampled one, but for RESET the one it samples (R290). -/
def Obligations.StepRunsTheDecodedInstruction : Prop :=
  ∀ s : State,
    (s.inbox = [] → step s = .next s) ∧
    (∀ q rest i, s.inbox = q :: rest → decode q = .ok i → s.configOk (s.parFor i) = true →
      step s = exec i { s with inbox := rest }) ∧
    (∀ q rest e, s.inbox = q :: rest → decode q = .error e → step s = .refused (.badRequest e)) ∧
    (∀ q rest i, s.inbox = q :: rest → decode q = .ok i → s.configOk (s.parFor i) = false →
      step s = .refused .invalidConfiguration) ∧
    (s.parFor .reset = s.straps ∧ ∀ i, i ≠ .reset → s.parFor i = s.par) ∧
    (∀ a k par, s.key a = some k → k.length ≠ par.keyLen → s.configOk par = false)

/-! ## Wire framer (40_wire_codec.md) -/

/-- R110: WF_ENCODE of a constructible and valid packet returns the frame laid out byte by byte; any other packet is
refused `InvalidPacket`; no register changes either way (R14). -/
def Obligations.EncodeLaysOutTheFrame : Prop :=
  (∀ r : OpRequest, r.code = 0x01 → decode (.op r) = .ok (.wfEncode r.pkt)) ∧
  ∀ (s : State) (p : RawPacket), s.par.maxPayload ≤ 65535 →
    let n := p.payload.length
    let body : Bytes :=
      [BitVec.ofNat 8 (p.mbl * 128 + p.devid)]
      ++ (if p.mbl = 0 then [BitVec.ofNat 8 n] else [BitVec.ofNat 8 (n % 256), BitVec.ofNat 8 (n / 256)])
      ++ [BitVec.ofNat 8 (p.sec * 8 + p.crc * 4 + p.sqn), BitVec.ofNat 8 p.type] ++ p.payload
    let c := (crc16 s.par.crcPoly s.par.crcInit body).toNat
    let check : Bytes :=
      if p.crc = 0 then [cksum8 s.par.cksumMode body] else [BitVec.ofNat 8 (c % 256), BitVec.ofNat 8 (c / 256)]
    exec (.wfEncode p) s =
      .next { s with
        result := some
          (if p.devid ≤ 127 ∧ p.sqn ≤ 3 ∧ p.crc ≤ 1 ∧ p.sec ≤ 1 ∧ p.mbl ≤ 1 ∧ p.type ≤ 255 ∧
              n ≤ s.par.maxPayload ∧ (p.mbl = 0 → n ≤ 255) then
            { status := .ok, frames := [], notes := [], value := .bytes (body ++ check) }
          else { status := .refused .invalidPacket, frames := [], notes := [], value := .none }) }

/-- R115: decoding the encoding of a constructible packet gives the packet back, and feeding it to an empty accumulator
in any split into chunks yields exactly that packet and leaves the accumulator empty. -/
def Obligations.FrameRoundTrip : Prop :=
  ∀ (s : State) (p : RawPacket) (q : Packet),
    s.par.maxPayload ≤ 65535 → toPacket? p = some q → packetValid s.par q = true →
    ∃ f : Bytes,
      exec (.wfEncode p) s =
        .next { s with result := some { status := .ok, frames := [], notes := [], value := .bytes f } } ∧
      (∀ t : State, t.par = s.par → exec (.wfDecode f) t =
        .next { t with result := some { status := .ok, frames := [], notes := [], value := .packet q } }) ∧
      (∀ chunks : List Bytes, chunks.flatten = f → feedAll s.par [] chunks = ([.packet q], []))

/-- What is no good frame is rejected by WF_DECODE: a proper beginning of a good frame is `Truncated`, a good frame with
bytes after it `LengthMismatch`, and one whose check bytes alone are changed `ChecksumInvalid` (R111, R112, R116). -/
def Obligations.BrokenFramesAreRejected : Prop :=
  ∀ (s : State) (q : Packet), s.par.maxPayload ≤ 65535 → packetValid s.par q = true →
    let ends (e : ErrorCode) : Host.Outcome State Fault Refusal :=
      .next { s with result := some { status := .error e, frames := [], notes := [], value := .none } }
    let body := frameBytes q.mbl q.crc (packetBody q)
    (∀ n, n < (frameOf s.par q).length → exec (.wfDecode ((frameOf s.par q).take n)) s = ends .truncated) ∧
    (∀ extra : Bytes, extra ≠ [] → exec (.wfDecode (frameOf s.par q ++ extra)) s = ends .lengthMismatch) ∧
    (∀ k : Bytes, k.length = (checkBytes s.par q.crc body).length → k ≠ checkBytes s.par q.crc body →
      exec (.wfDecode (body ++ k)) s = ends .checksumInvalid)

/-- R91: the encoder writes the reserved CTRL bits 0000; a frame with any of them set decodes to the same packet, when
the check was computed over the byte as sent. -/
def Obligations.ReservedBitsAreWrittenZeroAndIgnored : Prop :=
  ∀ (s : State) (p : RawPacket) (q : Packet) (rsv : BitVec 4), s.par.maxPayload ≤ 65535 →
    toPacket? p = some q → packetValid s.par q = true →
    (∃ f : Bytes, exec (.wfEncode p) s =
        .next { s with result := some { status := .ok, frames := [], notes := [], value := .bytes f } } ∧
      (ctrlOf f).extractLsb' 4 4 = 0) ∧
    (let body := frameBytes q.mbl q.crc { packetBody q with rsv := rsv }
     exec (.wfDecode (body ++ checkBytes s.par q.crc body)) s =
       .next { s with result := some { status := .ok, frames := [], notes := [], value := .packet q } })

/-- R87: in mode `sum` the checksum is the sum of the bytes modulo 256, in mode `negsum` its two's complement, so that
the sum over body and check is 0; it is 0 for the empty sequence. R88: the CRC begins at its start value, and takes in
each byte by exclusive-or into its upper half and eight shifts, each followed by the polynomial when the top bit fell
out; with R88's polynomial and start value it has R88's check values. -/
def Obligations.CheckFunctionsFollowTheirDefinitions : Prop :=
  (∀ b : Bytes,
    (cksum8 .sum b).toNat = (b.map BitVec.toNat).sum % 256 ∧
    (cksum8 .negsum b).toNat = (256 - (b.map BitVec.toNat).sum % 256) % 256 ∧
    (cksum8 .sum (b ++ [cksum8 .negsum b])).toNat = 0) ∧
  (cksum8 .sum [] = 0 ∧ cksum8 .negsum [] = 0 ∧
    cksum8 .sum [0x01, 0x00, 0x00, 0x60] = 0x61 ∧ cksum8 .sum [0x7F, 0x02, 0x03, 0xFF, 0xFF, 0xFF] = 0x81) ∧
  (∀ (poly init : BitVec 16) (b : Bytes) (c : Byte),
    let shift (x : BitVec 16) : BitVec 16 := if x.getLsbD 15 then (x <<< 1) ^^^ poly else x <<< 1
    let x0 := crc16 poly init b ^^^ (c.setWidth 16 <<< 8)
    crc16 poly init [] = init ∧
    crc16 poly init (b ++ [c]) = shift (shift (shift (shift (shift (shift (shift (shift x0)))))))) ∧
  (crc16 0x1021 0x1D0F [0x31, 0x32, 0x33, 0x34, 0x35, 0x36, 0x37, 0x38, 0x39] = 0xE5CC ∧
    crc16 0x1021 0x1D0F [] = 0x1D0F ∧ crc16 0x1021 0x1D0F [0x00] = 0xCC9C ∧ crc16 0x1021 0x1D0F [0x01] = 0xDCBD ∧
    crc16 0x1021 0x1D0F [0x01, 0x00, 0x04, 0x60] = 0xD8C6 ∧ le16 0xD8C6 = [0xC6, 0xD8])

/-- Bytes are consumed in the order fed, within a chunk and across chunks: where a stream is cut into chunks does not
matter (R66, R113). -/
def Obligations.FeedingIsIndependentOfChunking : Prop :=
  ∀ (par : Params) (rx : Bytes) (chunks : List Bytes), feedAll par rx chunks = feed par rx chunks.flatten

/-- WF_FEED writes the accumulator and nothing else, on either role; the status is `OK` whatever the bytes (R113). -/
def Obligations.FeedFillsTheAccumulator : Prop :=
  (∀ (s : State) (i : DevId) (d : Device) (chunk : Bytes), s.par.role = .cp → s.dev i = some d →
    exec (.wfFeed i.toNat chunk) s =
      .next { s.setDev i (some { d with rxbuf := (feed s.par d.rxbuf chunk).2 }) with
        result := some { status := .ok, frames := [], notes := [], value := .verdicts (feed s.par d.rxbuf chunk).1 } }) ∧
  (∀ (s : State) (a : Nat) (chunk : Bytes), s.par.role = .pd →
    exec (.wfFeed a chunk) s =
      .next { s with
        pdc := { s.pdc with rxbuf := (feed s.par s.pdc.rxbuf chunk).2 }
        result := some { status := .ok, frames := [], notes := [],
                         value := .verdicts (feed s.par s.pdc.rxbuf chunk).1 } })

/-- R114: WF_FLUSH returns how many bytes it dropped, with status `Truncated` if there were any, and empties the
accumulator; it changes nothing else. -/
def Obligations.FlushEmptiesTheAccumulator : Prop :=
  (∀ r : OpRequest, r.code = 0x04 → decode (.op r) = .ok (.wfFlush r.dev)) ∧
  (∀ (s : State) (i : DevId) (d : Device), s.par.role = .cp → s.dev i = some d →
    exec (.wfFlush i.toNat) s =
      .next { s.setDev i (some { d with rxbuf := [] }) with
        result := some { status := if d.rxbuf.length > 0 then .error .truncated else .ok,
                         frames := [], notes := [], value := .count d.rxbuf.length } }) ∧
  (∀ (s : State) (i : DevId), s.par.role = .cp → s.dev i = none → exec (.wfFlush i.toNat) s =
    .next { s with result := some { status := .refused .noSuchDevice, frames := [], notes := [], value := .none } }) ∧
  (∀ (s : State) (a : Nat), s.par.role = .pd →
    exec (.wfFlush a) s =
      .next { s with
        pdc := { s.pdc with rxbuf := [] }
        result := some { status := if s.pdc.rxbuf.length > 0 then .error .truncated else .ok,
                         frames := [], notes := [], value := .count s.pdc.rxbuf.length } })

/-! ## Secure channel (41_secure_channel.md) -/

/-- R141: SC_RESET returns a channel to `Idle` with no key material from any state, with status `OK`; a note only if the
application's view changed (R142). -/
def Obligations.ChannelResetReturnsToIdle : Prop :=
  (∀ r : OpRequest, r.code = 0x10 → decode (.op r) = .ok (.scReset r.dev)) ∧
  (∀ (s : State) (i : DevId), s.par.role = .cp → s.dev i = none → exec (.scReset i.toNat) s =
    .next { s with result := some { status := .refused .noSuchDevice, frames := [], notes := [], value := .none } }) ∧
  (∀ (s : State) (i : DevId) (d : Device), s.par.role = .cp → s.dev i = some d →
    exec (.scReset i.toNat) s =
      .next ((s.setDev i (some { d with sc := Sc.init })).finished []
        (if d.sc.state = ScState.idle then [] else [.scStatus i .none]))) ∧
  (∀ (s : State) (a : Nat), s.par.role = .pd →
    exec (.scReset a) s =
      .next ({ s with pdc := { s.pdc with sc := Sc.init } }.finished []
        (if s.pdc.sc.state = ScState.idle then [] else [.scStatus s.par.myAddr .none])))

/-- SC_CP_BEGIN draws a challenge and returns the T_CHLNG payload; outside `Idle` it is refused (R143). The draw is some
bytes of length CHAL_LEN (log entry 4). -/
def Obligations.CpBeginDrawsAChallenge : Prop :=
  ∀ (s : State) (i : DevId) (d : Device), s.par.role = .cp → s.dev i = some d →
    (d.sc.state = .idle → ∃ rnd : Bytes, rnd.length = s.par.chalLen ∧
      exec (.scCpBegin i.toNat) s =
        .next { (s.setDev i (some { d with sc := { d.sc with state := .challengeSent, rndCp := some rnd } })).setDrawn i
            (s.drawn i + 1) with
          result := some { status := .ok, frames := [], notes := [.scStatus i .pending],
                           value := .bytes (rnd ++ s.par.cpCaps) } }) ∧
    (d.sc.state ≠ .idle → exec (.scCpBegin i.toNat) s =
      .next { s with result := some { status := .refused .wrongState, frames := [], notes := [], value := .none } })

/-- R144: SC_CP_VERIFY with the right cryptogram stores the PD's challenge and derives both keys; with a wrong one, or
without a key, it breaks the channel and zeroes the key material; a payload of the wrong length changes nothing, and
outside `ChallengeSent` it is refused. -/
def Obligations.CpVerifyDerivesTheKeysOrBreaks : Prop :=
  (∀ r : OpRequest, r.code = 0x12 → decode (.op r) = .ok (.scCpVerify r.dev r.data)) ∧
  ∀ (s : State) (i : DevId) (d : Device) (payload : Bytes), s.par.role = .cp → s.dev i = some d →
    let broken (e : ErrorCode) : State :=
      { s.setDev i (some { d with sc := { Sc.init with state := .broken } }) with
        result := some { status := .error e, frames := [], notes := [.scStatus i .broken], value := .none } }
    let ends (st : Status) : State := { s with result := some { status := st, frames := [], notes := [], value := .none } }
    (d.sc.state ≠ .challengeSent → exec (.scCpVerify i.toNat payload) s = .next (ends (.refused .wrongState))) ∧
    (d.sc.state = .challengeSent →
      (payload.length ≠ s.par.chalLen + s.par.cryptoLen →
        exec (.scCpVerify i.toNat payload) s = .next (ends (.error .malformedPayload))) ∧
      (payload.length = s.par.chalLen + s.par.cryptoLen →
        (s.key i = none → exec (.scCpVerify i.toNat payload) s = .next (broken .noKey)) ∧
        (∀ k rcp, s.key i = some k → d.sc.rndCp = some rcp →
          let rpd := payload.take s.par.chalLen
          let cg := payload.drop s.par.chalLen
          (cg = cgramPd s.par k rcp rpd → exec (.scCpVerify i.toNat payload) s =
            .next ((s.setDev i (some { d with sc :=
              { state := .challengeReceived, rndCp := some rcp, rndPd := some rpd,
                sEnc := some (kdfEnc s.par k rcp rpd), sMac := some (kdfMac s.par k rcp rpd) } })).finished [] [])) ∧
          (cg ≠ cgramPd s.par k rcp rpd →
            exec (.scCpVerify i.toNat payload) s = .next (broken .cryptogramInvalid)))))

/-- R145, R146: SC_CP_CONFIRM returns the confirmation cryptogram and writes nothing, or breaks the channel when the key
is gone; SC_CP_FINISH establishes the channel; both are refused outside `ChallengeReceived`. -/
def Obligations.CpConfirmThenFinish : Prop :=
  (∀ r : OpRequest, (r.code = 0x13 → decode (.op r) = .ok (.scCpConfirm r.dev)) ∧
    (r.code = 0x14 → decode (.op r) = .ok (.scCpFinish r.dev))) ∧
  ∀ (s : State) (i : DevId) (d : Device), s.par.role = .cp → s.dev i = some d →
    (d.sc.state ≠ .challengeReceived →
      let refused : Host.Outcome State Fault Refusal :=
        .next { s with result := some { status := .refused .wrongState, frames := [], notes := [], value := .none } }
      exec (.scCpConfirm i.toNat) s = refused ∧ exec (.scCpFinish i.toNat) s = refused) ∧
    (d.sc.state = .challengeReceived →
      (∀ k rcp rpd, s.key i = some k → d.sc.rndCp = some rcp → d.sc.rndPd = some rpd →
        exec (.scCpConfirm i.toNat) s =
          .next { s with result := some { status := .ok, frames := [], notes := [],
                                          value := .bytes (cgramCp s.par k rcp rpd) } }) ∧
      (s.key i = none → exec (.scCpConfirm i.toNat) s =
        .next { s.setDev i (some { d with sc := { Sc.init with state := .broken } }) with
          result := some { status := .error .noKey, frames := [], notes := [.scStatus i .broken], value := .none } }) ∧
      exec (.scCpFinish i.toNat) s =
        .next ((s.setDev i (some { d with sc := { d.sc with state := .established } })).finished []
          [.scStatus i .established]))

/-- SC_PD_CHALLENGE, accepted in every state, begins afresh: it stores both challenges and both keys, returns the
T_CCRYPT payload and ends in `ChallengeSent`; a payload of the wrong length, or no key, is an error that changes nothing
(R147). The draw is some bytes of length CHAL_LEN (log entry 4). -/
def Obligations.PdChallengeAnswersInEveryState : Prop :=
  ∀ s : State, s.par.role = .pd →
    let fails (e : ErrorCode) : Host.Outcome State Fault Refusal :=
      .next { s with result := some { status := .error e, frames := [], notes := [], value := .none } }
    (∀ payload : Bytes, payload.length ≠ s.par.chalLen + s.par.capsLen →
      exec (.scPdChallenge payload) s = fails .malformedPayload) ∧
    (∀ payload : Bytes, payload.length = s.par.chalLen + s.par.capsLen → s.key s.par.myAddr = none →
      exec (.scPdChallenge payload) s = fails .noKey) ∧
    (∀ k rcp caps : Bytes, s.key s.par.myAddr = some k → rcp.length = s.par.chalLen → caps.length = s.par.capsLen →
      ∃ rnd : Bytes, rnd.length = s.par.chalLen ∧
        exec (.scPdChallenge (rcp ++ caps)) s =
          .next { s.setDrawn s.par.myAddr (s.drawn s.par.myAddr + 1) with
            pdc := { s.pdc with sc :=
              { state := .challengeSent, rndCp := some rcp, rndPd := some rnd, sEnc := some (kdfEnc s.par k rcp rnd),
                sMac := some (kdfMac s.par k rcp rnd) } }
            result := some
              { status := .ok, frames := [],
                notes := (if s.pdc.sc.state = ScState.idle then [] else [.scStatus s.par.myAddr .none])
                  ++ [.scStatus s.par.myAddr .pending],
                value := .bytes (rnd ++ cgramPd s.par k rcp rnd) } })

/-- R148: SC_PD_VERIFY establishes the channel on the right cryptogram, breaks it on a wrong one or without a key;
outside `ChallengeSent`, and for a payload of the wrong length, it changes nothing. -/
def Obligations.PdVerifyEstablishesOrBreaks : Prop :=
  (∀ r : OpRequest, r.code = 0x16 → decode (.op r) = .ok (.scPdVerify r.data)) ∧
  ∀ (s : State) (payload : Bytes), s.par.role = .pd →
    let broken (e : ErrorCode) : State :=
      { s with
        pdc := { s.pdc with sc := { Sc.init with state := .broken } }
        result := some { status := .error e, frames := [], notes := [.scStatus s.par.myAddr .broken], value := .none } }
    (s.pdc.sc.state ≠ .challengeSent → exec (.scPdVerify payload) s =
      .next { s with result := some { status := .error .notEstablished, frames := [], notes := [], value := .none } }) ∧
    (s.pdc.sc.state = .challengeSent → payload.length ≠ s.par.cryptoLen → exec (.scPdVerify payload) s =
      .next { s with result := some { status := .error .malformedPayload, frames := [], notes := [],
                                      value := .none } }) ∧
    (∀ k rcp rpd, s.pdc.sc.state = .challengeSent → payload.length = s.par.cryptoLen →
      s.key s.par.myAddr = some k → s.pdc.sc.rndCp = some rcp → s.pdc.sc.rndPd = some rpd →
      (payload = cgramCp s.par k rcp rpd → exec (.scPdVerify payload) s =
        .next ({ s with pdc := { s.pdc with sc := { s.pdc.sc with state := .established } } }.finished []
          [.scStatus s.par.myAddr .established])) ∧
      (payload ≠ cgramCp s.par k rcp rpd → exec (.scPdVerify payload) s = .next (broken .cryptogramInvalid))) ∧
    (s.pdc.sc.state = .challengeSent → payload.length = s.par.cryptoLen → s.key s.par.myAddr = none →
      exec (.scPdVerify payload) s = .next (broken .noKey))

/-- R150: SC_WRAP on an established channel of either role returns ciphertext then tag and writes nothing; what would
not fit is refused; without an established channel it raises `NotEstablished`. -/
def Obligations.WrapSealsThePayload : Prop :=
  (∀ r : OpRequest, r.code = 0x17 → decode (.op r) = .ok (.scWrap r.dev r.data)) ∧
  ∀ (s : State) (i : DevId) (d : Device) (sc : Sc) (p : Bytes),
    (s.par.role = .cp ∧ s.dev i = some d ∧ sc = d.sc) ∨ (s.par.role = .pd ∧ sc = s.pdc.sc) →
    let ends (st : Status) (v : Value) : State :=
      { s with result := some { status := st, frames := [], notes := [], value := v } }
    (sc.state ≠ .established → exec (.scWrap i.toNat p) s = .next (ends (.error .notEstablished) .none)) ∧
    (∀ ke km, sc.state = .established → sc.sEnc = some ke → sc.sMac = some km →
      let w := enc s.par ke p ++ mac s.par km (enc s.par ke p)
      (w.length ≤ s.par.maxPayload → exec (.scWrap i.toNat p) s = .next (ends .ok (.bytes w))) ∧
      (s.par.maxPayload < w.length → exec (.scWrap i.toNat p) s = .next (ends (.refused .invalidPacket) .none)))

/-- R151: SC_UNWRAP on an established channel of either role verifies the tag over the ciphertext and returns the
decrypted payload, writing nothing; a tag that differs, or a payload shorter than a tag, breaks the channel and zeroes
the keys; without an established channel it raises `NotEstablished`. -/
def Obligations.UnwrapVerifiesThenDecrypts : Prop :=
  (∀ r : OpRequest, r.code = 0x18 → decode (.op r) = .ok (.scUnwrap r.dev r.data)) ∧
  ∀ (s : State) (i : DevId) (d : Device) (sc : Sc) (w : Bytes),
    (s.par.role = .cp ∧ s.dev i = some d ∧ sc = d.sc) ∨ (s.par.role = .pd ∧ sc = s.pdc.sc) →
    let ends (st : Status) (v : Value) : Host.Outcome State Fault Refusal :=
      .next { s with result := some { status := st, frames := [], notes := [], value := v } }
    let broken : Host.Outcome State Fault Refusal :=
      if s.par.role = .cp then
        .next { s.setDev i (some { d with sc := { Sc.init with state := .broken } }) with
          result := some { status := .error .macInvalid, frames := [], notes := [.scStatus i .broken], value := .none } }
      else
        .next { s with
          pdc := { s.pdc with sc := { Sc.init with state := .broken } }
          result := some { status := .error .macInvalid, frames := [], notes := [.scStatus s.par.myAddr .broken],
                           value := .none } }
    (sc.state ≠ .established → exec (.scUnwrap i.toNat w) s = ends (.error .notEstablished) .none) ∧
    (sc.state = .established → w.length < s.par.macLen → exec (.scUnwrap i.toNat w) s = broken) ∧
    (∀ ke km, sc.state = .established → sc.sEnc = some ke → sc.sMac = some km → s.par.macLen ≤ w.length →
      let c := w.take (w.length - s.par.macLen)
      let tag := w.drop (w.length - s.par.macLen)
      (tag = mac s.par km c → exec (.scUnwrap i.toNat w) s = ends .ok (.bytes (dec s.par ke c))) ∧
      (tag ≠ mac s.par km c → exec (.scUnwrap i.toNat w) s = broken))

/-- SC_UNWRAP of what SC_WRAP made under the same keys returns the plaintext and writes nothing, on either role (R151,
assuming `P_DEC_ENC` of R11 by name). -/
def Obligations.UnwrapRecoversWhatWasWrapped : Prop :=
  ∀ (s : State) (i : DevId) (d : Device) (sc : Sc) (ke km p : Bytes),
    paramsOk s.par = true → PDecEnc s.par →
    (s.par.role = .cp ∧ s.dev i = some d ∧ sc = d.sc) ∨ (s.par.role = .pd ∧ sc = s.pdc.sc) →
    sc.state = .established → sc.sEnc = some ke → sc.sMac = some km →
    exec (.scUnwrap i.toNat (enc s.par ke p ++ mac s.par km (enc s.par ke p))) s =
      .next { s with result := some { status := .ok, frames := [], notes := [], value := .bytes p } }

/-- The tamper law of R156, on either role: a wire payload that differs from a wrapped one in exactly one ciphertext
byte (assuming `P_MAC_1BYTE` by name), or in one tag byte (assuming nothing), raises `MacInvalid` and leaves the channel
`Broken` with no keys. -/
def Obligations.TamperingBreaksTheChannel : Prop :=
  ∀ (s : State) (i : DevId) (sc : Sc) (ke km p pre suf : Bytes) (b b' : Byte), paramsOk s.par = true →
    sc.state = .established → sc.sEnc = some ke → sc.sMac = some km →
    enc s.par ke p ++ mac s.par km (enc s.par ke p) = pre ++ [b] ++ suf → b ≠ b' →
    (pre.length < (enc s.par ke p).length → PMac1Byte s.par) →
    (∀ d : Device, s.par.role = .cp → s.dev i = some d → d.sc = sc →
      exec (.scUnwrap i.toNat (pre ++ [b'] ++ suf)) s =
        .next { s.setDev i (some { d with sc := { Sc.init with state := .broken } }) with
          result := some { status := .error .macInvalid, frames := [], notes := [.scStatus i .broken],
                           value := .none } }) ∧
    (s.par.role = .pd → s.pdc.sc = sc →
      exec (.scUnwrap i.toNat (pre ++ [b'] ++ suf)) s =
        .next { s with
          pdc := { s.pdc with sc := { Sc.init with state := .broken } }
          result := some { status := .error .macInvalid, frames := [], notes := [.scStatus s.par.myAddr .broken],
                           value := .none } })

/-- A channel is established, or on a CP reaches `ChallengeReceived`, only behind a verified cryptogram. On a CP it is
`ChallengeReceived` only if it was so before, or if the instruction brought the PD's challenge and the right cryptogram
over it and the one sent, and then it holds the keys derived from them; and it is `Established` only if it was so or
`ChallengeReceived` before, with all key material kept. A PD's is `Established` only if it was so before, or if the
instruction brought the right confirmation cryptogram over the challenges it then holds, its keys being those it held
before or those derived from these challenges (R144, R146, R147, R148, R155). -/
def Obligations.EstablishedOnlyByVerifiedCryptograms : Prop :=
  (∀ (i : Instr) (s t : State) (a : DevId) (d' : Device), exec i s = .next t → t.dev a = some d' →
    (d'.sc.state = .established → ∃ d, s.dev a = some d ∧
      (d.sc.state = .established ∨ d.sc.state = .challengeReceived) ∧ d'.sc = { d.sc with state := .established }) ∧
    (d'.sc.state = .challengeReceived → ∃ d, s.dev a = some d ∧
      (d'.sc = d.sc ∨
       (d.sc.state = .challengeSent ∧ ∃ k rcp rpd, s.key a = some k ∧ d.sc.rndCp = some rcp ∧
         rpd.length = s.par.chalLen ∧ rpd ++ cgramPd s.par k rcp rpd ∈ presented s.par d.rxbuf i ∧
         d'.sc = { state := .challengeReceived, rndCp := some rcp, rndPd := some rpd,
                   sEnc := some (kdfEnc s.par k rcp rpd), sMac := some (kdfMac s.par k rcp rpd) })))) ∧
  (∀ (i : Instr) (s t : State), exec i s = .next t → t.pdc.sc.state = .established →
    t.pdc.sc = s.pdc.sc ∨
    ∃ k rcp rpd, s.key s.par.myAddr = some k ∧ t.pdc.sc.rndCp = some rcp ∧ t.pdc.sc.rndPd = some rpd ∧
      cgramCp s.par k rcp rpd ∈ presented s.par s.pdc.rxbuf i ∧
      ((t.pdc.sc.sEnc = s.pdc.sc.sEnc ∧ t.pdc.sc.sMac = s.pdc.sc.sMac) ∨
       (t.pdc.sc.sEnc = some (kdfEnc s.par k rcp rpd) ∧ t.pdc.sc.sMac = some (kdfMac s.par k rcp rpd))))

/-! ## Registry (42_registry.md) -/

/-- R171 and R172: a lookup returns the table's entry or none, status `OK` always, and changes no register; the
op-select codes are 0x20 and 0x21. -/
def Obligations.RegistryLookups : Prop :=
  (∀ r : OpRequest, (r.code = 0x20 → decode (.op r) = .ok (.regLookupCmd r.typ)) ∧
    (r.code = 0x21 → decode (.op r) = .ok (.regLookupRpl r.typ))) ∧
  ∀ (s : State) (t : Byte),
    exec (.regLookupCmd t.toNat) s =
      .next { s with result := some { status := .ok, frames := [], notes := [],
                                      value := .cmdEntry (s.par.regCmd.lookup t) } } ∧
    exec (.regLookupRpl t.toNat) s =
      .next { s with result := some { status := .ok, frames := [], notes := [],
                                      value := .rplEntry (s.par.regRpl.lookup t) } }

/-! ## CP device state machine (43_dsm_cp.md) -/

/-- R181: DEV_REGISTER creates the context R292 describes, without a frame or a note; an id above 127, a `use_crc` above
1 and a second registration are refused. -/
def Obligations.RegisterCreatesTheContext : Prop :=
  (∀ r : OpRequest, r.code = 0x30 → decode (.op r) = .ok (.devRegister r.dev r.flag)) ∧
  (∀ (s : State) (a u : Nat), s.par.role = .cp → 127 < a → exec (.devRegister a u) s =
    .next { s with result := some { status := .refused .badOperand, frames := [], notes := [], value := .none } }) ∧
  ∀ (s : State) (i : DevId) (u : Nat), s.par.role = .cp →
    (u ≤ 1 → s.dev i = none → exec (.devRegister i.toNat u) s =
      .next ((s.setDev i (some
        { useCrc := u == 1, dstate := .offline, seq := 0,
          sc := { state := .idle, rndCp := none, rndPd := none, sEnc := none, sMac := none },
          slot := none, retxp := false, retry := 0, resync := false, online := false, deadline := none,
          lastpoll := none, cmdq := [], rxbuf := [] })).finished [] [])) ∧
    (u ≤ 1 → s.dev i ≠ none → exec (.devRegister i.toNat u) s =
      .next { s with result := some { status := .refused .alreadyRegistered, frames := [], notes := [],
                                      value := .none } }) ∧
    (1 < u → exec (.devRegister i.toNat u) s =
      .next { s with result := some { status := .refused .badOperand, frames := [], notes := [], value := .none } })

/-- R182: DEV_DEREGISTER, accepted in every state, removes the context without a frame or a note and touches nothing
else, the multiplexer included; a later tick finds no such device. -/
def Obligations.DeregisterIsSilent : Prop :=
  (∀ r : OpRequest, r.code = 0x31 → decode (.op r) = .ok (.devDeregister r.dev)) ∧
  ∀ (s : State) (i : DevId) (d : Device), s.par.role = .cp → s.dev i = some d →
    exec (.devDeregister i.toNat) s = .next ((s.setDev i none).finished [] []) ∧
    ∀ now, exec (.devTick i.toNat now) ((s.setDev i none).finished [] []) =
      .next { s.setDev i none with
        result := some { status := .refused .noSuchDevice, frames := [], notes := [], value := .none } }

/-- R183: DEV_START takes an offline device to `Polling` with sequence 0 and a clean exchange state, its channel reset
(a note only if that changes the application's view: log entry 26), `ONLINE` and `LASTPOLL` kept; in any other state it
is refused. -/
def Obligations.StartBringsADeviceToPolling : Prop :=
  (∀ r : OpRequest, r.code = 0x32 → decode (.op r) = .ok (.devStart r.dev)) ∧
  ∀ (s : State) (i : DevId) (d : Device), s.par.role = .cp → s.dev i = some d →
    (d.dstate = .offline → exec (.devStart i.toNat) s =
      .next ((s.setDev i (some { d with
        sc := Sc.init, dstate := .polling, seq := 0, retry := 0, resync := false, retxp := false, slot := none,
        deadline := none, rxbuf := [] })).finished [] (if d.sc.state = ScState.idle then [] else [.scStatus i .none]))) ∧
    (d.dstate ≠ .offline → exec (.devStart i.toNat) s =
      .next { s with result := some { status := .refused .wrongState, frames := [], notes := [], value := .none } })

/-- R184: DEV_SUBMIT makes its checks in order, then puts the command at the tail of the queue and produces no frame. -/
def Obligations.SubmitQueuesAtTheTail : Prop :=
  (∀ r : OpRequest, r.code = 0x33 → decode (.op r) = .ok (.devSubmit r.dev r.typ r.data)) ∧
  ∀ (s : State) (i : DevId) (d : Device) (t : Byte) (p : Bytes), s.par.role = .cp → s.dev i = some d →
    let refused (x : RefusalCode) : State :=
      { s with result := some { status := .refused x, frames := [], notes := [], value := .none } }
    exec (.devSubmit i.toNat t.toNat p) s =
      .next (if d.dstate = .offline then refused .wrongState
        else if t = s.par.tChlng ∨ t = s.par.tScrypt then refused .badOperand
        else if (match s.par.regCmd.lookup t with
          | some en => schemaAccepts en.schema p
          | none    => false) = false then refused .badOperand
        else if p.length > s.par.maxPayload then refused .invalidPacket
        else if d.cmdq.length = s.par.qdepth then refused .queueFull
        else (s.setDev i (some { d with cmdq := d.cmdq ++ [{ type := t, payload := p }] })).finished [] [])

/-- R185: DEV_SC_START takes a polling device with a key to `SecureHandshake`, its channel reset and its sequence number
0; without a key it raises `NoKey` and changes nothing; in any other state it is refused. -/
def Obligations.ScStartEntersTheHandshake : Prop :=
  (∀ r : OpRequest, r.code = 0x34 → decode (.op r) = .ok (.devScStart r.dev)) ∧
  ∀ (s : State) (i : DevId) (d : Device), s.par.role = .cp → s.dev i = some d →
    (d.dstate ≠ .polling → exec (.devScStart i.toNat) s =
      .next { s with result := some { status := .refused .wrongState, frames := [], notes := [], value := .none } }) ∧
    (∀ k, d.dstate = .polling → s.key i = some k → exec (.devScStart i.toNat) s =
      .next ((s.setDev i (some { d with dstate := .secureHandshake, seq := 0, sc := Sc.init })).finished []
        (if d.sc.state = ScState.idle then [] else [.scStatus i .none]))) ∧
    (d.dstate = .polling → s.key i = none → exec (.devScStart i.toNat) s =
      .next { s with result := some { status := .error .noKey, frames := [], notes := [], value := .none } })

/-- A tick in `Polling` sends the head of the queue, else a poll, plain while the channel is not established; the slot
records the sequence number and the deadline starts (R186, R187). -/
def Obligations.PollingTickSendsPlain : Prop :=
  ∀ (s : State) (i : DevId) (d : Device) (c : Cmd) (rest : List Cmd) (now : Time), s.par.role = .cp →
    s.dev i = some d → d.dstate = .polling → d.sc.state ≠ .established →
    ((d.cmdq = [] ∧ c = { type := s.par.tPoll, payload := [] } ∧ rest = []) ∨ d.cmdq = c :: rest) →
    c.payload.length ≤ s.par.maxPayload →
    exec (.devTick i.toNat now) s =
      .next ((s.setDev i (some { d with
        dstate := .awaitingReply, slot := some { type := c.type, payload := c.payload, seq := d.seq, sec := false },
        deadline := some (now + s.par.timeout), lastpoll := some now, retxp := false, cmdq := rest })).finished
        [frameOf s.par (mkPacket i d.seq d.useCrc false c.type c.payload)] [])

/-- On an established channel a tick in `Polling` sends the command wrapped, `SEC` set; a queued command too long to
wrap is dropped with a note and a secure poll goes instead, which always fits (R186, R187, R9; log entry 17). -/
def Obligations.PollingTickSendsSecure : Prop :=
  ∀ (s : State) (i : DevId) (d : Device) (ke km : Bytes) (c : Cmd) (rest : List Cmd) (notes : List Note) (now : Time),
    paramsOk s.par = true → s.par.role = .cp → s.dev i = some d → d.dstate = .polling →
    d.sc.state = .established → d.sc.sEnc = some ke → d.sc.sMac = some km →
    c.type ≠ s.par.tChlng → c.type ≠ s.par.tScrypt →
    (c.payload ≠ [] → (enc s.par ke c.payload).length + s.par.macLen ≤ s.par.maxPayload) →
    ((d.cmdq = [] ∧ c = { type := s.par.tPoll, payload := [] } ∧ rest = [] ∧ notes = []) ∨
     (d.cmdq = c :: rest ∧ notes = []) ∨
     (∃ long : Cmd, d.cmdq = long :: rest ∧
       s.par.maxPayload < (enc s.par ke long.payload).length + s.par.macLen ∧
       c = { type := s.par.tPoll, payload := [] } ∧
       notes = [.commandFailed i long.type (.refusal .invalidPacket)])) →
    exec (.devTick i.toNat now) s =
      .next ((s.setDev i (some { d with
        dstate := .awaitingReply, slot := some { type := c.type, payload := c.payload, seq := d.seq, sec := true },
        deadline := some (now + s.par.timeout), lastpoll := some now, retxp := false, cmdq := rest })).finished
        [frameOf s.par (mkPacket i d.seq d.useCrc true c.type
          (enc s.par ke c.payload ++ mac s.par km (enc s.par ke c.payload)))] notes)

/-- A tick with a command in flight, plain or secure, in `AwaitingReply` or `SecureHandshake`, does nothing before the
deadline; it sends the same command with the recorded number again when a retransmission is pending or, counting it,
when the deadline has passed and the budget is left; with the budget spent it takes the device offline with one note and
no frame. A secure command whose channel is no longer established is not sent: the tick ends with `NotEstablished` and
its note, the timeout counted if there was one (R152, R251, R298; log entry 29). A tick in `Offline` does nothing (R186,
R187, R188, R189). -/
def Obligations.AwaitingTickWaitsRetriesOrGivesUp : Prop :=
  ∀ (s : State) (i : DevId) (d : Device) (now : Time), s.par.role = .cp → s.dev i = some d →
    (d.dstate = .offline → exec (.devTick i.toNat now) s = .next (s.finished [] [])) ∧
    (∀ (sl : Slot) (wire : Bytes) (t0 : Time), d.dstate = .awaitingReply ∨ d.dstate = .secureHandshake →
      d.slot = some sl → Seals s.par d.sc sl.sec sl.payload wire → wire.length ≤ s.par.maxPayload →
      d.deadline = some t0 →
      let again (retry : Nat) : State :=
        (s.setDev i (some { d with
          retry := retry, deadline := some (now + s.par.timeout), lastpoll := some now, retxp := false })).finished
          [frameOf s.par (mkPacket i sl.seq d.useCrc sl.sec sl.type wire)] []
      (d.retxp = false → now < t0 → exec (.devTick i.toNat now) s = .next (s.finished [] [])) ∧
      (d.retxp = true → exec (.devTick i.toNat now) s = .next (again d.retry)) ∧
      (d.retxp = false → t0 ≤ now → d.retry + 1 < s.par.retryMax →
        exec (.devTick i.toNat now) s = .next (again (d.retry + 1))) ∧
      (d.retxp = false → t0 ≤ now → s.par.retryMax ≤ d.retry + 1 →
        exec (.devTick i.toNat now) s =
          .next ((s.setDev i (some { d with
            sc := Sc.init, dstate := .offline, slot := none, retxp := false, resync := false, deadline := none,
            cmdq := [], online := false, rxbuf := [], retry := d.retry + 1 })).finished []
            ((if d.sc.state = ScState.idle then [] else [.scStatus i .none]) ++ [.offline i .unreachable])))) ∧
    (∀ (sl : Slot) (t0 : Time), d.dstate = .awaitingReply ∨ d.dstate = .secureHandshake → d.slot = some sl →
      sl.sec = true → d.sc.state ≠ .established → d.deadline = some t0 →
      let unsent (retry : Nat) : State :=
        { s.setDev i (some { d with retry := retry }) with
          result := some { status := .error .notEstablished, frames := [], notes := [.error i .notEstablished],
                           value := .none } }
      (d.retxp = true → exec (.devTick i.toNat now) s = .next (unsent d.retry)) ∧
      (d.retxp = false → t0 ≤ now → d.retry + 1 < s.par.retryMax →
        exec (.devTick i.toNat now) s = .next (unsent (d.retry + 1))))

/-- "With retry-threshold N and no replies ever received, after N consecutive timeouts the device transitions to
`Offline` and exactly one unreachable-notification is emitted" (R188): over any ticks that each find the deadline
passed, for a command plain or secure. The only other note is that of the channel's end (R142). -/
def Obligations.ConsecutiveTimeoutsEndOffline : Prop :=
  ∀ (s : State) (i : DevId) (d : Device) (sl : Slot) (wire : Bytes) (t0 : Time) (ts : List Time), s.par.role = .cp →
    s.dev i = some d → d.dstate = .awaitingReply ∨ d.dstate = .secureHandshake → d.slot = some sl →
    Seals s.par d.sc sl.sec sl.payload wire → wire.length ≤ s.par.maxPayload → d.retxp = false →
    d.deadline = some t0 → d.retry < s.par.retryMax → d.retry + ts.length = s.par.retryMax →
    (∀ x ∈ ts, t0 ≤ x) → ts.Pairwise (fun x y => x + s.par.timeout ≤ y) →
    ∃ (t : State) (d' : Device),
      ticks i.toNat ts s =
        some (t, (if d.sc.state = ScState.idle then [] else [.scStatus i .none]) ++ [.offline i .unreachable]) ∧
      t.dev i = some d' ∧ d'.dstate = .offline ∧ d'.retry = s.par.retryMax

/-- A tick in `SecureHandshake` with nothing in flight sends a fresh challenge with sequence 0 from `Idle` or `Broken`,
and the confirmation from `ChallengeReceived`; a key gone by then breaks the channel (R187, R143, R145). The draw is
some bytes of length CHAL_LEN (log entry 4). -/
def Obligations.HandshakeTickSendsTheNextMessage : Prop :=
  ∀ (s : State) (i : DevId) (d : Device) (now : Time), paramsOk s.par = true → s.par.role = .cp →
    s.dev i = some d → d.dstate = .secureHandshake → d.slot = none →
    (d.sc = Sc.init ∨ d.sc.state = .broken → ∃ rnd : Bytes, rnd.length = s.par.chalLen ∧
      exec (.devTick i.toNat now) s =
        .next { (s.setDev i (some { d with
            seq := 0, sc := { Sc.init with state := .challengeSent, rndCp := some rnd },
            slot := some { type := s.par.tChlng, payload := rnd ++ s.par.cpCaps, seq := 0, sec := false },
            deadline := some (now + s.par.timeout), lastpoll := some now, retxp := false })).setDrawn i
              (s.drawn i + 1) with
          result := some
            { status := .ok,
              frames := [frameOf s.par (mkPacket i 0 d.useCrc false s.par.tChlng (rnd ++ s.par.cpCaps))],
              notes := (if d.sc.state = ScState.broken then [.scStatus i .none] else []) ++ [.scStatus i .pending],
              value := .none } }) ∧
    (∀ k rcp rpd, d.sc.state = .challengeReceived → d.sc.rndCp = some rcp → d.sc.rndPd = some rpd →
      s.key i = some k → exec (.devTick i.toNat now) s =
        .next ((s.setDev i (some { d with
          slot := some { type := s.par.tScrypt, payload := cgramCp s.par k rcp rpd, seq := d.seq, sec := false },
          deadline := some (now + s.par.timeout), lastpoll := some now, retxp := false })).finished
          [frameOf s.par (mkPacket i d.seq d.useCrc false s.par.tScrypt (cgramCp s.par k rcp rpd))] [])) ∧
    (d.sc.state = .challengeReceived → s.key i = none → exec (.devTick i.toNat now) s =
      .next ((s.setDev i (some { d with
        sc := { Sc.init with state := .broken }, retxp := false, resync := false, deadline := none, seq := 0 })).finished
        [] [.scStatus i .broken, .error i .noKey]))

/-- DEV_RX of one good frame, plain or secure, that answers the command in the slot completes the exchange: the number
advances, the counts are cleared, the application gets the payload, the device polls again; MUX_RX does the same (R190,
R191, R194, R242). -/
def Obligations.GoodReplyCompletesTheExchange : Prop :=
  ∀ (s : State) (i : DevId) (d : Device) (sl : Slot) (q : Packet) (pay : Bytes), paramsOk s.par = true →
    s.par.role = .cp → s.dev i = some d → packetValid s.par q = true →
    d.dstate = .awaitingReply → d.rxbuf = [] → d.slot = some sl →
    sl.type ≠ s.par.tChlng → sl.type ≠ s.par.tScrypt →
    q.devid = i → Opens s.par d.sc q.sec q.payload pay → q.sqn = sl.seq → replyLegal s.par sl.type q.type = true →
    (∀ en, regRpl s.par q.type = some en → schemaAccepts en.schema pay = true) →
    let completed : Host.Outcome State Fault Refusal :=
      .next ((s.setDev i (some { d with
        dstate := .polling, seq := sl.seq + 1, retry := 0, resync := false, retxp := false, slot := none,
        deadline := none, online := true })).finished []
        ((if d.online = true then [] else [.online i]) ++ [.reply i q.type pay]))
    exec (.devRx i.toNat (frameOf s.par q)) s = completed ∧ exec (.muxRx i.toNat (frameOf s.par q)) s = completed

/-- DEV_RX of a good frame, plain or secure, with a stale number never completes the exchange: the first sends the same
command again with number 0 at the next tick, a second before any success takes the device offline (R191, R192). -/
def Obligations.StaleReplyResyncsOnceThenOffline : Prop :=
  ∀ (s : State) (i : DevId) (d : Device) (sl : Slot) (q : Packet) (pay : Bytes), paramsOk s.par = true →
    s.par.role = .cp → s.dev i = some d → packetValid s.par q = true →
    d.dstate ≠ .offline → d.rxbuf = [] → d.slot = some sl → q.devid = i → Opens s.par d.sc q.sec q.payload pay →
    q.sqn ≠ sl.seq →
    (d.resync = false → exec (.devRx i.toNat (frameOf s.par q)) s =
      .next ((s.setDev i (some { d with
        resync := true, seq := 0, slot := some { sl with seq := 0 }, retxp := true })).finished []
        [.error i .desync])) ∧
    (d.resync = true → exec (.devRx i.toNat (frameOf s.par q)) s =
      .next ((s.setDev i (some { d with
        sc := Sc.init, dstate := .offline, slot := none, retxp := false, resync := false, deadline := none,
        cmdq := [], online := false })).finished []
        ([.error i .desync] ++ (if d.sc.state = ScState.idle then [] else [.scStatus i .none]) ++ [.offline i .desync])))

/-- DEV_RX of a good frame in sequence, plain or secure, whose type the registry does not allow, or whose payload fails
its schema, is not empty in answer to T_SCRYPT, or has the wrong length in answer to T_CHLNG, counts against the retry
budget: retransmission at the next tick, or offline when it is spent (R191, R193, R195, R188). -/
def Obligations.IllegalReplyCountsAgainstTheBudget : Prop :=
  ∀ (s : State) (i : DevId) (d : Device) (sl : Slot) (q : Packet) (pay : Bytes) (code : ErrorCode),
    paramsOk s.par = true → s.par.role = .cp →
    s.dev i = some d → packetValid s.par q = true →
    d.dstate ≠ .offline → d.rxbuf = [] → d.slot = some sl → q.devid = i → Opens s.par d.sc q.sec q.payload pay →
    q.sqn = sl.seq →
    ((replyLegal s.par sl.type q.type = false ∧ code = .unexpectedReply) ∨
     (replyLegal s.par sl.type q.type = true ∧ code = .malformedPayload ∧
       ((sl.type ≠ s.par.tChlng ∧ sl.type ≠ s.par.tScrypt ∧
          ∃ en, regRpl s.par q.type = some en ∧ schemaAccepts en.schema pay = false) ∨
        (sl.type = s.par.tScrypt ∧ pay ≠ []) ∨
        (sl.type = s.par.tChlng ∧ d.sc.state = .challengeSent ∧
          pay.length ≠ s.par.chalLen + s.par.cryptoLen)))) →
    (d.retry + 1 < s.par.retryMax → exec (.devRx i.toNat (frameOf s.par q)) s =
      .next ((s.setDev i (some { d with retry := d.retry + 1, retxp := true })).finished [] [.error i code])) ∧
    (s.par.retryMax ≤ d.retry + 1 → exec (.devRx i.toNat (frameOf s.par q)) s =
      .next ((s.setDev i (some { d with
        sc := Sc.init, dstate := .offline, slot := none, retxp := false, resync := false, deadline := none,
        cmdq := [], online := false, retry := d.retry + 1 })).finished []
        ([.error i code] ++ (if d.sc.state = ScState.idle then [] else [.scStatus i .none]) ++ [.offline i .unreachable])))

/-- DEV_RX of a secure frame whose tag is wrong breaks the channel, drops the command in flight with a note, and puts
the device into `SecureHandshake` with sequence 0; queue and retry count stay. Without an established channel the frame
is only reported (R151, R191, R197, R253). -/
def Obligations.BadTagBreaksTheChannelOnReceipt : Prop :=
  ∀ (s : State) (i : DevId) (d : Device) (sl : Slot) (q : Packet), s.par.role = .cp →
    s.dev i = some d → s.par.maxPayload ≤ 65535 → packetValid s.par q = true →
    d.dstate ≠ .offline → d.rxbuf = [] → d.slot = some sl → q.devid = i → q.sec = true →
    (d.sc.state ≠ .established → exec (.devRx i.toNat (frameOf s.par q)) s =
      .next (s.finished [] [.error i .notEstablished])) ∧
    (∀ ke km, d.sc.state = .established → d.sc.sEnc = some ke → d.sc.sMac = some km →
      (q.payload.length < s.par.macLen ∨
       q.payload.drop (q.payload.length - s.par.macLen) ≠
         mac s.par km (q.payload.take (q.payload.length - s.par.macLen))) →
      exec (.devRx i.toNat (frameOf s.par q)) s =
        .next ((s.setDev i (some { d with
          sc := { Sc.init with state := .broken }, dstate := .secureHandshake, seq := 0, slot := none, retxp := false,
          resync := false, deadline := none })).finished []
          [.scStatus i .broken, .error i .macInvalid, .commandFailed i sl.type (.error .macInvalid)]))

/-- DEV_RX of a frame with a wrong check reports `ChecksumInvalid` and discards it; nothing else of the context changes
and the deadline keeps running (R190, R254). -/
def Obligations.BadCheckIsReportedAndDiscarded : Prop :=
  ∀ (s : State) (i : DevId) (d : Device) (q : Packet) (k : Bytes), s.par.role = .cp → s.dev i = some d →
    s.par.maxPayload ≤ 65535 → packetValid s.par q = true → d.dstate ≠ .offline → d.rxbuf = [] →
    let body := frameBytes q.mbl q.crc (packetBody q)
    k.length = (checkBytes s.par q.crc body).length → k ≠ checkBytes s.par q.crc body →
    exec (.devRx i.toNat (body ++ k)) s = .next (s.finished [] [.error i .checksumInvalid])

/-- The two handshake replies, as delivered packets (log entry 9) and as frames to DEV_RX: T_CCRYPT with the right
cryptogram completes the first exchange and derives the keys, with a wrong one, or with the key gone, breaks the
channel; T_SCDONE establishes the channel and the device polls again (R190, R195, R196, R197). -/
def Obligations.HandshakeRepliesAdvanceTheHandshake : Prop :=
  ∀ (s : State) (i : DevId) (d : Device) (sl : Slot) (m : Message), paramsOk s.par = true → s.par.role = .cp →
    s.dev i = some d → d.dstate = .secureHandshake → d.slot = some sl →
    m.devid = i → m.sec = false → m.sqn = sl.seq →
    let received (instr : Instr) (type : Byte) (t : State) : Prop :=
      exec instr s = .next t ∧
      (d.rxbuf = [] → m.payload.length ≤ s.par.maxPayload →
        exec (.devRx i.toNat (frameOf s.par (mkPacket m.devid m.sqn m.crc m.sec type m.payload))) s = .next t)
    let online : List Note := if d.online = true then [] else [.online i]
    let done (sc : Sc) (ds : DState) : Device :=
      { d with sc := sc, dstate := ds, seq := sl.seq + 1, retry := 0, resync := false, retxp := false, slot := none,
               deadline := none, online := true }
    let broken (e : ErrorCode) : State :=
      (s.setDev i (some { d with
        sc := { Sc.init with state := .broken }, seq := 0, slot := none, retxp := false, resync := false,
        deadline := none })).finished [] [.scStatus i .broken, .error i e, .commandFailed i s.par.tChlng (.error e)]
    (sl.type = s.par.tChlng → d.sc.state = .challengeSent → m.payload.length = s.par.chalLen + s.par.cryptoLen →
      (s.key i = none → received (.tCcrypt i.toNat m) s.par.tCcrypt (broken .noKey)) ∧
      (∀ k rcp rpd cg, d.sc.rndCp = some rcp → s.key i = some k → rpd.length = s.par.chalLen →
        m.payload = rpd ++ cg →
        (cg = cgramPd s.par k rcp rpd → received (.tCcrypt i.toNat m) s.par.tCcrypt
          ((s.setDev i (some (done
            { state := .challengeReceived, rndCp := some rcp, rndPd := some rpd, sEnc := some (kdfEnc s.par k rcp rpd),
              sMac := some (kdfMac s.par k rcp rpd) } .secureHandshake))).finished [] online)) ∧
        (cg ≠ cgramPd s.par k rcp rpd →
          received (.tCcrypt i.toNat m) s.par.tCcrypt (broken .cryptogramInvalid)))) ∧
    (sl.type = s.par.tScrypt → d.sc.state = .challengeReceived → m.payload = [] →
      received (.tScdone i.toNat m) s.par.tScdone
        ((s.setDev i (some (done { d.sc with state := .established } .polling))).finished []
          ([.scStatus i .established] ++ online)))

/-! ## PD device state machine (44_dsm_pd.md) -/

/-- PD_RX of one good frame. An application command for this PD, plain or secure, with a valid number, is handed to the
application, and the PD owes a reply; a frame for another device, one that comes while a command is being processed, and
one with an invalid number are dropped: no reply, no note, no register changed. A secure one is only reported when there
is no established channel, and breaks the channel when its tag is wrong (R221, R222, R223). -/
def Obligations.PdRxAcceptsOrDropsACommand : Prop :=
  ∀ (s : State) (q : Packet), paramsOk s.par = true → s.par.role = .pd → packetValid s.par q = true →
    s.pdc.rxbuf = [] →
    (q.devid ≠ s.par.myAddr ∨ s.pdc.pdstate = .processingCommand →
      exec (.pdRx (frameOf s.par q)) s = .next (s.finished [] [])) ∧
    (q.devid = s.par.myAddr → s.pdc.pdstate ≠ .processingCommand →
      (∀ pay, Opens s.par s.pdc.sc q.sec q.payload pay → q.sqn ≠ 0 → q.sqn ≠ s.pdc.pseq →
        exec (.pdRx (frameOf s.par q)) s = .next (s.finished [] [])) ∧
      (∀ pay, Opens s.par s.pdc.sc q.sec q.payload pay → (q.sqn = 0 ∨ q.sqn = s.pdc.pseq) →
        q.type ≠ s.par.tChlng → q.type ≠ s.par.tScrypt →
        exec (.pdRx (frameOf s.par q)) s =
          .next ({ s with pdc := { s.pdc with
              pdstate := .processingCommand,
              cur := some { type := q.type, seq := q.sqn, sec := q.sec, crc := q.crc } } }.finished []
            [.command q.type pay])) ∧
      (q.sec = true → s.pdc.sc.state ≠ .established → exec (.pdRx (frameOf s.par q)) s =
        .next (s.finished [] [.pdError .notEstablished])) ∧
      (∀ ke km, q.sec = true → s.pdc.sc.state = .established → s.pdc.sc.sEnc = some ke → s.pdc.sc.sMac = some km →
        (q.payload.length < s.par.macLen ∨
         q.payload.drop (q.payload.length - s.par.macLen) ≠
           mac s.par km (q.payload.take (q.payload.length - s.par.macLen))) →
        exec (.pdRx (frameOf s.par q)) s =
          .next ({ s with pdc := { s.pdc with sc := { Sc.init with state := .broken } } }.finished []
            [.scStatus s.par.myAddr .broken, .pdError .macInvalid])))

/-- A frame of each of the four formats, any check and any reserved bits, delivered to the block is received as its
bytes: by MUX_RX of the named device on a CP, by PD_RX on a PD. One with the right check that holds a plain application
command hands it to a PD's application (R90, R91, R222; delivery as an instruction is log entry 8). -/
def Obligations.FramesActAsTheirBytes : Prop :=
  (∀ (s : State) (a : Nat) (f : FrameBody) (k : Byte) (c : BitVec 16),
    let bytes (mbl crc : Bool) : Bytes := frameBytes mbl crc f ++ (if crc then le16 c else [k])
    (s.par.role = .cp →
      exec (.frameSk a f k) s = exec (.muxRx a (bytes false false)) s ∧
      exec (.frameSc a f c) s = exec (.muxRx a (bytes false true)) s ∧
      exec (.frameLk a f k) s = exec (.muxRx a (bytes true false)) s ∧
      exec (.frameLc a f c) s = exec (.muxRx a (bytes true true)) s) ∧
    (s.par.role = .pd →
      exec (.frameSk a f k) s = exec (.pdRx (bytes false false)) s ∧
      exec (.frameSc a f c) s = exec (.pdRx (bytes false true)) s ∧
      exec (.frameLk a f k) s = exec (.pdRx (bytes true false)) s ∧
      exec (.frameLc a f c) s = exec (.pdRx (bytes true true)) s)) ∧
  ∀ (s : State) (a : Nat) (f : FrameBody), s.par.role = .pd → s.par.maxPayload ≤ 65535 →
    f.payload.length ≤ s.par.maxPayload → s.pdc.rxbuf = [] → s.pdc.pdstate ≠ .processingCommand →
    f.devid = s.par.myAddr → f.sec = false → (f.sqn = 0 ∨ f.sqn = s.pdc.pseq) →
    f.type ≠ s.par.tChlng → f.type ≠ s.par.tScrypt →
    let delivered (crc : Bool) : Host.Outcome State Fault Refusal :=
      .next ({ s with pdc := { s.pdc with
          pdstate := .processingCommand,
          cur := some { type := f.type, seq := f.sqn, sec := false, crc := crc } } }.finished []
        [.command f.type f.payload])
    (f.payload.length ≤ 255 →
      exec (.frameSk a f (cksum8 s.par.cksumMode (frameBytes false false f))) s = delivered false ∧
      exec (.frameSc a f (crc16 s.par.crcPoly s.par.crcInit (frameBytes false true f))) s = delivered true) ∧
    exec (.frameLk a f (cksum8 s.par.cksumMode (frameBytes true false f))) s = delivered false ∧
    exec (.frameLc a f (crc16 s.par.crcPoly s.par.crcInit (frameBytes true true f))) s = delivered true

/-- A delivered packet of each of the five types does what DEV_RX, or on a PD PD_RX, does with the frame of that packet;
a poll, plain or secure, is handed to a PD's application like any command (R100, R190, R191, R221, R222; delivery as an
instruction is log entry 9). -/
def Obligations.MessagesActAsTheirFrames : Prop :=
  ∀ (s : State) (m : Message), paramsOk s.par = true → m.payload.length ≤ s.par.maxPayload →
    let framed (t : Byte) : Bytes := frameOf s.par (mkPacket m.devid m.sqn m.crc m.sec t m.payload)
    (∀ (i : DevId) (d : Device), s.par.role = .cp → s.dev i = some d → d.rxbuf = [] →
      exec (.tPoll i.toNat m) s = exec (.devRx i.toNat (framed s.par.tPoll)) s ∧
      exec (.tChlng i.toNat m) s = exec (.devRx i.toNat (framed s.par.tChlng)) s ∧
      exec (.tCcrypt i.toNat m) s = exec (.devRx i.toNat (framed s.par.tCcrypt)) s ∧
      exec (.tScrypt i.toNat m) s = exec (.devRx i.toNat (framed s.par.tScrypt)) s ∧
      exec (.tScdone i.toNat m) s = exec (.devRx i.toNat (framed s.par.tScdone)) s) ∧
    (∀ a : Nat, s.par.role = .pd → s.pdc.rxbuf = [] →
      exec (.tPoll a m) s = exec (.pdRx (framed s.par.tPoll)) s ∧
      exec (.tChlng a m) s = exec (.pdRx (framed s.par.tChlng)) s ∧
      exec (.tCcrypt a m) s = exec (.pdRx (framed s.par.tCcrypt)) s ∧
      exec (.tScrypt a m) s = exec (.pdRx (framed s.par.tScrypt)) s ∧
      exec (.tScdone a m) s = exec (.pdRx (framed s.par.tScdone)) s) ∧
    (∀ (a : Nat) (pay : Bytes), s.par.role = .pd → s.pdc.pdstate ≠ .processingCommand → m.devid = s.par.myAddr →
      (m.sqn = 0 ∨ m.sqn = s.pdc.pseq) → Opens s.par s.pdc.sc m.sec m.payload pay →
      exec (.tPoll a m) s =
        .next ({ s with pdc := { s.pdc with
            pdstate := .processingCommand,
            cur := some { type := s.par.tPoll, seq := m.sqn, sec := m.sec, crc := m.crc } } }.finished []
          [.command s.par.tPoll pay]))

/-- The two handshake commands, as delivered packets (log entry 9) and as frames to PD_RX, are answered by the PD
itself: T_CHLNG, plain or secure, with its challenge and cryptogram, T_SCRYPT with the right cryptogram by T_SCDONE; the
reply carries the command's number and `PSEQ` moves past it. What fails is reported and not answered, and `PSEQ` stays:
a T_CHLNG of the wrong length or without a key changes nothing; a T_SCRYPT outside `ChallengeSent` or of the wrong
length changes nothing, one without a key or with a wrong cryptogram breaks the channel (R221, R222, R224, R225). The
draw is some bytes of length CHAL_LEN (log entry 4). -/
def Obligations.PdAnswersTheHandshake : Prop :=
  ∀ (s : State) (a : Nat) (m : Message) (pay : Bytes), paramsOk s.par = true → s.par.role = .pd →
    s.pdc.pdstate ≠ .processingCommand → m.devid = s.par.myAddr →
    (m.sqn = 0 ∨ m.sqn = s.pdc.pseq) → Opens s.par s.pdc.sc m.sec m.payload pay →
    let received (instr : Instr) (type : Byte) (t : State) : Prop :=
      exec instr s = .next t ∧
      (s.pdc.rxbuf = [] → m.payload.length ≤ s.par.maxPayload →
        exec (.pdRx (frameOf s.par (mkPacket m.devid m.sqn m.crc m.sec type m.payload))) s = .next t)
    let chlng := received (.tChlng a m) s.par.tChlng
    let scrypt := received (.tScrypt a m) s.par.tScrypt
    let broken (e : ErrorCode) : State :=
      { s with pdc := { s.pdc with sc := { Sc.init with state := .broken } } }.finished []
        [.scStatus s.par.myAddr .broken, .pdError e]
    (pay.length ≠ s.par.chalLen + s.par.capsLen → chlng (s.finished [] [.pdError .malformedPayload])) ∧
    (pay.length = s.par.chalLen + s.par.capsLen → s.key s.par.myAddr = none →
      chlng (s.finished [] [.pdError .noKey])) ∧
    (∀ k rcp caps, s.key s.par.myAddr = some k → rcp.length = s.par.chalLen → caps.length = s.par.capsLen →
      pay = rcp ++ caps → ∃ rnd : Bytes, rnd.length = s.par.chalLen ∧
        chlng { s.setDrawn s.par.myAddr (s.drawn s.par.myAddr + 1) with
          pdc := { s.pdc with
            pdstate := .repliedWaiting, pseq := m.sqn + 1,
            sc := { state := .challengeSent, rndCp := some rcp, rndPd := some rnd,
                    sEnc := some (kdfEnc s.par k rcp rnd), sMac := some (kdfMac s.par k rcp rnd) } }
          result := some
            { status := .ok,
              frames := [frameOf s.par (mkPacket s.par.myAddr m.sqn m.crc false s.par.tCcrypt
                (rnd ++ cgramPd s.par k rcp rnd))],
              notes := (if s.pdc.sc.state = ScState.idle then [] else [.scStatus s.par.myAddr .none])
                ++ [.scStatus s.par.myAddr .pending],
              value := .none } }) ∧
    (s.pdc.sc.state ≠ .challengeSent → scrypt (s.finished [] [.pdError .notEstablished])) ∧
    (s.pdc.sc.state = .challengeSent → pay.length ≠ s.par.cryptoLen →
      scrypt (s.finished [] [.pdError .malformedPayload])) ∧
    (s.pdc.sc.state = .challengeSent → pay.length = s.par.cryptoLen →
      (s.key s.par.myAddr = none → scrypt (broken .noKey)) ∧
      (∀ k rcp rpd, s.key s.par.myAddr = some k → s.pdc.sc.rndCp = some rcp → s.pdc.sc.rndPd = some rpd →
        (pay ≠ cgramCp s.par k rcp rpd → scrypt (broken .cryptogramInvalid)) ∧
        (pay = cgramCp s.par k rcp rpd → scrypt
          ({ s with pdc := { s.pdc with
              pdstate := .repliedWaiting, pseq := m.sqn + 1, sc := { s.pdc.sc with state := .established } } }.finished
            [frameOf s.par (mkPacket s.par.myAddr m.sqn m.crc false s.par.tScdone [])]
            [.scStatus s.par.myAddr .established]))))

/-- R226: PD_REPLY sends the reply with the command's number and kind of check, secure exactly when the command was,
advances `PSEQ` past that number and waits; when no command is pending, when the registry does not allow the reply, and
when its payload does not fit, plain or wrapped, it is refused. A secure command whose channel is no longer established
is not answered: PD_REPLY ends with `NotEstablished` and its note (R152, R251, R298; log entry 29). -/
def Obligations.PdReplyAnswersTheCommand : Prop :=
  (∀ r : OpRequest, r.code = 0x41 → decode (.op r) = .ok (.pdReply r.typ r.data)) ∧
  ∀ (s : State) (t : Byte) (p : Bytes), s.par.role = .pd →
    let refused (x : RefusalCode) : Host.Outcome State Fault Refusal :=
      .next { s with result := some { status := .refused x, frames := [], notes := [], value := .none } }
    (s.pdc.pdstate ≠ .processingCommand → exec (.pdReply t.toNat p) s = refused .wrongState) ∧
    (∀ c, s.pdc.pdstate = .processingCommand → s.pdc.cur = some c →
      let allowed : Bool := match s.par.regCmd.lookup c.type with
        | some en => en.replies.contains t
        | none    => true
      (allowed = false → exec (.pdReply t.toNat p) s = refused .replyNotAllowed) ∧
      (allowed = true → s.par.maxPayload < p.length → exec (.pdReply t.toNat p) s = refused .invalidPacket) ∧
      (allowed = true → p.length ≤ s.par.maxPayload → c.sec = true → s.pdc.sc.state ≠ .established →
        exec (.pdReply t.toNat p) s =
          .next { s with result := some { status := .error .notEstablished, frames := [],
                                          notes := [.pdError .notEstablished], value := .none } }) ∧
      (∀ wire, allowed = true → p.length ≤ s.par.maxPayload → Seals s.par s.pdc.sc c.sec p wire →
        (s.par.maxPayload < wire.length → exec (.pdReply t.toNat p) s = refused .invalidPacket) ∧
        (wire.length ≤ s.par.maxPayload → exec (.pdReply t.toNat p) s =
          .next ({ s with pdc := { s.pdc with pdstate := .repliedWaiting, pseq := c.seq + 1, cur := none } }.finished
            [frameOf s.par (mkPacket s.par.myAddr c.seq c.crc c.sec t wire)] []))))

/-! ## Bus multiplexer (45_bus_mux.md) -/

/-- MUX_TICK, the line busy: the lowest busy device is served when its retransmission is pending or its deadline has
passed, and the gap has elapsed. The line free: the first eligible device after the one last served is served when the
gap has elapsed, and `RRPTR` moves to it. To be served is to get DEV_TICK's result, with the device as value and
`LASTTX` moved if a frame went out. In every other case nothing changes. The last clause is one case in full: a plain
poll (R240, R241; what is written when the tick ends in an error is log entry 21). -/
def Obligations.MuxTickServesTheNextEligible : Prop :=
  ∀ (s : State) (now : Time), s.par.role = .cp →
    let served (a rrptr : DevId) : Prop := ∀ (t : State) (r : Result), exec (.devTick a.toNat now) s = .next t →
      t.result = some r → (∀ x, r.status ≠ .refused x) →
      exec (.muxTick now) s =
        .next { t with
          mux := { rrptr := rrptr, lasttx := if r.frames = [] then s.mux.lasttx else some now }
          result := some { r with value := .served (some a) } }
    let nothing : Prop := exec (.muxTick now) s =
      .next { s with result := some { status := .ok, frames := [], notes := [], value := .served none } }
    let gap : Prop := ∀ t0, s.mux.lasttx = some t0 → t0 + s.par.turnaroundGap ≤ now
    (∀ b d, s.dev b = some d → d.slot.isSome = true →
      (∀ c dc, c < b → s.dev c = some dc → dc.slot = none) →
      (gap → (d.retxp = true ∨ ∃ t0, d.deadline = some t0 ∧ t0 ≤ now) → served b s.mux.rrptr) ∧
      (¬ (gap ∧ (d.retxp = true ∨ ∃ t0, d.deadline = some t0 ∧ t0 ≤ now)) → nothing)) ∧
    ((∀ b d, s.dev b = some d → d.slot = none) →
      (¬ gap ∨ (∀ a, eligible s now a = false) → nothing) ∧
      (∀ k : Nat, gap → 1 ≤ k → k ≤ 128 →
        (∀ j, 1 ≤ j → j < k → eligible s now (s.mux.rrptr + BitVec.ofNat 7 j) = false) →
        let a : DevId := s.mux.rrptr + BitVec.ofNat 7 k
        (eligible s now a = true → served a a) ∧
        (∀ d, s.dev a = some d → d.dstate = .polling →
          (∀ t0, d.lastpoll = some t0 → t0 + s.par.pollInterval ≤ now) → d.sc.state ≠ .established →
          d.cmdq = [] →
          exec (.muxTick now) s =
            .next { s.setDev a (some { d with
                dstate := .awaitingReply
                slot := some { type := s.par.tPoll, payload := [], seq := d.seq, sec := false }
                deadline := some (now + s.par.timeout), lastpoll := some now, retxp := false }) with
              mux := { rrptr := a, lasttx := some now }
              result := some
                { status := .ok, frames := [frameOf s.par (mkPacket a d.seq d.useCrc false s.par.tPoll [])],
                  notes := [], value := .served (some a) } })))

/-- While any device has a command in flight, MUX_TICK addresses no device that has none, and leaves the round robin
where it is: the line is half-duplex (R241, R296). -/
def Obligations.MuxTickIsHalfDuplex : Prop :=
  ∀ (s t : State) (now : Time) (b : DevId) (db : Device), s.par.role = .cp → s.dev b = some db →
    db.slot.isSome = true → exec (.muxTick now) s = .next t →
    t.mux.rrptr = s.mux.rrptr ∧ ∀ c d, s.dev c = some d → d.slot = none → t.dev c = some d

/-- R242: MUX_RX refuses an id above 127, discards bytes for an id that is not registered with status `OK`, and
otherwise is DEV_RX of that device. It never transmits and does not touch the multiplexer. An offline device ignores the
bytes. -/
def Obligations.MuxRxRoutesBytes : Prop :=
  (∀ r : OpRequest, r.code = 0x51 → decode (.op r) = .ok (.muxRx r.dev r.data)) ∧
  ∀ (s : State) (chunk : Bytes), s.par.role = .cp →
    (∀ a, 127 < a → exec (.muxRx a chunk) s =
      .next { s with result := some { status := .refused .badOperand, frames := [], notes := [], value := .none } }) ∧
    (∀ i : DevId, s.dev i = none → exec (.muxRx i.toNat chunk) s = .next (s.finished [] [])) ∧
    (∀ (i : DevId) (d : Device), s.dev i = some d →
      exec (.muxRx i.toNat chunk) s = exec (.devRx i.toNat chunk) s) ∧
    (∀ (i : DevId) (d : Device), s.dev i = some d → d.dstate = .offline →
      exec (.muxRx i.toNat chunk) s = .next (s.finished [] [])) ∧
    (∀ a t, exec (.muxRx a chunk) s = .next t → t.mux = s.mux ∧ ∀ r, t.result = some r → r.frames = [])

/-! ## Reset (70_reset_and_hazards.md) -/

/-- R291: RESET, from any state, leaves every register at its reset value, the parameters as the host presents them and
the keys as it holds them, with status `OK` and neither frame nor note. -/
def Obligations.ResetLeavesTheResetValues : Prop :=
  ∀ s : State, ∃ t : State, exec .reset s = .next t ∧
    (∀ a, t.dev a = none) ∧ t.mux = { rrptr := 127, lasttx := none } ∧
    t.pdc = { pdstate := .idle, pseq := 0,
              sc := { state := .idle, rndCp := none, rndPd := none, sEnc := none, sMac := none },
              cur := none, rxbuf := [] } ∧
    t.par = s.straps ∧ t.keystore = s.keystore ∧
    t.result = some { status := .ok, frames := [], notes := [], value := .none }

/-! ## The whole machine -/

/-- An instruction other than RESET changes no device context but the one it touches: that of the device its operand
names, and for MUX_TICK that of the lowest busy device, or with none busy of the next eligible one. A failure of one
device never changes another's (R6, R241, R257). Two operations on different devices of a CP, MUX_TICK apart, commute:
in either order each answers what it would alone, and they leave the same state but for the record of the later one
(R66; draws of different devices are different, log entry 4). -/
def Obligations.AtMostOneContextChanges : Prop :=
  (∀ (i : Instr) (s t : State), i ≠ .reset → exec i s = .next t → ∀ b, touched s i ≠ some b → t.dev b = s.dev b) ∧
  (∀ (i j : Instr) (s t u : State) (a b : DevId), s.par.role = .cp → (∀ now, i ≠ .muxTick now) →
    (∀ now, j ≠ .muxTick now) → touched s i = some a → touched s j = some b → a ≠ b →
    exec i s = .next t → exec j s = .next u →
    ∃ v : State, exec j t = .next { v with result := u.result } ∧ exec i u = .next { v with result := t.result })

/-- A CP never changes the PD context and a PD never changes a device context or the multiplexer (R20; both halves in
one State is log entry 15). -/
def Obligations.RolesTouchOnlyTheirOwnHalf : Prop :=
  ∀ (i : Instr) (s t : State), i ≠ .reset → exec i s = .next t →
    (s.par.role = .cp → t.pdc = s.pdc) ∧ (s.par.role = .pd → t.dc = s.dc ∧ t.mux = s.mux)

/-- No parameter changes but at RESET, and no instruction, RESET included, writes the straps, the key store or the
operations presented, or lets the count of any device's draws fall (R9, R28, R263; log entries 1, 3, 6, and 4 for the
counts). -/
def Obligations.ParametersAndKeysAreFixed : Prop :=
  ∀ (i : Instr) (s t : State), exec i s = .next t →
    (i ≠ .reset → t.par = s.par) ∧ t.straps = s.straps ∧ t.keystore = s.keystore ∧ t.inbox = s.inbox ∧
    ∀ a, s.drawn a ≤ t.drawn a

/-- A refused operation changes no register and returns no frame, no note and no value (R13, R252; for a refusal inside
a composed operation this is log entry 10). -/
def Obligations.RefusalsChangeNothing : Prop :=
  ∀ (i : Instr) (s t : State) (r : Result) (x : RefusalCode), exec i s = .next t → t.result = some r →
    r.status = .refused x →
    t = { s with result := some { status := .refused x, frames := [], notes := [], value := .none } }

/-- An operation of the other role is refused `WrongRole`; on a CP an operation that names a device id above 127 is
refused `BadOperand`, one that names an unregistered device `NoSuchDevice`, DEV_SUBMIT among them; a type code above 255
is refused `BadOperand` wherever one is an operand (R96, R252, R263; the range of a type code is log entry 14). -/
def Obligations.WrongRoleAndUnknownDevicesAreRefused : Prop :=
  ∀ s : State,
    let refused (x : RefusalCode) : Host.Outcome State Fault Refusal :=
      .next { s with result := some { status := .refused x, frames := [], notes := [], value := .none } }
    (∀ i, s.par.role = .pd → cpOnly i = true → exec i s = refused .wrongRole) ∧
    (∀ i, s.par.role = .cp → pdOnly i = true → exec i s = refused .wrongRole) ∧
    (∀ i a, s.par.role = .cp → namedDevice i = some a → 127 < a → exec i s = refused .badOperand) ∧
    (∀ i (a : DevId), s.par.role = .cp → namedDevice i = some a.toNat → s.dev a = none →
      exec i s = refused .noSuchDevice) ∧
    (∀ a t p, s.par.role = .cp → 127 < a ∨ 255 < t → exec (.devSubmit a t p) s = refused .badOperand) ∧
    (∀ (a : DevId) (t : Byte) (p : Bytes), s.par.role = .cp → s.dev a = none →
      exec (.devSubmit a.toNat t.toNat p) s = refused .noSuchDevice) ∧
    (∀ t p, s.par.role = .pd → 255 < t → exec (.pdReply t p) s = refused .badOperand) ∧
    (∀ t, 255 < t → exec (.regLookupCmd t) s = refused .badOperand ∧ exec (.regLookupRpl t) s = refused .badOperand)

/-- A read of a field the spec calls unspecified, or of key material that is `none`, stops the model by name: in states
no run reaches (U12, R21, R22; the stop is the model's choice, log entry 11). -/
def Obligations.UnspecifiedFieldsStop : Prop :=
  (∀ (s : State) (i : DevId) (d : Device) (now : Time), s.par.role = .cp → s.dev i = some d →
    d.dstate = .awaitingReply → d.slot = none → d.retxp = true →
    exec (.devTick i.toNat now) s = .fault .slotUnspecified) ∧
  (∀ (s : State) (t : Byte) (p : Bytes), s.par.role = .pd → s.pdc.pdstate = .processingCommand → s.pdc.cur = none →
    exec (.pdReply t.toNat p) s = .fault .curUnspecified) ∧
  (∀ (s : State) (i : DevId) (d : Device) (k : Bytes), s.par.role = .cp → s.dev i = some d → s.key i = some k →
    (d.sc.state = .challengeSent → d.sc.rndCp = none → ∀ payload : Bytes,
      payload.length = s.par.chalLen + s.par.cryptoLen →
      exec (.scCpVerify i.toNat payload) s = .fault .keyMaterialNone) ∧
    (d.sc.state = .challengeReceived → (d.sc.rndCp = none ∨ d.sc.rndPd = none) →
      exec (.scCpConfirm i.toNat) s = .fault .keyMaterialNone) ∧
    (d.sc.state = .established → (d.sc.sEnc = none ∨ d.sc.sMac = none) → ∀ p : Bytes,
      exec (.scWrap i.toNat p) s = .fault .keyMaterialNone ∧
      (s.par.macLen ≤ p.length → exec (.scUnwrap i.toNat p) s = .fault .keyMaterialNone)))

/-- Every operation is total: in every state that meets the invariant it returns a result, never a fault and never a
missing meaning (R258, U12). -/
def Obligations.EveryOperationReturnsAResult : Prop :=
  ∀ (i : Instr) (s : State), s.Inv → ∃ (t : State) (r : Result), exec i s = .next t ∧ t.result = some r

/-- Every step keeps the machine's invariant: key material agrees with the channel state, a slot has its deadline, the
retry count stays below the threshold, queues within their depth, accumulators hold no whole frame, the other role's
half is untouched (R29, R33). -/
def Obligations.StepKeepsTheInvariant : Prop :=
  ∀ s t : State, s.Inv → step s = .next t → t.Inv

/-- The machine right after reset meets the invariant, whatever the straps (R291). -/
def Obligations.ResetMeetsTheInvariant : Prop :=
  ∀ p : Params, (State.resetWith p).Inv ∧ State.reset.Inv

/-- R33: under the state machine's own operations (the unit operations of R298 apart) every registered context keeps the
bullets of R33, in the inductive form `DeviceCoherent` (its added clauses are the model's, see its docstring). -/
def Obligations.StateMachineOperationsKeepCoherence : Prop :=
  ∀ (i : Instr) (s t : State), paramsOk s.par = true → isUnitOp i = false →
    (∀ a d, s.dev a = some d → DeviceCoherent s.par d) → exec i s = .next t →
    ∀ a d, t.dev a = some d → DeviceCoherent t.par d

/-- While a PD processes a command it drops every frame: only PD_REPLY, RESET and the unit operations change anything
but its accumulator (R222 step 2, R261, R301). -/
def Obligations.BusyPdOnlyAccumulates : Prop :=
  ∀ (i : Instr) (s t : State), s.par.role = .pd → s.pdc.pdstate = .processingCommand → isUnitOp i = false →
    i ≠ .reset → (∀ c p, i ≠ .pdReply c p) → exec i s = .next t →
    t.pdc = { s.pdc with rxbuf := t.pdc.rxbuf } ∧ t.draws = s.draws ∧ ∀ r, t.result = some r → r.frames = []
end

