-- ==== Sys2Proof/Laws/State.lean ====
section
/-! SUPPORT. Laws of State: what each update of the state leaves in each field, so that no later proof unfolds one. -/

namespace Sys2Proof.Machine

/-! ### `setDev` -/

@[simp] theorem State.dev_setDev_same (s : State) (a : DevId) (d : Option Device) : (s.setDev a d).dev a = d := by
  simp [State.dev, State.setDev]

theorem State.dev_setDev_ne (s : State) {a b : DevId} (d : Option Device) (h : b ≠ a) :
    (s.setDev a d).dev b = s.dev b := by
  have h' : a.toNat ≠ b.toNat := fun e => h (BitVec.eq_of_toNat_eq e.symm)
  simp [State.dev, State.setDev, Vector.getElem_set_ne _ _ h']

theorem State.dev_setDev (s : State) (a b : DevId) (d : Option Device) :
    (s.setDev a d).dev b = if b = a then d else s.dev b := by
  split
  · subst b; simp
  · exact State.dev_setDev_ne s d ‹_›

/-- Writing back what a context already holds changes nothing. -/
theorem State.setDev_self (s : State) {a : DevId} {d : Option Device} (h : s.dev a = d) : s.setDev a d = s := by
  subst h; simp [State.setDev, State.dev]

/-- Two states with the same contexts have the same context registers. -/
theorem State.dc_ext {s t : State} (h : ∀ a, s.dev a = t.dev a) : s.dc = t.dc := by
  apply Vector.ext
  intro i hi
  have := h (BitVec.ofNat 7 i)
  have e : (BitVec.ofNat 7 i).toNat = i := by simp; omega
  simpa [State.dev, e] using this

@[simp] theorem State.setDev_par (s : State) (a : DevId) (d : Option Device) : (s.setDev a d).par = s.par := rfl
@[simp] theorem State.setDev_straps (s : State) (a : DevId) (d : Option Device) :
    (s.setDev a d).straps = s.straps := rfl
@[simp] theorem State.setDev_keystore (s : State) (a : DevId) (d : Option Device) :
    (s.setDev a d).keystore = s.keystore := rfl
@[simp] theorem State.setDev_mux (s : State) (a : DevId) (d : Option Device) : (s.setDev a d).mux = s.mux := rfl
@[simp] theorem State.setDev_pdc (s : State) (a : DevId) (d : Option Device) : (s.setDev a d).pdc = s.pdc := rfl
@[simp] theorem State.setDev_draws (s : State) (a : DevId) (d : Option Device) : (s.setDev a d).draws = s.draws := rfl
@[simp] theorem State.setDev_inbox (s : State) (a : DevId) (d : Option Device) : (s.setDev a d).inbox = s.inbox := rfl
@[simp] theorem State.setDev_result (s : State) (a : DevId) (d : Option Device) :
    (s.setDev a d).result = s.result := rfl
@[simp] theorem State.setDev_key (s : State) (a b : DevId) (d : Option Device) : (s.setDev a d).key b = s.key b := rfl
@[simp] theorem State.setDev_drawn (s : State) (a b : DevId) (d : Option Device) :
    (s.setDev a d).drawn b = s.drawn b := rfl

/-- Contexts of different devices are written in either order. -/
theorem State.setDev_comm (s : State) {a b : DevId} (h : a ≠ b) (d e : Option Device) :
    (s.setDev a d).setDev b e = (s.setDev b e).setDev a d := by
  have h' : a.toNat ≠ b.toNat := fun x => h (BitVec.eq_of_toNat_eq x)
  simp [State.setDev, Vector.set_comm _ _ h']

/-! ### `setDrawn` -/

@[simp] theorem State.drawn_setDrawn_same (s : State) (a : DevId) (n : Nat) : (s.setDrawn a n).drawn a = n := by
  simp [State.drawn, State.setDrawn]

theorem State.drawn_setDrawn_ne (s : State) {a b : DevId} (n : Nat) (h : b ≠ a) :
    (s.setDrawn a n).drawn b = s.drawn b := by
  have h' : a.toNat ≠ b.toNat := fun e => h (BitVec.eq_of_toNat_eq e.symm)
  simp [State.drawn, State.setDrawn, Vector.getElem_set_ne _ _ h']

/-- Writing back the count a device has changes nothing. -/
@[simp] theorem State.setDrawn_self (s : State) (a : DevId) : s.setDrawn a (s.drawn a) = s := by
  simp [State.drawn, State.setDrawn]

@[simp] theorem State.draws_set_drawn (s : State) (a : DevId) : s.draws.set a.toNat (s.drawn a) a.isLt = s.draws := by
  simp [State.drawn]

@[simp] theorem State.setDrawn_self_setDev (s : State) (a b : DevId) (d : Option Device) :
    (s.setDev b d).setDrawn a (s.drawn a) = s.setDev b d := State.setDrawn_self (s.setDev b d) a

@[simp] theorem State.setDrawn_self_pdc (s : State) (a : DevId) (p : Pdc) :
    ({ s with pdc := p } : State).setDrawn a (s.drawn a) = { s with pdc := p } :=
  State.setDrawn_self { s with pdc := p } a

/-- Counts of different devices are written in either order. -/
theorem State.setDrawn_comm (s : State) {a b : DevId} (h : a ≠ b) (m n : Nat) :
    (s.setDrawn a m).setDrawn b n = (s.setDrawn b n).setDrawn a m := by
  have h' : a.toNat ≠ b.toNat := fun x => h (BitVec.eq_of_toNat_eq x)
  simp [State.setDrawn, Vector.set_comm _ _ h']

theorem State.setDrawn_setDev (s : State) (a b : DevId) (n : Nat) (d : Option Device) :
    (s.setDrawn a n).setDev b d = (s.setDev b d).setDrawn a n := rfl

@[simp] theorem State.setDrawn_par (s : State) (a : DevId) (n : Nat) : (s.setDrawn a n).par = s.par := rfl
@[simp] theorem State.setDrawn_straps (s : State) (a : DevId) (n : Nat) : (s.setDrawn a n).straps = s.straps := rfl
@[simp] theorem State.setDrawn_keystore (s : State) (a : DevId) (n : Nat) :
    (s.setDrawn a n).keystore = s.keystore := rfl
@[simp] theorem State.setDrawn_dc (s : State) (a : DevId) (n : Nat) : (s.setDrawn a n).dc = s.dc := rfl
@[simp] theorem State.setDrawn_mux (s : State) (a : DevId) (n : Nat) : (s.setDrawn a n).mux = s.mux := rfl
@[simp] theorem State.setDrawn_pdc (s : State) (a : DevId) (n : Nat) : (s.setDrawn a n).pdc = s.pdc := rfl
@[simp] theorem State.setDrawn_draws (s : State) (a : DevId) (n : Nat) :
    (s.setDrawn a n).draws = s.draws.set a.toNat n a.isLt := rfl
@[simp] theorem State.setDrawn_inbox (s : State) (a : DevId) (n : Nat) : (s.setDrawn a n).inbox = s.inbox := rfl
@[simp] theorem State.setDrawn_result (s : State) (a : DevId) (n : Nat) : (s.setDrawn a n).result = s.result := rfl
@[simp] theorem State.setDrawn_dev (s : State) (a b : DevId) (n : Nat) : (s.setDrawn a n).dev b = s.dev b := rfl
@[simp] theorem State.setDrawn_key (s : State) (a b : DevId) (n : Nat) : (s.setDrawn a n).key b = s.key b := rfl

/-! ### The other fields, seen by `dev` and `key` -/

@[simp] theorem State.dev_with_result (s : State) (r : Option Result) (a : DevId) :
    ({ s with result := r } : State).dev a = s.dev a := rfl
@[simp] theorem State.dev_with_pdc (s : State) (p : Pdc) (a : DevId) :
    ({ s with pdc := p } : State).dev a = s.dev a := rfl
@[simp] theorem State.dev_with_mux (s : State) (m : Mux) (a : DevId) :
    ({ s with mux := m } : State).dev a = s.dev a := rfl
@[simp] theorem State.drawn_with_result (s : State) (r : Option Result) (a : DevId) :
    ({ s with result := r } : State).drawn a = s.drawn a := rfl
@[simp] theorem State.drawn_with_pdc (s : State) (p : Pdc) (a : DevId) :
    ({ s with pdc := p } : State).drawn a = s.drawn a := rfl
@[simp] theorem State.drawn_with_mux (s : State) (m : Mux) (a : DevId) :
    ({ s with mux := m } : State).drawn a = s.drawn a := rfl
@[simp] theorem State.dev_with_inbox (s : State) (l : List Request) (a : DevId) :
    ({ s with inbox := l } : State).dev a = s.dev a := rfl
@[simp] theorem State.key_with_result (s : State) (r : Option Result) (a : DevId) :
    ({ s with result := r } : State).key a = s.key a := rfl
@[simp] theorem State.key_with_pdc (s : State) (p : Pdc) (a : DevId) :
    ({ s with pdc := p } : State).key a = s.key a := rfl
@[simp] theorem State.key_with_inbox (s : State) (l : List Request) (a : DevId) :
    ({ s with inbox := l } : State).key a = s.key a := rfl

/-! ### `refuse`, `answer`, `finished` -/

@[simp] theorem State.refuse_par (s : State) (r : RefusalCode) : (s.refuse r).par = s.par := rfl
@[simp] theorem State.refuse_straps (s : State) (r : RefusalCode) : (s.refuse r).straps = s.straps := rfl
@[simp] theorem State.refuse_keystore (s : State) (r : RefusalCode) : (s.refuse r).keystore = s.keystore := rfl
@[simp] theorem State.refuse_dc (s : State) (r : RefusalCode) : (s.refuse r).dc = s.dc := rfl
@[simp] theorem State.refuse_mux (s : State) (r : RefusalCode) : (s.refuse r).mux = s.mux := rfl
@[simp] theorem State.refuse_pdc (s : State) (r : RefusalCode) : (s.refuse r).pdc = s.pdc := rfl
@[simp] theorem State.refuse_draws (s : State) (r : RefusalCode) : (s.refuse r).draws = s.draws := rfl
@[simp] theorem State.refuse_inbox (s : State) (r : RefusalCode) : (s.refuse r).inbox = s.inbox := rfl
@[simp] theorem State.refuse_dev (s : State) (r : RefusalCode) (a : DevId) : (s.refuse r).dev a = s.dev a := rfl
@[simp] theorem State.refuse_key (s : State) (r : RefusalCode) (a : DevId) : (s.refuse r).key a = s.key a := rfl

@[simp] theorem State.answer_par (s : State) (st : Status) (v : Value) : (s.answer st v).par = s.par := rfl
@[simp] theorem State.answer_straps (s : State) (st : Status) (v : Value) : (s.answer st v).straps = s.straps := rfl
@[simp] theorem State.answer_keystore (s : State) (st : Status) (v : Value) :
    (s.answer st v).keystore = s.keystore := rfl
@[simp] theorem State.answer_dc (s : State) (st : Status) (v : Value) : (s.answer st v).dc = s.dc := rfl
@[simp] theorem State.answer_mux (s : State) (st : Status) (v : Value) : (s.answer st v).mux = s.mux := rfl
@[simp] theorem State.answer_pdc (s : State) (st : Status) (v : Value) : (s.answer st v).pdc = s.pdc := rfl
@[simp] theorem State.answer_draws (s : State) (st : Status) (v : Value) : (s.answer st v).draws = s.draws := rfl
@[simp] theorem State.answer_inbox (s : State) (st : Status) (v : Value) : (s.answer st v).inbox = s.inbox := rfl
@[simp] theorem State.answer_dev (s : State) (st : Status) (v : Value) (a : DevId) :
    (s.answer st v).dev a = s.dev a := rfl

@[simp] theorem State.finished_par (s : State) (f : List Bytes) (n : List Note) : (s.finished f n).par = s.par := rfl
@[simp] theorem State.finished_mux (s : State) (f : List Bytes) (n : List Note) : (s.finished f n).mux = s.mux := rfl
@[simp] theorem State.finished_pdc (s : State) (f : List Bytes) (n : List Note) : (s.finished f n).pdc = s.pdc := rfl
@[simp] theorem State.finished_draws (s : State) (f : List Bytes) (n : List Note) :
    (s.finished f n).draws = s.draws := rfl
@[simp] theorem State.finished_inbox (s : State) (f : List Bytes) (n : List Note) :
    (s.finished f n).inbox = s.inbox := rfl
@[simp] theorem State.finished_dev (s : State) (f : List Bytes) (n : List Note) (a : DevId) :
    (s.finished f n).dev a = s.dev a := rfl
@[simp] theorem State.finished_key (s : State) (f : List Bytes) (n : List Note) (a : DevId) :
    (s.finished f n).key a = s.key a := rfl

/-! ### `putWork` -/

@[simp] theorem State.putWork_par (s : State) (i : DevId) (w : Work Device) : (s.putWork i w).par = s.par := rfl
@[simp] theorem State.putWork_straps (s : State) (i : DevId) (w : Work Device) :
    (s.putWork i w).straps = s.straps := rfl
@[simp] theorem State.putWork_keystore (s : State) (i : DevId) (w : Work Device) :
    (s.putWork i w).keystore = s.keystore := rfl
@[simp] theorem State.putWork_mux (s : State) (i : DevId) (w : Work Device) : (s.putWork i w).mux = s.mux := rfl
@[simp] theorem State.putWork_pdc (s : State) (i : DevId) (w : Work Device) : (s.putWork i w).pdc = s.pdc := rfl
@[simp] theorem State.putWork_drawn (s : State) (i : DevId) (w : Work Device) :
    (s.putWork i w).drawn i = w.draws := State.drawn_setDrawn_same _ _ _
@[simp] theorem State.putWork_inbox (s : State) (i : DevId) (w : Work Device) : (s.putWork i w).inbox = s.inbox := rfl
theorem State.putWork_dev (s : State) (i b : DevId) (w : Work Device) :
    (s.putWork i w).dev b = if b = i then some w.ctx else s.dev b :=
  State.dev_setDev s i b (some w.ctx)

/-! ### The environment of a procedure -/

@[simp] theorem State.cpEnv_par (s : State) (i : DevId) : (s.cpEnv i).par = s.par := rfl
@[simp] theorem State.cpEnv_id (s : State) (i : DevId) : (s.cpEnv i).id = i := rfl
@[simp] theorem State.cpEnv_key (s : State) (i : DevId) : (s.cpEnv i).key = s.key i := rfl
@[simp] theorem State.pdEnv_par (s : State) : s.pdEnv.par = s.par := rfl
@[simp] theorem State.pdEnv_id (s : State) : s.pdEnv.id = s.par.myAddr := rfl
@[simp] theorem State.pdEnv_key (s : State) : s.pdEnv.key = s.key s.par.myAddr := rfl

/-! ### The work of a procedure -/

@[simp] theorem Work.start_ctx {σ : Type} (c : σ) (n : Nat) : (Work.start c n).ctx = c := rfl
@[simp] theorem Work.start_draws {σ : Type} (c : σ) (n : Nat) : (Work.start c n).draws = n := rfl
@[simp] theorem Work.start_frames {σ : Type} (c : σ) (n : Nat) : (Work.start c n).frames = [] := rfl
@[simp] theorem Work.start_notes {σ : Type} (c : σ) (n : Nat) : (Work.start c n).notes = [] := rfl
@[simp] theorem Work.note_ctx {σ : Type} (w : Work σ) (n : Note) : (w.note n).ctx = w.ctx := rfl
@[simp] theorem Work.note_draws {σ : Type} (w : Work σ) (n : Note) : (w.note n).draws = w.draws := rfl
@[simp] theorem Work.note_frames {σ : Type} (w : Work σ) (n : Note) : (w.note n).frames = w.frames := rfl
@[simp] theorem Work.note_notes {σ : Type} (w : Work σ) (n : Note) : (w.note n).notes = w.notes ++ [n] := rfl
@[simp] theorem Work.emit_ctx {σ : Type} (w : Work σ) (f : Bytes) : (w.emit f).ctx = w.ctx := rfl
@[simp] theorem Work.emit_draws {σ : Type} (w : Work σ) (f : Bytes) : (w.emit f).draws = w.draws := rfl
@[simp] theorem Work.emit_frames {σ : Type} (w : Work σ) (f : Bytes) : (w.emit f).frames = w.frames ++ [f] := rfl
@[simp] theorem Work.emit_notes {σ : Type} (w : Work σ) (f : Bytes) : (w.emit f).notes = w.notes := rfl
@[simp] theorem Work.done_work {σ : Type} (w : Work σ) : w.done.work = w := rfl
@[simp] theorem Work.done_stop {σ : Type} (w : Work σ) : w.done.stop = none := rfl
@[simp] theorem Work.stopped_work {σ : Type} (w : Work σ) (x : Stop) : (w.stopped x).work = w := rfl
@[simp] theorem Work.stopped_stop {σ : Type} (w : Work σ) (x : Stop) : (w.stopped x).stop = some x := rfl
@[simp] theorem Work.done_andThen {σ : Type} (w : Work σ) (f : Work σ → Done σ) : w.done.andThen f = f w := rfl
@[simp] theorem Work.stopped_andThen {σ : Type} (w : Work σ) (x : Stop) (f : Work σ → Done σ) :
    (w.stopped x).andThen f = w.stopped x := rfl

/-- A stop with its note is a stop. -/
theorem Work.stoppedNoting_eq {σ : Type} (mk : ErrorCode → Note) (w : Work σ) (x : Stop) :
    w.stoppedNoting mk x = (w.stoppedNoting mk x).work.stopped x := by cases x <;> rfl
@[simp] theorem Work.stoppedNoting_stop {σ : Type} (mk : ErrorCode → Note) (w : Work σ) (x : Stop) :
    (w.stoppedNoting mk x).stop = some x := by cases x <;> rfl
@[simp] theorem Work.stoppedNoting_ctx {σ : Type} (mk : ErrorCode → Note) (w : Work σ) (x : Stop) :
    (w.stoppedNoting mk x).work.ctx = w.ctx := by cases x <;> rfl
@[simp] theorem Work.stoppedNoting_draws {σ : Type} (mk : ErrorCode → Note) (w : Work σ) (x : Stop) :
    (w.stoppedNoting mk x).work.draws = w.draws := by cases x <;> rfl
@[simp] theorem Work.stoppedNoting_frames {σ : Type} (mk : ErrorCode → Note) (w : Work σ) (x : Stop) :
    (w.stoppedNoting mk x).work.frames = w.frames := by cases x <;> rfl
@[simp] theorem Work.stoppedNoting_andThen {σ : Type} (mk : ErrorCode → Note) (w : Work σ) (x : Stop)
    (f : Work σ → Done σ) : (w.stoppedNoting mk x).andThen f = w.stoppedNoting mk x := by cases x <;> rfl

end Sys2Proof.Machine
end

