-- ==== Sys2Proof/Laws/Ops.lean ====
section
/-! SUPPORT. Laws of the shared operations: what an operand check can answer, how an operation can end, and how a
property passes through a sequence of verdicts. -/

namespace Sys2Proof.Machine

/-! ### Operands -/

@[simp] theorem devIdOf_toNat (i : DevId) : devIdOf i.toNat = some i := by
  have : i.toNat ≤ 127 := by have := i.isLt; omega
  simp [devIdOf, this]

theorem devIdOf_eq_some {a : Nat} {i : DevId} : devIdOf a = some i ↔ a = i.toNat := by
  constructor
  · intro h
    unfold devIdOf at h
    split at h
    · cases h; simp; omega
    · cases h
  · rintro rfl; simp

theorem devIdOf_eq_none {a : Nat} : devIdOf a = none ↔ 127 < a := by
  unfold devIdOf; split <;> simp <;> omega

@[simp] theorem codeOf_toNat (t : Byte) : codeOf t.toNat = some t := by
  have : t.toNat ≤ 255 := by have := t.isLt; omega
  simp [codeOf, this]

theorem codeOf_eq_some {a : Nat} {t : Byte} : codeOf a = some t ↔ a = t.toNat := by
  constructor
  · intro h
    unfold codeOf at h
    split at h
    · cases h; simp; omega
    · cases h
  · rintro rfl; simp

theorem requireCp_cp {s : State} (h : s.par.role = .cp) : requireCp s = .ok () := by simp [requireCp, h]
theorem requireCp_pd {s : State} (h : s.par.role = .pd) : requireCp s = .error .wrongRole := by simp [requireCp, h]
theorem requirePd_pd {s : State} (h : s.par.role = .pd) : requirePd s = .ok () := by simp [requirePd, h]
theorem requirePd_cp {s : State} (h : s.par.role = .cp) : requirePd s = .error .wrongRole := by simp [requirePd, h]

theorem cpId_pd {s : State} (h : s.par.role = .pd) (a : Nat) : cpId s a = .error .wrongRole := by
  simp [cpId, requireCp_pd h]

theorem cpId_big {s : State} (h : s.par.role = .cp) {a : Nat} (ha : 127 < a) : cpId s a = .error .badOperand := by
  simp [cpId, requireCp_cp h, devIdOf_eq_none.mpr ha]

theorem cpId_toNat {s : State} (h : s.par.role = .cp) (i : DevId) : cpId s i.toNat = .ok i := by
  simp [cpId, requireCp_cp h]

/-- The id an operand check lets through is the one the operand names. -/
theorem cpId_ok {s : State} {a : Nat} {i : DevId} (h : cpId s a = .ok i) : s.par.role = .cp ∧ a = i.toNat := by
  unfold cpId at h
  cases hr : s.par.role with
  | pd => rw [requireCp_pd hr] at h; cases h
  | cp =>
    rw [requireCp_cp hr] at h
    cases hd : devIdOf a with
    | none => rw [hd] at h; cases h
    | some j => rw [hd] at h; cases h; exact ⟨rfl, devIdOf_eq_some.mp hd⟩

theorem cpDevice_pd {s : State} (h : s.par.role = .pd) (a : Nat) : cpDevice s a = .error .wrongRole := by
  simp [cpDevice, cpId_pd h]

theorem cpDevice_big {s : State} (h : s.par.role = .cp) {a : Nat} (ha : 127 < a) :
    cpDevice s a = .error .badOperand := by simp [cpDevice, cpId_big h ha]

theorem cpDevice_none {s : State} (h : s.par.role = .cp) {i : DevId} (hd : s.dev i = none) :
    cpDevice s i.toNat = .error .noSuchDevice := by simp [cpDevice, cpId_toNat h, hd]

theorem cpDevice_some {s : State} (h : s.par.role = .cp) {i : DevId} {d : Device} (hd : s.dev i = some d) :
    cpDevice s i.toNat = .ok (i, d) := by simp [cpDevice, cpId_toNat h, hd]

/-- The context an operand check lets through is the one the operand names. -/
theorem cpDevice_ok {s : State} {a : Nat} {i : DevId} {d : Device} (h : cpDevice s a = .ok (i, d)) :
    s.par.role = .cp ∧ a = i.toNat ∧ s.dev i = some d := by
  unfold cpDevice at h
  cases hi : cpId s a with
  | error r => rw [hi] at h; cases h
  | ok j =>
    rw [hi] at h
    dsimp only at h
    cases hd : s.dev j with
    | none => rw [hd] at h; cases h
    | some e => rw [hd] at h; cases h; exact ⟨(cpId_ok hi).1, (cpId_ok hi).2, hd⟩

/-! ### How an operation ends -/

/-- An operation that ends in a next state either was refused and changed nothing, or keeps its writes under a record
that is no refusal. -/
theorem finish_next {s0 s1 t : State} {stop : Option Stop} {fs : List Bytes} {ns : List Note} {ov ev : Value}
    (h : finish s0 s1 stop fs ns ov ev = .next t) :
    (∃ r, stop = some (.refuse r) ∧ t = s0.refuse r) ∨
    (∃ r : Result, (∀ x, r.status ≠ .refused x) ∧ r.frames = fs ∧ r.notes = ns ∧
      t = { s1 with result := some r } ∧ (∀ x, stop ≠ some (.refuse x))) := by
  unfold finish at h
  split at h <;> cases h
  · exact .inr ⟨_, by simp, rfl, rfl, rfl, by simp⟩
  · exact .inr ⟨_, by simp, rfl, rfl, rfl, by simp⟩
  · exact .inl ⟨_, rfl, rfl⟩

/-- An operation ends in a next state with a record unless its procedure ended in a fault. -/
theorem finish_answers (s0 s1 : State) {stop : Option Stop} (fs : List Bytes) (ns : List Note) (ov ev : Value)
    (h : ∀ f, stop ≠ some (.fault f)) :
    ∃ (t : State) (r : Result), finish s0 s1 stop fs ns ov ev = .next t ∧ t.result = some r := by
  unfold finish
  split
  · exact ⟨_, _, rfl, rfl⟩
  · exact ⟨_, _, rfl, rfl⟩
  · exact ⟨_, _, rfl, rfl⟩
  · exact absurd rfl (h _)

/-! ### Sequences of procedures -/

/-- A property every part keeps is kept by the sequence. -/
theorem Done.andThen_work {σ : Type} {P : Work σ → Prop} {x : Done σ} {f : Work σ → Done σ} (hx : P x.work)
    (hf : ∀ w, P w → P (f w).work) : P (x.andThen f).work := by
  unfold Done.andThen
  split
  · exact hf _ hx
  · exact hx

/-- A property every verdict keeps is kept by handling a list of them. -/
theorem eachVerdict_work {σ : Type} {P : Work σ → Prop} {f : Verdict → Work σ → Done σ}
    (hf : ∀ v w, P w → P (f v w).work) : ∀ (vs : List Verdict) (w : Work σ), P w → P (eachVerdict f vs w).work
  | [], _, hw => hw
  | v :: vs, w, hw => Done.andThen_work (hf v w hw) (eachVerdict_work hf vs)

/-- A stop handling a list of verdicts can end in is one a verdict can end in, under the property they keep. -/
theorem eachVerdict_stop {σ : Type} {P : Work σ → Prop} {Q : Stop → Prop} {f : Verdict → Work σ → Done σ}
    (hf : ∀ v w, P w → P (f v w).work) (hs : ∀ v w, P w → ∀ x, (f v w).stop = some x → Q x) :
    ∀ (vs : List Verdict) (w : Work σ), P w → ∀ x, (eachVerdict f vs w).stop = some x → Q x
  | [], _, _, _, h => by cases h
  | v :: vs, w, hw, x, h => by
    unfold eachVerdict Done.andThen at h
    split at h
    · exact eachVerdict_stop hf hs vs _ (hf v w hw) x h
    · exact hs v w hw x h

@[simp] theorem eachVerdict_nil {σ : Type} (f : Verdict → Work σ → Done σ) (w : Work σ) :
    eachVerdict f [] w = w.done := rfl

@[simp] theorem eachVerdict_one {σ : Type} (f : Verdict → Work σ → Done σ) (v : Verdict) (w : Work σ) :
    eachVerdict f [v] w = f v w := by
  unfold eachVerdict Done.andThen
  cases h : f v w with
  | mk w' st => cases st <;> rfl

end Sys2Proof.Machine
end

