-- ==== Sys2Proof/Laws/Codec.lean ====
section
/-! SUPPORT. Laws of the frame layout: what each field function reads from the bytes of a frame (R80 to R90). -/

namespace Sys2Proof

/-! ### Bytes and bit fields -/

theorem addrByte_mbl (m : Bool) (d : DevId) : (addrByte m d).getLsbD 7 = m := by
  revert d; cases m <;> decide +kernel

theorem addrByte_devid (m : Bool) (d : DevId) : (addrByte m d).extractLsb' 0 7 = d := by
  revert d; cases m <;> decide +kernel

theorem ctrlByte_crc (r : BitVec 4) (s c : Bool) (q : Seq) : (ctrlByte r s c q).getLsbD 2 = c := by
  revert r s c q; decide +kernel

theorem ctrlByte_sec (r : BitVec 4) (s c : Bool) (q : Seq) : (ctrlByte r s c q).getLsbD 3 = s := by
  revert r s c q; decide +kernel

theorem ctrlByte_sqn (r : BitVec 4) (s c : Bool) (q : Seq) : (ctrlByte r s c q).extractLsb' 0 2 = q := by
  revert r s c q; decide +kernel

theorem ctrlByte_rsv (r : BitVec 4) (s c : Bool) (q : Seq) : (ctrlByte r s c q).extractLsb' 4 4 = r := by
  revert r s c q; decide +kernel

@[simp] theorem le16_length (v : BitVec 16) : (le16 v).length = 2 := rfl

theorem word16_le16 (v : BitVec 16) : word16 (v.extractLsb' 0 8) (v.extractLsb' 8 8) = v := by
  apply BitVec.eq_of_toNat_eq
  simp only [word16, BitVec.toNat_append, BitVec.extractLsb'_toNat, Nat.shiftRight_eq_div_pow]
  have := v.isLt
  rw [← Nat.shiftLeft_add_eq_or_of_lt (by omega)]
  simp only [Nat.shiftLeft_eq]
  omega

@[simp] theorem lenField_length (m : Bool) (n : Nat) : (lenField m n).length = 1 + m.toNat := by cases m <;> rfl

/-- The largest length the `LEN` field of a format holds (R82). -/
def lenMax (mbl : Bool) : Nat := if mbl then 65535 else 255

theorem leNat_lenField (m : Bool) {n : Nat} (h : n ≤ lenMax m) : leNat (lenField m n) = n := by
  cases m
  · simp [lenMax] at h
    simp [lenField, leNat]; omega
  · simp [lenMax] at h
    simp only [lenField, le16, leNat, if_true, BitVec.extractLsb'_toNat, BitVec.toNat_ofNat,
      Nat.shiftRight_eq_div_pow]
    omega

/-! ### The layout of a frame followed by anything -/

@[simp] theorem frameBytes_length (m c : Bool) (f : FrameBody) :
    (frameBytes m c f).length = 4 + m.toNat + f.payload.length := by
  simp [frameBytes]; omega

theorem mblOf_frame (m c : Bool) (f : FrameBody) (t : Bytes) : mblOf (frameBytes m c f ++ t) = m := by
  simpa [mblOf, frameBytes] using addrByte_mbl m f.devid

theorem devidOf_frame (m c : Bool) (f : FrameBody) (t : Bytes) : devidOf (frameBytes m c f ++ t) = f.devid := by
  simp [devidOf, frameBytes, addrByte_devid]

theorem ctrlOf_frame (m c : Bool) (f : FrameBody) (t : Bytes) :
    ctrlOf (frameBytes m c f ++ t) = ctrlByte f.rsv f.sec c f.sqn := by
  unfold ctrlOf
  rw [mblOf_frame]
  cases m <;> simp [frameBytes, lenField, le16]

theorem crcOf_frame (m c : Bool) (f : FrameBody) (t : Bytes) : crcOf (frameBytes m c f ++ t) = c := by
  rw [crcOf, ctrlOf_frame, ctrlByte_crc]

theorem typeOf_frame (m c : Bool) (f : FrameBody) (t : Bytes) : typeOf (frameBytes m c f ++ t) = f.type := by
  unfold typeOf
  rw [mblOf_frame]
  cases m <;> simp [frameBytes, lenField, le16]

theorem lenOf_frame (m c : Bool) (f : FrameBody) (t : Bytes) (h : f.payload.length ≤ lenMax m) :
    lenOf (frameBytes m c f ++ t) = f.payload.length := by
  unfold lenOf
  rw [mblOf_frame]
  have : slice (frameBytes m c f ++ t) 1 (2 + m.toNat) = lenField m f.payload.length := by
    cases m <;> simp [slice, frameBytes, lenField, le16]
  rw [this, leNat_lenField m h]

theorem totalOf_frame (m c : Bool) (f : FrameBody) (t : Bytes) (h : f.payload.length ≤ lenMax m) :
    totalOf (frameBytes m c f ++ t) = 4 + m.toNat + f.payload.length + 1 + c.toNat := by
  rw [totalOf, lenOf_frame m c f t h, mblOf_frame, crcOf_frame]

theorem payloadOf_frame (m c : Bool) (f : FrameBody) (t : Bytes) (h : f.payload.length ≤ lenMax m) :
    payloadOf (frameBytes m c f ++ t) = f.payload := by
  unfold payloadOf
  rw [lenOf_frame m c f t h, mblOf_frame]
  cases m <;> simp [slice, frameBytes, lenField, le16]

theorem frameBodyOf_frame (m c : Bool) (f : FrameBody) (t : Bytes) (h : f.payload.length ≤ lenMax m) :
    frameBodyOf (frameBytes m c f ++ t) = f := by
  simp only [frameBodyOf, devidOf_frame, ctrlOf_frame, typeOf_frame, payloadOf_frame m c f t h, ctrlByte_rsv,
    ctrlByte_sec, ctrlByte_sqn]

/-! ### Beginnings of a frame -/

/-- A beginning that holds the address byte has its `MBL` (R81). -/
theorem mblOf_take {n : Nat} (h : 1 ≤ n) (b : Bytes) : mblOf (b.take n) = mblOf b := by
  cases b with
  | nil => simp
  | cons x b =>
    obtain ⟨n, rfl⟩ : ∃ k, n = k + 1 := ⟨n - 1, by omega⟩
    simp [mblOf]

theorem getD_take {n k : Nat} (h : k < n) (b : Bytes) (x : Byte) : (b.take n).getD k x = b.getD k x := by
  simp [List.getD_eq_getElem?_getD, h]

/-- A beginning that holds the length field has the frame's length (R82). -/
theorem lenOf_take {n : Nat} (b : Bytes) (h : 2 + (mblOf b).toNat ≤ n) : lenOf (b.take n) = lenOf b := by
  unfold lenOf
  rw [mblOf_take (by omega)]
  unfold slice
  rw [List.drop_take, List.take_take]
  congr 2
  omega

/-- A beginning that holds the control byte has the frame's check kind (R83). -/
theorem crcOf_take {n : Nat} (b : Bytes) (h : 3 + (mblOf b).toNat ≤ n) : crcOf (b.take n) = crcOf b := by
  unfold crcOf ctrlOf
  rw [mblOf_take (by omega), getD_take (by omega)]

theorem totalOf_take {n : Nat} (b : Bytes) (h : 4 + (mblOf b).toNat ≤ n) : totalOf (b.take n) = totalOf b := by
  rw [totalOf, totalOf, mblOf_take (by omega), lenOf_take b (by omega), crcOf_take b (by omega)]

namespace Machine

/-! ### The verdict of a frame -/

@[simp] theorem checkBytes_length (par : Params) (c : Bool) (b : Bytes) :
    (checkBytes par c b).length = 1 + c.toNat := by cases c <;> rfl

theorem bodyOf_frame (m c : Bool) (f : FrameBody) (t : Bytes) (h : f.payload.length ≤ lenMax m) :
    bodyOf (frameBytes m c f ++ t) = frameBytes m c f := by
  unfold bodyOf slice
  rw [totalOf_frame m c f t h, crcOf_frame]
  simp only [List.drop_zero, Nat.sub_zero]
  rw [List.take_append_of_le_length (by simp), List.take_of_length_le (by simp)]

theorem checkOf_frame (m c : Bool) (f : FrameBody) (k t : Bytes) (h : f.payload.length ≤ lenMax m)
    (hk : k.length = 1 + c.toNat) : checkOf (frameBytes m c f ++ k ++ t) = k := by
  rw [List.append_assoc]
  unfold checkOf slice
  rw [totalOf_frame m c f _ h, crcOf_frame]
  have e : 4 + m.toNat + f.payload.length + 1 + c.toNat - 1 - c.toNat = (frameBytes m c f).length := by simp
  rw [e, List.drop_left, List.take_append_of_le_length (by simp; omega), List.take_of_length_le (by simp; omega)]

/-- What the fields of a frame body are as a packet: the reserved bits dropped (R91). -/
def packetOfBody (m c : Bool) (f : FrameBody) : Packet :=
  { devid := f.devid, mbl := m, sqn := f.sqn, crc := c, sec := f.sec, type := f.type, payload := f.payload }

theorem packetOf_frame (m c : Bool) (f : FrameBody) (t : Bytes) (h : f.payload.length ≤ lenMax m) :
    packetOf (frameBytes m c f ++ t) = packetOfBody m c f := by
  simp only [packetOf, packetOfBody, devidOf_frame, mblOf_frame, ctrlOf_frame, crcOf_frame, typeOf_frame,
    payloadOf_frame m c f t h, ctrlByte_sec, ctrlByte_sqn]

@[simp] theorem packetOfBody_packetBody (q : Packet) : packetOfBody q.mbl q.crc (packetBody q) = q := rfl

/-- The verdict of a whole frame followed by anything: the check decides, or the excess when it must be exact (R111). -/
theorem verdict_frame (par : Params) (m c : Bool) (f : FrameBody) (k t : Bytes) (exact : Bool)
    (h : f.payload.length ≤ lenMax m) (hp : f.payload.length ≤ par.maxPayload) (hk : k.length = 1 + c.toNat)
    (ht : exact = true → t = []) :
    verdict par (frameBytes m c f ++ k ++ t) exact =
      if k = checkBytes par c (frameBytes m c f) then .packet (packetOfBody m c f) else .error .checksumInvalid := by
  have hl : (frameBytes m c f ++ k ++ t).length = 4 + m.toNat + f.payload.length + 1 + c.toNat + t.length := by
    simp [hk]; omega
  have hlen : lenOf (frameBytes m c f ++ k ++ t) = f.payload.length := by
    rw [List.append_assoc]; exact lenOf_frame m c f _ h
  have htot : totalOf (frameBytes m c f ++ k ++ t) = 4 + m.toNat + f.payload.length + 1 + c.toNat := by
    rw [List.append_assoc]; exact totalOf_frame m c f _ h
  have hm : mblOf (frameBytes m c f ++ k ++ t) = m := by rw [List.append_assoc]; exact mblOf_frame m c f _
  have hc : crcOf (frameBytes m c f ++ k ++ t) = c := by rw [List.append_assoc]; exact crcOf_frame m c f _
  have hb : bodyOf (frameBytes m c f ++ k ++ t) = frameBytes m c f := by
    rw [List.append_assoc]; exact bodyOf_frame m c f _ h
  have hpk : packetOf (frameBytes m c f ++ k ++ t) = packetOfBody m c f := by
    rw [List.append_assoc]; exact packetOf_frame m c f _ h
  have hx : ¬ (exact = true ∧ totalOf (frameBytes m c f ++ k ++ t) < (frameBytes m c f ++ k ++ t).length) := by
    rintro ⟨he, hlt⟩
    rw [htot, hl, ht he] at hlt
    simp at hlt
  unfold verdict
  rw [if_neg (by omega), hm, if_neg (by omega), hlen, if_neg (by omega), if_neg (by omega), htot, if_neg (by omega),
    if_neg (by rw [htot] at hx; exact hx), checkOf_frame m c f k t h hk, hc, hb, hpk]
  by_cases e : k = checkBytes par c (frameBytes m c f) <;> simp [e]

/-- Every proper beginning of a frame is `Truncated`, exact or not (R111). -/
theorem verdict_take (par : Params) (m c : Bool) (f : FrameBody) (k : Bytes) (exact : Bool) (n : Nat)
    (h : f.payload.length ≤ lenMax m) (hp : f.payload.length ≤ par.maxPayload) (hk : k.length = 1 + c.toNat)
    (hn : n < 4 + m.toNat + f.payload.length + 1 + c.toNat) :
    verdict par ((frameBytes m c f ++ k).take n) exact = .error .truncated := by
  have hl : ((frameBytes m c f ++ k).take n).length = n := by simp [hk]; omega
  have hm := mblOf_frame m c f k
  unfold verdict
  rw [hl]
  split
  · rfl
  · rw [mblOf_take (by omega), hm]
    split
    · rfl
    · rw [lenOf_take _ (by rw [hm]; omega), lenOf_frame m c f k h, if_neg (by omega)]
      split
      · rfl
      · rw [totalOf_take _ (by rw [hm]; omega), totalOf_frame m c f k h, if_pos (by omega)]

/-- A frame with bytes after it is no exact frame (R111 step 6). -/
theorem verdict_overlong (par : Params) (m c : Bool) (f : FrameBody) (k t : Bytes)
    (h : f.payload.length ≤ lenMax m) (hp : f.payload.length ≤ par.maxPayload) (hk : k.length = 1 + c.toNat)
    (ht : t ≠ []) : verdict par (frameBytes m c f ++ k ++ t) true = .error .lengthMismatch := by
  have ht' : 0 < t.length := List.length_pos_of_ne_nil ht
  have hl : (frameBytes m c f ++ k ++ t).length = 4 + m.toNat + f.payload.length + 1 + c.toNat + t.length := by
    simp [hk]; omega
  have hlen : lenOf (frameBytes m c f ++ k ++ t) = f.payload.length := by
    rw [List.append_assoc]; exact lenOf_frame m c f _ h
  have htot : totalOf (frameBytes m c f ++ k ++ t) = 4 + m.toNat + f.payload.length + 1 + c.toNat := by
    rw [List.append_assoc]; exact totalOf_frame m c f _ h
  have hm : mblOf (frameBytes m c f ++ k ++ t) = m := by rw [List.append_assoc]; exact mblOf_frame m c f _
  unfold verdict
  rw [if_neg (by omega), hm, if_neg (by omega), hlen, if_neg (by omega), if_neg (by omega), htot, if_neg (by omega),
    if_pos ⟨rfl, by omega⟩]

/-! ### Feeding -/

/-- Feeding the rest of a frame of which a proper beginning stands in the accumulator gives one verdict and empties it
(R113). -/
theorem feed_frame_from (par : Params) (m c : Bool) (f : FrameBody) (k : Bytes) (h : f.payload.length ≤ lenMax m)
    (hp : f.payload.length ≤ par.maxPayload) (hk : k.length = 1 + c.toNat) : ∀ (r rx : Bytes), r ≠ [] →
    rx ++ r = frameBytes m c f ++ k → feed par rx r = ([verdict par (frameBytes m c f ++ k) false], [])
  | [], _, hr, _ => absurd rfl hr
  | [x], rx, _, e => by
    have hv := verdict_frame par m c f k [] false h hp hk (by simp)
    rw [List.append_nil] at hv
    simp only [feed, e]
    rw [if_neg (by rw [hv]; split <;> simp)]
  | x :: y :: r, rx, _, e => by
    have hlen : (rx ++ x :: y :: r).length = (frameBytes m c f ++ k).length := by rw [e]
    have ht : rx ++ [x] = (frameBytes m c f ++ k).take (rx.length + 1) := by
      rw [← e]; simp [List.take_append]
    have hv : verdict par (rx ++ [x]) false = .error .truncated := by
      rw [ht]
      apply verdict_take par m c f k false _ h hp hk
      simp [hk] at hlen
      omega
    unfold feed
    simp only [hv, if_true]
    exact feed_frame_from par m c f k h hp hk (y :: r) (rx ++ [x]) (by simp) (by simpa using e)

/-- Feeding one whole frame to an empty accumulator gives its verdict and leaves the accumulator empty (R113). -/
theorem feed_frame (par : Params) (m c : Bool) (f : FrameBody) (k : Bytes) (h : f.payload.length ≤ lenMax m)
    (hp : f.payload.length ≤ par.maxPayload) (hk : k.length = 1 + c.toNat) :
    feed par [] (frameBytes m c f ++ k) =
      ([if k = checkBytes par c (frameBytes m c f) then .packet (packetOfBody m c f) else .error .checksumInvalid],
       []) := by
  have hv := verdict_frame par m c f k [] false h hp hk (by simp)
  rw [List.append_nil] at hv
  rw [feed_frame_from par m c f k h hp hk _ [] (by intro e; have := congrArg List.length e; simp at this) (by simp), hv]

/-- What a valid packet says of its length (R14). -/
theorem packetValid_iff {par : Params} {q : Packet} (hmax : par.maxPayload ≤ 65535) :
    packetValid par q = true ↔ q.payload.length ≤ par.maxPayload ∧ q.payload.length ≤ lenMax q.mbl := by
  unfold packetValid lenMax
  cases q.mbl with
  | false => simp
  | true => simp; omega

/-- The frame of a valid packet, fed to an empty accumulator, gives exactly that packet (R115). -/
theorem feed_frameOf {par : Params} {q : Packet} (hmax : par.maxPayload ≤ 65535) (hq : packetValid par q = true) :
    feed par [] (frameOf par q) = ([.packet q], []) := by
  have ⟨hp, hl⟩ := (packetValid_iff hmax).mp hq
  unfold frameOf
  rw [feed_frame par q.mbl q.crc (packetBody q) _ hl hp (by simp), if_pos rfl, packetOfBody_packetBody]

/-- No verdict a feed gives is `Truncated` (R113). -/
theorem feed_not_truncated (par : Params) : ∀ (cs rx : Bytes), .error .truncated ∉ (feed par rx cs).1
  | [], _ => by simp [feed]
  | c :: cs, rx => by
    unfold feed
    dsimp only
    split
    · exact feed_not_truncated par cs _
    · intro h
      rcases List.mem_cons.mp h with h | h
      · exact absurd h.symm ‹_›
      · exact feed_not_truncated par cs _ h

/-- What a feed leaves is an unfinished frame if it began with one (R113). -/
theorem feed_pending (par : Params) : ∀ (cs rx : Bytes), Pending par rx → Pending par (feed par rx cs).2
  | [], _, h => h
  | c :: cs, rx, _ => by
    unfold feed
    dsimp only
    split
    · exact feed_pending par cs _ ‹_›
    · exact feed_pending par cs [] rfl

end Machine

end Sys2Proof
end

