-- ==== Sys2Proof/Laws/Channel.lean ====
section
/-! SUPPORT. Laws of the secure channel: what its procedures leave in the registers, and that they keep the agreement of
key material and state. -/

namespace Sys2Proof.Machine

/-! ### Lengths -/

@[simp] theorem bytesFrom_length (n : Nat) (f : Nat → Byte) : (bytesFrom n f).length = n := by simp [bytesFrom]

@[simp] theorem drawBytes_length (a : DevId) (n k : Nat) : (drawBytes a n k).length = n := by simp [drawBytes]

theorem paramsOk_suite {par : Params} (h : paramsOk par = true) :
    par.suite = .vendor ∨ (par.skeyLen = 2 ∧ par.cryptoLen = 4 ∧ par.macLen = 2) := by
  unfold paramsOk at h
  simp only [Bool.and_eq_true, Bool.or_eq_true, beq_iff_eq] at h
  tauto

theorem mac_length {par : Params} (h : paramsOk par = true) (k c : Bytes) : (mac par k c).length = par.macLen := by
  unfold mac
  cases hs : par.suite with
  | vendor => simp
  | toyT0 =>
    have := paramsOk_suite h
    simp only [hs, reduceCtorEq, false_or] at this
    simp [t0Crc, this]

theorem cgramCp_length {par : Params} (h : paramsOk par = true) (k a b : Bytes) :
    (cgramCp par k a b).length = par.cryptoLen := by
  unfold cgramCp
  cases hs : par.suite with
  | vendor => simp
  | toyT0 =>
    have := paramsOk_suite h
    simp only [hs, reduceCtorEq, false_or] at this
    simp [t0Crc, this]

theorem cgramPd_length {par : Params} (h : paramsOk par = true) (k a b : Bytes) :
    (cgramPd par k a b).length = par.cryptoLen := by
  unfold cgramPd
  cases hs : par.suite with
  | vendor => simp
  | toyT0 =>
    have := paramsOk_suite h
    simp only [hs, reduceCtorEq, false_or] at this
    simp [t0Crc, this]

/-- What the checks of R9 say of lengths and of the type codes. -/
theorem paramsOk_facts {par : Params} (h : paramsOk par = true) :
    par.maxPayload ≤ 65535 ∧ 1 ≤ par.retryMax ∧ par.cpCaps.length = par.capsLen ∧ par.tPoll ≠ par.tChlng ∧
    par.tPoll ≠ par.tScrypt ∧ par.tChlng ≠ par.tScrypt ∧ par.chalLen + par.capsLen ≤ par.maxPayload ∧
    par.chalLen + par.cryptoLen ≤ par.maxPayload ∧ par.cryptoLen ≤ par.maxPayload ∧ par.macLen ≤ par.maxPayload := by
  unfold paramsOk at h
  simp only [Bool.and_eq_true, Bool.or_eq_true, beq_iff_eq, decide_eq_true_eq, bne_iff_ne] at h
  tauto

/-- A secure poll always fits (R9). -/
theorem paramsOk_securePollFits {par : Params} (h : paramsOk par = true) : SecurePollFits par := by
  have hm := (paramsOk_facts h).2.2.2.2.2.2.2.2.2
  intro k
  unfold enc
  cases par.suite with
  | vendor => simp only [List.isEmpty_nil, if_true, List.length_take]; omega
  | toyT0 => simpa [t0Xor] using hm

/-- What a good configuration says of the parameters and of one key (R9, R27). -/
theorem configOk_iff {s : State} {par : Params} : s.configOk par = true ↔
    paramsOk par = true ∧ ∀ a k, s.key a = some k → k.length = par.keyLen := by
  simp only [State.configOk, Bool.and_eq_true, keysOk, List.all_eq_true, Vector.mem_toList_iff]
  refine and_congr_right fun _ => ⟨fun h a k e => ?_, fun h x hx => ?_⟩
  · have := h _ (Vector.getElem_mem a.isLt)
    rw [show s.keystore[a.toNat] = some k from e] at this
    simpa using this
  · obtain ⟨n, hn, rfl⟩ := Vector.getElem_of_mem hx
    cases hk : s.keystore[n] with
    | none => rfl
    | some k => simpa using h (BitVec.ofNat 7 n) k (by simpa [State.key, Nat.mod_eq_of_lt hn] using hk)

/-! ### The registers after `set_sc`, `SC_RESET` and `SC_BREAK` -/

@[simp] theorem setSc_sc (id : DevId) (st : ScState) (sc : Sc) : (setSc id st sc).1 = { sc with state := st } := rfl
@[simp] theorem scReset_sc (id : DevId) (sc : Sc) : (scReset id sc).1 = Sc.init := rfl
@[simp] theorem scBreak_sc (id : DevId) (sc : Sc) : (scBreak id sc).1 = { Sc.init with state := .broken } := rfl

/-- `SC_RESET` is silent exactly when the application already sees no channel (R141, R142). -/
@[simp] theorem scReset_notes (id : DevId) (sc : Sc) :
    (scReset id sc).2 = if sc.state = .idle then [] else [.scStatus id .none] := by
  cases h : sc.state <;> simp [scReset, setSc, proj, h]

/-- `SC_BREAK` is silent exactly when the application already sees a broken channel (R149, R142). -/
@[simp] theorem scBreak_notes (id : DevId) (sc : Sc) :
    (scBreak id sc).2 = if sc.state = .broken then [] else [.scStatus id .broken] := by
  cases h : sc.state <;> simp [scBreak, setSc, proj, h]

/-! ### Wrapping and unwrapping -/

/-- The payload that goes on the wire, when it fits (R150, R186). -/
theorem scWrap_seals {par : Params} {sc : Sc} {p wire : Bytes} (h : Seals par sc true p wire)
    (hl : wire.length ≤ par.maxPayload) : scWrap par p sc = .ok wire := by
  rcases h with ⟨h, -⟩ | ⟨-, h1, ke, km, h2, h3, rfl⟩
  · cases h
  · have hl : ¬ par.maxPayload < (sealed par ke km p).length := Nat.not_lt.mpr hl
    simp only [scWrap, h1, h2, h3, hl, ne_eq, not_true_eq_false, if_false]
    rfl

/-- A wrapped payload that does not fit is refused (R150). -/
theorem scWrap_seals_long {par : Params} {sc : Sc} {p wire : Bytes} (h : Seals par sc true p wire)
    (hl : par.maxPayload < wire.length) : scWrap par p sc = .error (.refuse .invalidPacket) := by
  rcases h with ⟨h, -⟩ | ⟨-, h1, ke, km, h2, h3, rfl⟩
  · cases h
  · have hl : par.maxPayload < (sealed par ke km p).length := hl
    simp only [scWrap, h1, h2, h3, hl, ne_eq, not_true_eq_false, if_true, if_false]

/-- What unwrapping gives when the tag is right; no register changes (R151). -/
theorem scUnwrap_opens {e : Env} {sc : Sc} {wire p : Bytes} (hok : paramsOk e.par = true)
    (h : Opens e.par sc true wire p) :
    scUnwrap e wire sc = { sc := sc, notes := [], drew := false, out := .ok p } := by
  rcases h with ⟨h, -⟩ | ⟨-, h1, ke, km, c, h2, h3, rfl, rfl⟩
  · cases h
  · simp [scUnwrap, h1, h2, h3, slice, mac_length hok]

/-- What unwrapping does when the tag is wrong or missing (R151). -/
theorem scUnwrap_bad {e : Env} {sc : Sc} {w ke km : Bytes} (h1 : sc.state = .established) (h2 : sc.sEnc = some ke)
    (h3 : sc.sMac = some km) (h : w.length < e.par.macLen ∨
      w.drop (w.length - e.par.macLen) ≠ mac e.par km (w.take (w.length - e.par.macLen))) :
    scUnwrap e w sc = scBreakRaise e.id sc .macInvalid := by
  simp only [scUnwrap, h1, h2, h3, ne_eq, not_true_eq_false, if_false]
  by_cases hl : w.length < e.par.macLen
  · rw [if_pos hl]
  · rw [if_neg hl, if_pos]
    have h := h.resolve_left hl
    simp only [slice, List.drop_zero, Nat.sub_zero]
    rwa [List.take_of_length_le (i := w.length - (w.length - e.par.macLen)) (by simp)]

/-! ### Key material agrees with the state -/

theorem scInvCp_init : ScInvCp Sc.init := by simp [ScInvCp, Sc.init]

theorem scInvCp_broken : ScInvCp { Sc.init with state := .broken } := by simp [ScInvCp, Sc.init]

theorem scInvPd_init : ScInvPd Sc.init := by simp [ScInvPd, Sc.init]

theorem scInvPd_broken : ScInvPd { Sc.init with state := .broken } := by simp [ScInvPd, Sc.init]

/-- What a procedure may do to an instance that satisfies `P`: it keeps `P` and never needs missing key material. -/
structure ScKeeps {α : Type} (P : Sc → Prop) (r : ScDone α) : Prop where
  keeps   : P r.sc
  noFault : ∀ f, r.out ≠ .error (.fault f)

theorem scBreakRaise_keepsCp {α : Type} (id : DevId) (sc : Sc) (e : ErrorCode) :
    ScKeeps ScInvCp (scBreakRaise (α := α) id sc e) := ⟨scInvCp_broken, by simp [scBreakRaise]⟩

theorem scBreakRaise_keepsPd {α : Type} (id : DevId) (sc : Sc) (e : ErrorCode) :
    ScKeeps ScInvPd (scBreakRaise (α := α) id sc e) := ⟨scInvPd_broken, by simp [scBreakRaise]⟩

theorem scStop_keeps {α : Type} {P : Sc → Prop} {sc : Sc} {x : Stop} (h : P sc) (hx : ∀ f, x ≠ .fault f) :
    ScKeeps P (scStop (α := α) sc x) := ⟨h, by simpa [scStop] using hx⟩

theorem scCpBegin_keeps {e : Env} {rnd : Bytes} {sc : Sc} (h : ScInvCp sc) : ScKeeps ScInvCp (scCpBegin e rnd sc) := by
  unfold scCpBegin
  split
  · exact scStop_keeps h (by simp)
  · have hs : sc.state = .idle := by simpa using ‹¬ sc.state ≠ .idle›
    refine ⟨?_, by simp⟩
    simp only [ScInvCp, hs] at h ⊢
    simp_all

theorem scCpVerify_keeps {e : Env} {p : Bytes} {sc : Sc} (h : ScInvCp sc) : ScKeeps ScInvCp (scCpVerify e p sc) := by
  unfold scCpVerify
  split
  · exact scStop_keeps h (by simp)
  · split
    · exact scStop_keeps h (by simp)
    · have hs : sc.state = .challengeSent := by simpa using ‹¬ sc.state ≠ .challengeSent›
      split
      · exact scBreakRaise_keepsCp _ _ _
      · split
        · have := h.1; simp_all
        · dsimp only
          split
          · exact scBreakRaise_keepsCp _ _ _
          · refine ⟨?_, by simp⟩
            simp only [ScInvCp, hs] at h ⊢
            simp_all

theorem scCpConfirm_keeps {e : Env} {sc : Sc} (h : ScInvCp sc) : ScKeeps ScInvCp (scCpConfirm e sc) := by
  unfold scCpConfirm
  split
  · exact scStop_keeps h (by simp)
  · have hs : sc.state = .challengeReceived := by simpa using ‹¬ sc.state ≠ .challengeReceived›
    split
    · exact scBreakRaise_keepsCp _ _ _
    · split
      · exact ⟨h, by simp⟩
      · rename_i hn
        obtain ⟨h1, h2, _⟩ := h
        simp only [hs, ne_eq, reduceCtorEq, not_false_eq_true, and_self, iff_true, or_false] at h1 h2
        obtain ⟨a, ha⟩ := Option.isSome_iff_exists.mp h1
        obtain ⟨b, hb⟩ := Option.isSome_iff_exists.mp h2
        exact absurd hb (hn a b ha)

theorem scCpFinish_keeps {e : Env} {sc : Sc} (h : ScInvCp sc) : ScKeeps ScInvCp (scCpFinish e sc) := by
  unfold scCpFinish
  split
  · exact scStop_keeps h (by simp)
  · have hs : sc.state = .challengeReceived := by simpa using ‹¬ sc.state ≠ .challengeReceived›
    refine ⟨?_, by simp⟩
    simp only [ScInvCp, hs] at h ⊢
    simp_all

/-- What an invariant must say of an instance for `SC_WRAP` and `SC_UNWRAP` to find their keys. -/
def HasKeys (sc : Sc) : Prop := sc.state = .established → sc.sEnc.isSome = true ∧ sc.sMac.isSome = true

theorem ScInvCp.hasKeys {sc : Sc} (h : ScInvCp sc) : HasKeys sc := fun hs => by
  simp only [ScInvCp, hs] at h; simp_all

theorem ScInvPd.hasKeys {sc : Sc} (h : ScInvPd sc) : HasKeys sc := fun hs => by
  simp only [ScInvPd, hs] at h; simp_all

theorem scUnwrap_keeps {P : Sc → Prop} {e : Env} {w : Bytes} {sc : Sc} (h : P sc) (hk : HasKeys sc)
    (hb : P { Sc.init with state := .broken }) : ScKeeps P (scUnwrap e w sc) := by
  have hbr : ∀ c, ScKeeps P (scBreakRaise (α := Bytes) e.id sc c) := fun c => ⟨hb, by simp [scBreakRaise]⟩
  unfold scUnwrap
  split
  · exact scStop_keeps h (by simp)
  · have hs : sc.state = .established := by simpa using ‹¬ sc.state ≠ .established›
    split
    · exact hbr _
    · split
      · dsimp only
        split
        · exact hbr _
        · exact ⟨h, by simp⟩
      · rename_i hn
        obtain ⟨a, ha⟩ := Option.isSome_iff_exists.mp (hk hs).1
        obtain ⟨b, hb⟩ := Option.isSome_iff_exists.mp (hk hs).2
        exact absurd hb (hn a b ha)

theorem scWrap_noFault {par : Params} {p : Bytes} {sc : Sc} (hk : HasKeys sc) (f : Fault) :
    scWrap par p sc ≠ .error (.fault f) := by
  unfold scWrap
  split
  · simp
  · have hs : sc.state = .established := by simpa using ‹¬ sc.state ≠ .established›
    split
    · split <;> simp
    · rename_i hn
      obtain ⟨a, ha⟩ := Option.isSome_iff_exists.mp (hk hs).1
      obtain ⟨b, hb⟩ := Option.isSome_iff_exists.mp (hk hs).2
      exact absurd hb (hn a b ha)

/-- `SC_WRAP` raises only for want of an established channel (R150). -/
theorem scWrap_raise {par : Params} {p : Bytes} {sc : Sc} {x : ErrorCode} (h : scWrap par p sc = .error (.raise x)) :
    sc.state ≠ .established := by
  unfold scWrap at h
  split at h
  · assumption
  · split at h
    · split at h <;> simp at h
    · simp at h

theorem scPdChallenge_keeps {e : Env} {rnd p : Bytes} {sc : Sc} (h : ScInvPd sc) :
    ScKeeps ScInvPd (scPdChallenge e rnd p sc) := by
  unfold scPdChallenge
  split
  · exact scStop_keeps h (by simp)
  · split
    · exact scStop_keeps h (by simp)
    · exact ⟨by simp [ScInvPd], by simp⟩

theorem scPdVerify_keeps {e : Env} {p : Bytes} {sc : Sc} (h : ScInvPd sc) : ScKeeps ScInvPd (scPdVerify e p sc) := by
  unfold scPdVerify
  split
  · exact scStop_keeps h (by simp)
  · have hs : sc.state = .challengeSent := by simpa using ‹¬ sc.state ≠ .challengeSent›
    split
    · exact scStop_keeps h (by simp)
    · split
      · exact scBreakRaise_keepsPd _ _ _
      · split
        · split
          · exact scBreakRaise_keepsPd _ _ _
          · refine ⟨?_, by simp⟩
            simp only [ScInvPd, hs] at h ⊢
            simp_all
        · rename_i hn
          simp only [ScInvPd, hs] at h
          obtain ⟨a, ha⟩ := Option.isSome_iff_exists.mp (h.2.1.mpr (by simp))
          obtain ⟨b, hb⟩ := Option.isSome_iff_exists.mp (h.2.2.1.mpr (by simp))
          exact absurd hb (hn a b ha)

end Sys2Proof.Machine
end

