-- ==== Sys2Proof/Laws/Device.lean ====
section
/-! SUPPORT. Laws of the CP's procedures: what each leaves in the context when it ends, and that it keeps `DeviceInv`. -/

namespace Sys2Proof.Machine

/-- A procedure that neither faults nor, unless it refuses and is undone, leaves a context without `P`. -/
structure Done.Keeps {σ : Type} (P : σ → Prop) (x : Done σ) : Prop where
  noFault : ∀ f, x.stop ≠ some (.fault f)
  ends    : (∀ r, x.stop ≠ some (.refuse r)) → P x.work.ctx

theorem Work.done_keeps {σ : Type} {P : σ → Prop} {w : Work σ} (h : P w.ctx) : w.done.Keeps P :=
  ⟨by simp, fun _ => h⟩

theorem Work.refuse_keeps {σ : Type} {P : σ → Prop} (w : Work σ) (r : RefusalCode) :
    (w.stopped (.refuse r)).Keeps P := ⟨by simp, fun h => absurd rfl (h r)⟩

theorem Work.raise_keeps {σ : Type} {P : σ → Prop} {w : Work σ} (e : ErrorCode) (h : P w.ctx) :
    (w.stopped (.raise e)).Keeps P := ⟨by simp, fun _ => h⟩

theorem Done.andThen_keeps {σ : Type} {P Q : σ → Prop} {x : Done σ} {f : Work σ → Done σ} (hx : x.Keeps P)
    (hf : ∀ w, P w.ctx → (f w).Keeps Q) (hstop : ∀ e, x.stop = some (.raise e) → P x.work.ctx → Q x.work.ctx) :
    (x.andThen f).Keeps Q := by
  unfold Done.andThen
  split
  · rename_i h
    exact hf _ (hx.ends (by simp [h]))
  · rename_i st h
    refine ⟨hx.noFault, fun hr => ?_⟩
    cases st with
    | raise e => exact hstop e h (hx.ends (by simp [h]))
    | refuse r => exact absurd h (hr r)
    | fault f => exact absurd h (hx.noFault f)

theorem eachVerdict_keeps {σ : Type} {P : σ → Prop} {f : Verdict → Work σ → Done σ}
    (hf : ∀ v w, P w.ctx → (f v w).Keeps P) : ∀ (vs : List Verdict) (w : Work σ), P w.ctx →
      (eachVerdict f vs w).Keeps P
  | [], _, hw => Work.done_keeps hw
  | v :: vs, w, hw => Done.andThen_keeps (hf v w hw) (eachVerdict_keeps hf vs) (fun _ _ h => h)

/-! ### What the procedures leave in the context -/

@[simp] theorem absorbSc_ctx {α : Type} (w : Work Device) (r : ScDone α) :
    (absorbSc w r).ctx = { w.ctx with sc := r.sc } := rfl
@[simp] theorem absorbSc_notes {α : Type} (w : Work Device) (r : ScDone α) :
    (absorbSc w r).notes = w.notes ++ r.notes := rfl
@[simp] theorem absorbSc_frames {α : Type} (w : Work Device) (r : ScDone α) :
    (absorbSc w r).frames = w.frames := rfl
@[simp] theorem absorbSc_draws {α : Type} (w : Work Device) (r : ScDone α) :
    (absorbSc w r).draws = w.draws + r.drew.toNat := rfl

/-- `SC_RESET` inside another rule: the channel at its reset value, a note if the application's view changed. -/
theorem cpScReset_eq (e : Env) (w : Work Device) :
    cpScReset e w = { w with
      ctx := { w.ctx with sc := Sc.init }
      notes := w.notes ++ if w.ctx.sc.state = .idle then [] else [.scStatus e.id .none] } := by
  simp only [cpScReset, absorbSc, scResetDone, scReset_sc, scReset_notes, Bool.toNat_false, Nat.add_zero]

/-- `go_offline`: what is left of the context (R189). -/
@[simp] theorem goOffline_ctx (e : Env) (r : OfflineReason) (w : Work Device) :
    (goOffline e r w).ctx = { w.ctx with
      sc := Sc.init, dstate := .offline, slot := none, retxp := false, resync := false, deadline := none,
      cmdq := [], online := false, rxbuf := [] } := rfl

@[simp] theorem channelBroken_ctx (e : Env) (c : ErrorCode) (w : Work Device) :
    (channelBroken e c w).ctx = { w.ctx with
      slot := none, retxp := false, resync := false, deadline := none, dstate := .secureHandshake, seq := 0 } := by
  unfold channelBroken
  cases w.ctx.slot <;> rfl

@[simp] theorem complete_ctx (e : Env) (sl : Slot) (w : Work Device) :
    (complete e sl w).ctx = { w.ctx with
      seq := nextSeq sl.seq, retry := 0, resync := false, retxp := false, slot := none, deadline := none,
      online := true } := by
  unfold complete
  dsimp only
  split <;> rfl

@[simp] theorem success_ctx (e : Env) (sl : Slot) (r : Byte) (p : Bytes) (w : Work Device) :
    (success e sl r p w).ctx = { w.ctx with
      seq := nextSeq sl.seq, retry := 0, resync := false, retxp := false, slot := none, deadline := none,
      online := true, dstate := .polling } := by
  simp [success]

/-- `bounded_retry` with the budget left: the count is one higher (R188). -/
theorem boundedRetry_left {e : Env} {w : Work Device} (h : w.ctx.retry + 1 < e.par.retryMax) :
    boundedRetry e w = ({ w with ctx := { w.ctx with retry := w.ctx.retry + 1 } }, true) := by
  simp [boundedRetry, Nat.not_le.mpr h]

/-- `bounded_retry` with the budget spent: the device goes offline (R188). -/
theorem boundedRetry_spent {e : Env} {w : Work Device} (h : e.par.retryMax ≤ w.ctx.retry + 1) :
    boundedRetry e w =
      (goOffline e .unreachable { w with ctx := { w.ctx with retry := w.ctx.retry + 1 } }, false) := by
  simp [boundedRetry, h]

/-- What `xmit` can do with a slot: send it, or stop as its wrapping or its encoding stops (R186). -/
theorem xmit_cases {e : Env} {now : Time} {w : Work Device} {sl : Slot} (h : w.ctx.slot = some sl) :
    (∃ f, xmit e now w = ({ w with ctx := { w.ctx with
        deadline := some (now + e.par.timeout), lastpoll := some now, retxp := false } }.emit f).done) ∨
    (∃ st, xmit e now w = w.stoppedNoting (.error e.id) st ∧
      (st = .refuse .invalidPacket ∨ (sl.sec = true ∧ scWrap e.par sl.payload w.ctx.sc = .error st))) := by
  unfold xmit
  rw [h]
  dsimp only
  unfold wirePayload
  cases hs : sl.sec with
  | false =>
    simp only [Bool.false_eq_true, if_false, encodePacket]
    split
    · exact .inr ⟨.refuse .invalidPacket, by rename_i hx; split at hx <;> cases hx; rfl, .inl rfl⟩
    · exact .inl ⟨_, rfl⟩
  | true =>
    simp only [if_true]
    cases hw : scWrap e.par sl.payload w.ctx.sc with
    | error st => exact .inr ⟨_, rfl, .inr ⟨trivial, rfl⟩⟩
    | ok wire =>
      simp only [encodePacket]
      split
      · exact .inr ⟨.refuse .invalidPacket, by rename_i hx; split at hx <;> cases hx; rfl, .inl rfl⟩
      · exact .inl ⟨_, rfl⟩

/-- A payload that fits is always encodable as `mk_packet` frames it (R99, R110). -/
theorem encode_mkPacket {par : Params} {p : Bytes} (h : p.length ≤ par.maxPayload) (i : DevId) (q : Seq) (c x : Bool)
    (t : Byte) : encodePacket par (mkPacket i q c x t p) = .ok (frameOf par (mkPacket i q c x t p)) := by
  have : packetValid par (mkPacket i q c x t p) = true := by
    by_cases hp : 255 < p.length
    · simp [packetValid, mkPacket, h, hp]
    · simp [packetValid, mkPacket, h, Nat.not_lt.mp hp]
  simp [encodePacket, this]

/-- `xmit` of a plain slot that fits (R186). -/
theorem xmit_plain {e : Env} {now : Time} {w : Work Device} {sl : Slot} (h : w.ctx.slot = some sl)
    (hs : sl.sec = false) (hl : sl.payload.length ≤ e.par.maxPayload) :
    xmit e now w = ({ w with ctx := { w.ctx with
        deadline := some (now + e.par.timeout), lastpoll := some now, retxp := false } }.emit
      (frameOf e.par (mkPacket e.id sl.seq w.ctx.useCrc false sl.type sl.payload))).done := by
  simp [xmit, h, hs, wirePayload, encode_mkPacket hl]

/-- `xmit` of a secure slot that fits, on an established channel (R186, R150). -/
theorem xmit_secure {e : Env} {now : Time} {w : Work Device} {sl : Slot} {ke km : Bytes} (h : w.ctx.slot = some sl)
    (hs : sl.sec = true) (h1 : w.ctx.sc.state = .established) (h2 : w.ctx.sc.sEnc = some ke)
    (h3 : w.ctx.sc.sMac = some km) (hl : (sealed e.par ke km sl.payload).length ≤ e.par.maxPayload) :
    xmit e now w = ({ w with ctx := { w.ctx with
        deadline := some (now + e.par.timeout), lastpoll := some now, retxp := false } }.emit
      (frameOf e.par (mkPacket e.id sl.seq w.ctx.useCrc true sl.type (sealed e.par ke km sl.payload)))).done := by
  simp [xmit, h, hs, wirePayload, scWrap, h1, h2, h3, encode_mkPacket hl, Nat.not_lt.mpr hl]

/-- A secure payload off an established channel is not wrapped (R150). -/
theorem wirePayload_down {par : Params} {sc : Sc} (h : sc.state ≠ .established) (p : Bytes) :
    wirePayload par sc true p = .error (.raise .notEstablished) := by simp [wirePayload, scWrap, h]

/-- `wirePayload` of what `Seals` describes (R186, R226). -/
theorem wirePayload_seals {par : Params} {sc : Sc} {sec : Bool} {p wire : Bytes} (h : Seals par sc sec p wire)
    (hl : wire.length ≤ par.maxPayload) : wirePayload par sc sec p = .ok wire := by
  cases sec with
  | false =>
    rcases h with ⟨-, rfl⟩ | ⟨h, -⟩
    · rfl
    · cases h
  | true => simpa [wirePayload] using scWrap_seals h hl

/-- `xmit` of a slot that fits, plain or secure (R186). -/
theorem xmit_seals {e : Env} {now : Time} {w : Work Device} {sl : Slot} {wire : Bytes} (h : w.ctx.slot = some sl)
    (hs : Seals e.par w.ctx.sc sl.sec sl.payload wire) (hl : wire.length ≤ e.par.maxPayload) :
    xmit e now w = ({ w with ctx := { w.ctx with
        deadline := some (now + e.par.timeout), lastpoll := some now, retxp := false } }.emit
      (frameOf e.par (mkPacket e.id sl.seq w.ctx.useCrc sl.sec sl.type wire))).done := by
  simp [xmit, h, wirePayload_seals hs hl, encode_mkPacket hl]

/-- A reply whose payload opens goes on to the sequence check, with nothing changed (R191, steps 1 to 4). -/
theorem acceptReply_opens {e : Env} {w : Work Device} {sl : Slot} {q : Packet} {pay : Bytes} (hok : paramsOk e.par = true)
    (hid : q.devid = e.id) (hs : w.ctx.slot = some sl) (h : Opens e.par w.ctx.sc q.sec q.payload pay) :
    acceptReply e q w = acceptPlain e sl q pay w := by
  cases hq : q.sec with
  | false =>
    rw [hq] at h
    rcases h with ⟨-, rfl⟩ | ⟨h, -⟩
    · simp [acceptReply, hid, hs, hq]
    · cases h
  | true =>
    rw [hq] at h
    simp only [acceptReply, hid, hs, hq, scUnwrap_opens hok h, absorbSc, ne_eq, not_true_eq_false, if_false, if_true,
      Bool.toNat_false, Nat.add_zero, List.append_nil]
    rw [← hs]

/-! ### The operations that run a procedure -/

theorem onDevice_some {s : State} {i : DevId} {d : Device} (hr : s.par.role = .cp) (hd : s.dev i = some d)
    (g : Env → Work Device → Done Device) :
    onDevice s i.toNat g = finishDev s i (g (s.cpEnv i) (Work.start d (s.drawn i))) := by
  simp [onDevice, cpDevice_some hr hd]

theorem muxRoute_some {s : State} {i : DevId} {d : Device} (hr : s.par.role = .cp) (hd : s.dev i = some d)
    (g : Env → Work Device → Done Device) :
    muxRoute s i.toNat g = finishDev s i (g (s.cpEnv i) (Work.start d (s.drawn i))) := by
  simp [muxRoute, cpId_toNat hr, hd]

theorem finishDev_done (s : State) (i : DevId) (w : Work Device) :
    finishDev s i w.done =
      .next (((s.setDev i (some w.ctx)).setDrawn i w.draws).finished w.frames w.notes) := rfl

theorem onPd_pd {s : State} (hr : s.par.role = .pd) (g : Env → Work Pdc → Done Pdc) :
    onPd s g = finishPd s (g s.pdEnv (Work.start s.pdc (s.drawn s.par.myAddr))) := by
  simp [onPd, requirePd_pd hr]

theorem finishPd_done (s : State) (w : Work Pdc) :
    finishPd s w.done = .next (({ s with pdc := w.ctx }.setDrawn s.par.myAddr w.draws).finished w.frames w.notes) := rfl

/-! ### `DeviceInv` is kept -/

theorem deviceInv_create (par : Params) (u : Bool) : DeviceInv par (Device.create u) := by
  refine ⟨scInvCp_init, rfl, by simp [Device.create], by simp [Device.create], by simp [Device.create],
    by simp [Device.create], by simp [Device.create], by simp [Device.create], by simp [Device.create],
    by simp [Device.create], rfl⟩

theorem deviceInv_sc {par : Params} {d : Device} {sc : Sc} (h : DeviceInv par d) (hs : ScInvCp sc) :
    DeviceInv par { d with sc := sc } := ⟨hs, h.2⟩

theorem deviceInv_rxbuf {par : Params} {d : Device} {rx : Bytes} (h : DeviceInv par d) (hr : Pending par rx) :
    DeviceInv par { d with rxbuf := rx } := by
  obtain ⟨h1, h2, h3, h4, h5, h6, h7, h8, h9, h10, _⟩ := h
  exact ⟨h1, h2, h3, h4, h5, h6, h7, h8, h9, h10, hr⟩

theorem goOffline_inv (e : Env) (r : OfflineReason) (w : Work Device) : DeviceInv e.par (goOffline e r w).ctx := by
  refine ⟨scInvCp_init, ?_, ?_, ?_, ?_, ?_, ?_, ?_, ?_, ?_, rfl⟩ <;> simp

/-- Giving up the exchange and going to `SecureHandshake` (R197). -/
theorem channelBroken_inv {e : Env} {c : ErrorCode} {w : Work Device} (h : DeviceInv e.par w.ctx)
    (ho : w.ctx.dstate ≠ .offline) : DeviceInv e.par (channelBroken e c w).ctx := by
  obtain ⟨h1, h2, h3, h4, h5, h6, h7, h8, h9, h10, h11⟩ := h
  rw [channelBroken_ctx]
  exact ⟨h1, rfl, by simp, by simp, by simp, h6, by simp, by simp, fun _ => h9 ho, h10, h11⟩

/-- Completing an exchange outside `AwaitingReply`, or with the change to `Polling` (R194). -/
theorem complete_inv {e : Env} {sl : Slot} {w : Work Device} {ds : DState} (h : DeviceInv e.par w.ctx)
    (ho : w.ctx.dstate ≠ .offline) (hd : ds = .polling ∨ ds = .secureHandshake) :
    DeviceInv e.par { (complete e sl w).ctx with dstate := ds } := by
  obtain ⟨h1, h2, h3, h4, h5, h6, h7, h8, h9, h10, h11⟩ := h
  rw [complete_ctx]
  refine ⟨h1, rfl, by simp, ?_, by simp, h6, by simp, ?_, fun _ => Nat.lt_of_le_of_lt (Nat.zero_le _) (h9 ho), h10,
    h11⟩ <;> rcases hd with rfl | rfl <;> simp

theorem boundedRetry_inv {e : Env} {w : Work Device} (h : DeviceInv e.par w.ctx) :
    DeviceInv e.par (boundedRetry e w).1.ctx := by
  by_cases hr : w.ctx.retry + 1 < e.par.retryMax
  · rw [boundedRetry_left hr]
    obtain ⟨h1, h2, h3, h4, h5, h6, h7, h8, h9, h10, h11⟩ := h
    exact ⟨h1, h2, h3, h4, h5, h6, h7, h8, fun _ => hr, h10, h11⟩
  · rw [boundedRetry_spent (by omega)]
    exact goOffline_inv _ _ _

/-- `unexpected` while a command is in flight (R193). -/
theorem unexpected_inv {e : Env} {c : ErrorCode} {w : Work Device} (h : DeviceInv e.par w.ctx)
    (hs : w.ctx.slot.isSome = true) : DeviceInv e.par (unexpected e c w).ctx := by
  unfold unexpected
  by_cases hr : w.ctx.retry + 1 < e.par.retryMax
  · rw [boundedRetry_left (w := w.note _) hr]
    obtain ⟨h1, h2, h3, h4, h5, h6, h7, h8, h9, h10, h11⟩ := h
    exact ⟨h1, h2, fun _ => hs, h4, h5, h6, h7, h8, fun _ => hr, h10, h11⟩
  · rw [boundedRetry_spent (w := w.note _) (by simpa using hr)]
    exact goOffline_inv _ _ _

/-- `desync` while a command is in flight (R192). -/
theorem desync_inv {e : Env} {w : Work Device} (h : DeviceInv e.par w.ctx) (hs : w.ctx.slot.isSome = true) :
    DeviceInv e.par (desync e w).ctx := by
  unfold desync
  dsimp only
  split
  · exact goOffline_inv _ _ _
  · obtain ⟨h1, h2, h3, h4, h5, h6, h7, h8, h9, h10, h11⟩ := h
    obtain ⟨sl, hsl⟩ := Option.isSome_iff_exists.mp hs
    refine ⟨h1, ?_, ?_, ?_, ?_, h6, ?_, h8, h9, h10, h11⟩
    · simpa [hsl] using h2
    · simp [hsl]
    · simp [hsl]
    · intro ha x hx
      simp only [Work.note_ctx, hsl, Option.map_some, Option.some.injEq] at hx
      subst hx
      exact h5 ha sl hsl
    · intro ha
      simp [h7 ha] at hsl

/-- `xmit` of a slot that is there; what it keeps needs no deadline before it (R186). -/
theorem xmit_inv {e : Env} {now : Time} {w : Work Device} {sl : Slot} (hsl : w.ctx.slot = some sl)
    (h : ∀ t, DeviceInv e.par { w.ctx with deadline := some t, lastpoll := some now, retxp := false })
    (hr : DeviceInv e.par w.ctx ∨ (sl.sec = true → w.ctx.sc.state = .established)) :
    (xmit e now w).Keeps (DeviceInv e.par) := by
  have hk : HasKeys w.ctx.sc := (h 0).1.hasKeys
  rcases xmit_cases (e := e) (now := now) hsl with ⟨f, hx⟩ | ⟨st, hx, hst⟩
  · rw [hx]; exact Work.done_keeps (h _)
  · rw [hx]
    rcases hst with rfl | ⟨hsec, hw⟩
    · exact Work.refuse_keeps _ _
    · cases st with
      | raise er =>
        refine Work.raise_keeps er ?_
        rcases hr with hr | hr
        · exact hr
        · exact absurd (hr hsec) (scWrap_raise hw)
      | refuse r => exact Work.refuse_keeps _ _
      | fault f => exact absurd hw (scWrap_noFault hk f)

/-- `xmit` in a context that already satisfies the invariant: a retransmission (R187). -/
theorem xmit_again_inv {e : Env} {now : Time} {w : Work Device} (h : DeviceInv e.par w.ctx)
    (hs : w.ctx.slot.isSome = true) : (xmit e now w).Keeps (DeviceInv e.par) := by
  obtain ⟨sl, hsl⟩ := Option.isSome_iff_exists.mp hs
  refine xmit_inv hsl (fun t => ?_) (.inl h)
  obtain ⟨h1, h2, h3, h4, h5, h6, h7, h8, h9, h10, h11⟩ := h
  exact ⟨h1, by simp [hsl], by simp, h4, h5, h6, h7, h8, h9, h10, h11⟩

/-- `awaiting` (R187). -/
theorem awaiting_inv {e : Env} {now : Time} {w : Work Device} (h : DeviceInv e.par w.ctx) :
    (awaiting e now w).Keeps (DeviceInv e.par) := by
  unfold awaiting
  split
  · exact xmit_again_inv h (h.2.2.1 ‹_›)
  · split
    · rename_i hd
      have hs : w.ctx.slot.isSome = true := by
        rw [h.2.1]
        unfold deadlinePassed at hd
        split at hd
        · simp [*]
        · simp at hd
      have hb := boundedRetry_inv h
      by_cases hr : w.ctx.retry + 1 < e.par.retryMax
      · rw [boundedRetry_left hr] at hb ⊢
        exact xmit_again_inv hb hs
      · rw [boundedRetry_spent (by omega)] at hb ⊢
        exact Work.done_keeps hb
    · exact Work.done_keeps h

/-- `send` from a context with no slot (R186). What `DSTATE` it is to have is given, since `Polling` with a slot is no
state between operations. -/
theorem send_cases (e : Env) (now : Time) (t : Byte) (p : Bytes) (w : Work Device) :
    (∃ f, send e now t p w = ({ w with ctx := { w.ctx with
        slot := some (slotFor e.par w.ctx t p), deadline := some (now + e.par.timeout), lastpoll := some now,
        retxp := false } }.emit f).done) ∨
    (∃ st w', send e now t p w = Work.stopped w' st ∧
      (st = .refuse .invalidPacket ∨ (w.ctx.sc.state = .established ∧ scWrap e.par p w.ctx.sc = .error st))) := by
  unfold send
  rcases xmit_cases (e := e) (now := now) (w := { w with ctx := { w.ctx with slot := some (slotFor e.par w.ctx t p) } })
    rfl with ⟨f, hx⟩ | ⟨st, hx, hst⟩
  · exact .inl ⟨f, hx⟩
  · refine .inr ⟨st, _, hx.trans (Work.stoppedNoting_eq _ _ _), ?_⟩
    rcases hst with h | ⟨h1, h2⟩
    · exact .inl h
    · refine .inr ⟨?_, h2⟩
      simp only [slotFor, Bool.and_eq_true, decide_eq_true_eq] at h1
      exact h1.1.1

/-- A stop of `send` is a refusal: no fault when the keys are there, and no error at all (R186). -/
theorem send_stop {e : Env} {now : Time} {t : Byte} {p : Bytes} {w : Work Device} {st : Stop}
    (hk : HasKeys w.ctx.sc) (h : (send e now t p w).stop = some st) : ∃ r, st = .refuse r := by
  rcases send_cases e now t p w with ⟨f, hx⟩ | ⟨st', w', hx, hst⟩
  · rw [hx] at h; simp at h
  · rw [hx] at h
    simp only [Work.stopped_stop, Option.some.injEq] at h
    subst h
    rcases hst with rfl | ⟨h1, h2⟩
    · exact ⟨_, rfl⟩
    · cases st' with
      | raise x => exact absurd h1 (scWrap_raise h2)
      | refuse r => exact ⟨r, rfl⟩
      | fault f => exact absurd h2 (scWrap_noFault hk f)

/-- What `send` keeps, given that the context with the new slot and its deadline has it. -/
theorem send_keeps {P : Device → Prop} {e : Env} {now : Time} {t : Byte} {p : Bytes} {w : Work Device}
    (hk : HasKeys w.ctx.sc)
    (h : P { w.ctx with slot := some (slotFor e.par w.ctx t p), deadline := some (now + e.par.timeout),
                        lastpoll := some now, retxp := false }) :
    (send e now t p w).Keeps P := by
  rcases send_cases e now t p w with ⟨f, hx⟩ | ⟨st', w', hx, _⟩
  · rw [hx]; exact Work.done_keeps h
  · obtain ⟨r, rfl⟩ := send_stop (st := st') hk (by rw [hx]; rfl)
    rw [hx]; exact Work.refuse_keeps _ _

/-- What a tick in `Polling` picks: the context less the command taken from the queue (R187). -/
theorem pickCommand_cases {e : Env} {w w' : Work Device} {c : Cmd} (h : pickCommand e w = .ok (w', c)) :
    (∃ q, w'.ctx = { w.ctx with cmdq := q } ∧ q <:+ w.ctx.cmdq) ∧ w'.frames = w.frames ∧ w'.draws = w.draws ∧
    (c ∈ w.ctx.cmdq ∨ c = { type := e.par.tPoll, payload := [] }) := by
  unfold pickCommand at h
  split at h
  · rename_i hq
    cases h
    exact ⟨⟨[], by rw [← hq], by simp⟩, rfl, rfl, .inr rfl⟩
  · rename_i x rest hq
    have hs : rest <:+ w.ctx.cmdq := by rw [hq]; exact List.suffix_cons _ _
    have hm : x ∈ w.ctx.cmdq := by rw [hq]; exact List.mem_cons_self
    dsimp only at h
    split at h
    · split at h
      · cases h
      · split at h <;> cases h
        · exact ⟨⟨rest, rfl, hs⟩, rfl, rfl, .inr rfl⟩
        · exact ⟨⟨rest, rfl, hs⟩, rfl, rfl, .inl hm⟩
    · cases h
      exact ⟨⟨rest, rfl, hs⟩, rfl, rfl, .inl hm⟩

theorem pickCommand_noFault {e : Env} {w : Work Device} (hk : HasKeys w.ctx.sc) (st : Stop) :
    pickCommand e w ≠ .error st := by
  unfold pickCommand
  split
  · simp
  · dsimp only
    split
    · rename_i hs
      obtain ⟨k, hk⟩ := Option.isSome_iff_exists.mp (hk hs).1
      rw [hk]
      dsimp only
      split <;> simp
    · simp

/-- The context of a queue shortened at its head (R187). -/
theorem deviceInv_cmdq {par : Params} {d : Device} {q : List Cmd} (h : DeviceInv par d) (hq : q <:+ d.cmdq) :
    DeviceInv par { d with cmdq := q } := by
  obtain ⟨h1, h2, h3, h4, h5, h6, h7, h8, h9, h10, h11⟩ := h
  refine ⟨h1, h2, h3, h4, h5, fun c hc => h6 c (hq.mem hc), h7, fun ho => ⟨?_, (h8 ho).2⟩, h9,
    Nat.le_trans hq.length_le h10, h11⟩
  have := hq.length_le
  rw [(h8 ho).1] at this
  exact List.eq_nil_of_length_eq_zero (by simpa using this)

theorem tickPolling_inv {e : Env} {now : Time} {w : Work Device} (hpar : e.par.tPoll ≠ e.par.tChlng ∧
    e.par.tPoll ≠ e.par.tScrypt) (h : DeviceInv e.par w.ctx) (hd : w.ctx.dstate = .polling) :
    (tickPolling e now w).Keeps (DeviceInv e.par) := by
  unfold tickPolling
  cases hp : pickCommand e w with
  | error st => exact absurd hp (pickCommand_noFault h.1.hasKeys st)
  | ok r =>
    obtain ⟨w1, c⟩ := r
    obtain ⟨⟨q, hc, hq⟩, _, _, hm⟩ := pickCommand_cases hp
    dsimp only
    have hi := deviceInv_cmdq h hq
    rw [← hc] at hi
    have ht : c.type ≠ e.par.tChlng ∧ c.type ≠ e.par.tScrypt := by
      rcases hm with hm | rfl
      · exact h.2.2.2.2.2.1 c hm
      · exact hpar
    obtain ⟨h1, h2, h3, h4, h5, h6, h7, h8, h9, h10, h11⟩ := hi
    have hd1 : w1.ctx.dstate = .polling := by rw [hc]; exact hd
    refine Done.andThen_keeps (P := fun d => DeviceInv e.par { d with dstate := .awaitingReply })
      (send_keeps h1.hasKeys ?_) (fun w hw => Work.done_keeps hw) ?_
    · refine ⟨h1, by simp, by simp, by simp, ?_, h6, by simp, by simp, fun _ => h9 (by simp [hd1]), h10, h11⟩
      intro _ sl hsl
      simp only [Option.some.injEq] at hsl
      subst hsl
      exact ht
    · intro er her _
      obtain ⟨r, hr⟩ := send_stop h1.hasKeys her
      cases hr

theorem tickChallenge_inv {e : Env} {now : Time} {w : Work Device} (h : DeviceInv e.par w.ctx)
    (hd : w.ctx.dstate = .secureHandshake) : (tickChallenge e now w).Keeps (DeviceInv e.par) := by
  unfold tickChallenge
  dsimp only
  obtain ⟨h1, h2, h3, h4, h5, h6, h7, h8, h9, h10, h11⟩ := h
  have hk := scCpBegin_keeps (e := e) (rnd := drawBytes e.id e.par.chalLen w.draws) h1
  split
  · refine send_keeps hk.keeps.hasKeys ?_
    refine ⟨hk.keeps, by simp, by simp, by simp, by simp [hd], h6, by simp [hd], by simp [hd], fun _ => h9 (by simp [hd]),
      h10, h11⟩
  · rename_i st hst
    cases st with
    | raise x => exact absurd hst (by unfold scCpBegin; split <;> simp [scStop])
    | refuse r => exact Work.refuse_keeps _ _
    | fault f => exact absurd hst (hk.noFault f)

theorem tickConfirm_inv {e : Env} {now : Time} {w : Work Device} (h : DeviceInv e.par w.ctx)
    (hd : w.ctx.dstate = .secureHandshake) : (tickConfirm e now w).Keeps (DeviceInv e.par) := by
  unfold tickConfirm
  dsimp only
  have hk := scCpConfirm_keeps (e := e) h.1
  split
  · obtain ⟨h1, h2, h3, h4, h5, h6, h7, h8, h9, h10, h11⟩ := h
    refine send_keeps hk.keeps.hasKeys ?_
    refine ⟨hk.keeps, by simp, by simp, by simp, by simp [hd], h6, by simp [hd], by simp [hd], fun _ => h9 (by simp [hd]),
      h10, h11⟩
  · exact Work.done_keeps (channelBroken_inv (deviceInv_sc h hk.keeps) (by simp [hd]))
  · rename_i st hn hf
    cases st with
    | raise x => exact (hn x rfl).elim
    | refuse r => exact Work.refuse_keeps _ _
    | fault f => exact absurd hf (hk.noFault f)

theorem tickHandshake_inv {e : Env} {now : Time} {w : Work Device} (h : DeviceInv e.par w.ctx)
    (hd : w.ctx.dstate = .secureHandshake) : (tickHandshake e now w).Keeps (DeviceInv e.par) := by
  unfold tickHandshake
  split
  · exact awaiting_inv h
  · dsimp only
    have h1 : DeviceInv e.par (if w.ctx.sc.state = .broken then cpScReset e w else w).ctx ∧
        (if w.ctx.sc.state = .broken then cpScReset e w else w).ctx.dstate = .secureHandshake := by
      split
      · rw [cpScReset_eq]; exact ⟨deviceInv_sc h scInvCp_init, hd⟩
      · exact ⟨h, hd⟩
    split
    · exact tickChallenge_inv h1.1 h1.2
    · exact tickConfirm_inv h1.1 h1.2
    · exact Work.done_keeps h1.1
    · exact Work.done_keeps h1.1
    · exact Work.done_keeps h1.1

/-- `DEV_TICK` keeps the invariant (R187). -/
theorem devTick_inv {e : Env} {now : Time} {w : Work Device} (hpar : e.par.tPoll ≠ e.par.tChlng ∧
    e.par.tPoll ≠ e.par.tScrypt) (h : DeviceInv e.par w.ctx) : (devTick e now w).Keeps (DeviceInv e.par) := by
  unfold devTick
  split
  · exact Work.done_keeps h
  · exact tickPolling_inv hpar h ‹_›
  · exact awaiting_inv h
  · exact tickHandshake_inv h ‹_›

theorem onCcrypt_inv {e : Env} {sl : Slot} {p : Bytes} {w : Work Device} (h : DeviceInv e.par w.ctx)
    (hs : w.ctx.slot = some sl) (ht : sl.type = e.par.tChlng) : (onCcrypt e sl p w).Keeps (DeviceInv e.par) := by
  have ho : w.ctx.dstate ≠ .offline := fun ho => by simp [h.2.2.2.2.2.2.1 (.inl ho)] at hs
  have hd : w.ctx.dstate = .secureHandshake := by
    cases hx : w.ctx.dstate with
    | offline => exact absurd hx ho
    | polling => simp [h.2.2.2.2.2.2.1 (.inr hx)] at hs
    | awaitingReply => exact absurd ht (h.2.2.2.2.1 hx sl hs).1
    | secureHandshake => rfl
  have hk := scCpVerify_keeps (e := e) (p := p) h.1
  unfold onCcrypt
  dsimp only
  split
  · refine Work.done_keeps ?_
    have := complete_inv (sl := sl) (w := absorbSc w (scCpVerify e p w.ctx.sc)) (deviceInv_sc h hk.keeps)
      (by simp [hd]) (.inr rfl)
    rw [complete_ctx] at this ⊢
    simpa [hd] using this
  · exact Work.done_keeps (unexpected_inv (deviceInv_sc h hk.keeps) (by simp [hs]))
  · exact Work.done_keeps (channelBroken_inv (deviceInv_sc h hk.keeps) (by simp [hd]))
  · rename_i st _ hn hf
    cases st with
    | raise x => exact (hn x rfl).elim
    | refuse r => exact Work.refuse_keeps _ _
    | fault f => exact absurd hf (hk.noFault f)

theorem onScdone_inv {e : Env} {sl : Slot} {w : Work Device} (h : DeviceInv e.par w.ctx)
    (hs : w.ctx.slot = some sl) : (onScdone e sl w).Keeps (DeviceInv e.par) := by
  have ho : w.ctx.dstate ≠ .offline := fun ho => by simp [h.2.2.2.2.2.2.1 (.inl ho)] at hs
  have hk := scCpFinish_keeps (e := e) h.1
  unfold onScdone
  dsimp only
  split
  · exact Work.done_keeps (complete_inv (w := absorbSc w _) (deviceInv_sc h hk.keeps) (by simpa using ho) (.inl rfl))
  · rename_i st hf
    cases st with
    | raise x => exact absurd hf (by unfold scCpFinish; split <;> simp [scStop])
    | refuse r => exact Work.refuse_keeps _ _
    | fault f => exact absurd hf (hk.noFault f)

theorem acceptPlain_inv {e : Env} {sl : Slot} {p : Packet} {pay : Bytes} {w : Work Device}
    (h : DeviceInv e.par w.ctx) (hs : w.ctx.slot = some sl) :
    (acceptPlain e sl p pay w).Keeps (DeviceInv e.par) := by
  have ho : w.ctx.dstate ≠ .offline := fun ho => by simp [h.2.2.2.2.2.2.1 (.inl ho)] at hs
  have hs' : w.ctx.slot.isSome = true := by simp [hs]
  unfold acceptPlain
  split
  · exact Work.done_keeps (desync_inv h hs')
  split
  · exact Work.done_keeps (unexpected_inv h hs')
  split
  · exact Work.done_keeps (unexpected_inv h hs')
  split
  · exact onCcrypt_inv h hs ‹_›
  split
  · exact onScdone_inv h hs
  · refine Work.done_keeps ?_
    have := complete_inv (sl := sl) h ho (.inl rfl)
    rw [complete_ctx] at this
    rw [success_ctx]
    exact this

/-- `accept_reply` keeps the invariant, whatever the packet (R191). -/
theorem acceptReply_inv {e : Env} {p : Packet} {w : Work Device} (h : DeviceInv e.par w.ctx) :
    (acceptReply e p w).Keeps (DeviceInv e.par) := by
  unfold acceptReply
  split
  · exact Work.done_keeps h
  split
  · exact Work.done_keeps h
  · rename_i sl hs
    have ho : w.ctx.dstate ≠ .offline := fun ho => by simp [h.2.2.2.2.2.2.1 (.inl ho)] at hs
    have hk : ScKeeps ScInvCp (scUnwrap e p.payload w.ctx.sc) := scUnwrap_keeps h.1 h.1.hasKeys scInvCp_broken
    split
    · dsimp only
      split
      · exact acceptPlain_inv (deviceInv_sc h hk.keeps) (by simpa using hs)
      · exact Work.done_keeps (deviceInv_sc h hk.keeps)
      · exact Work.done_keeps (channelBroken_inv (deviceInv_sc h hk.keeps) (by simpa using ho))
      · rename_i st _ hn hf
        cases st with
        | raise x => exact (hn x rfl).elim
        | refuse r => exact Work.refuse_keeps _ _
        | fault f => exact absurd hf (hk.noFault f)
    · exact acceptPlain_inv h hs

theorem cpVerdict_inv {e : Env} {v : Verdict} {w : Work Device} (h : DeviceInv e.par w.ctx) :
    (cpVerdict e v w).Keeps (DeviceInv e.par) := by
  unfold cpVerdict
  split
  · exact Work.done_keeps h
  · exact acceptReply_inv h

/-- `DEV_RX` keeps the invariant, whatever the bytes (R190). -/
theorem devRx_inv {e : Env} {c : Bytes} {w : Work Device} (h : DeviceInv e.par w.ctx) :
    (devRx e c w).Keeps (DeviceInv e.par) := by
  unfold devRx
  split
  · exact Work.done_keeps h
  · exact eachVerdict_keeps (fun v w hw => cpVerdict_inv hw) _ _
      (deviceInv_rxbuf h (feed_pending _ _ _ h.2.2.2.2.2.2.2.2.2.2))

theorem cpPacket_inv {e : Env} {p : Packet} {w : Work Device} (h : DeviceInv e.par w.ctx) :
    (cpPacket e p w).Keeps (DeviceInv e.par) := by
  unfold cpPacket
  split
  · exact Work.done_keeps h
  · exact acceptReply_inv h

/-- `DEV_START` keeps the invariant when the retry threshold is at least 1 (R183, R9). -/
theorem devStart_inv {e : Env} {w : Work Device} (hr : 1 ≤ e.par.retryMax) (h : DeviceInv e.par w.ctx) :
    (devStart e w).Keeps (DeviceInv e.par) := by
  unfold devStart
  split
  · exact Work.refuse_keeps _ _
  · obtain ⟨h1, h2, h3, h4, h5, h6, h7, h8, h9, h10, h11⟩ := h
    refine Work.done_keeps ?_
    rw [cpScReset_eq]
    exact ⟨scInvCp_init, rfl, by simp, by simp, by simp, h6, by simp, by simp, fun _ => hr, h10, rfl⟩

/-- `DEV_SC_START` keeps the invariant (R185). -/
theorem devScStart_inv {e : Env} {w : Work Device} (h : DeviceInv e.par w.ctx) :
    (devScStart e w).Keeps (DeviceInv e.par) := by
  unfold devScStart
  split
  · exact Work.refuse_keeps _ _
  split
  · exact Work.raise_keeps _ h
  · rename_i hd _
    obtain ⟨h1, h2, h3, h4, h5, h6, h7, h8, h9, h10, h11⟩ := h
    refine Work.done_keeps ?_
    rw [cpScReset_eq]
    have hd' : w.ctx.dstate = .polling := by simpa using hd
    refine ⟨scInvCp_init, h2, h3, by simp, by simp, h6, by simp, by simp, fun _ => h9 (by simp [hd']), h10, h11⟩

/-- `DEV_SUBMIT` keeps the invariant (R184). -/
theorem devSubmit_inv {par : Params} {t : Byte} {p : Bytes} {d d' : Device} (h : DeviceInv par d)
    (hs : devSubmit par t p d = .ok d') : DeviceInv par d' := by
  unfold devSubmit at hs
  split at hs
  · cases hs
  split at hs
  · cases hs
  split at hs
  · cases hs
  split at hs
  · cases hs
  split at hs
  · cases hs
  split at hs
  · cases hs
  · cases hs
    rename_i ho ht _ _ _ _ _ hq
    obtain ⟨h1, h2, h3, h4, h5, h6, h7, h8, h9, h10, h11⟩ := h
    refine ⟨h1, h2, h3, h4, h5, ?_, h7, fun hx => absurd hx ho, h9, ?_, h11⟩
    · intro c hc
      rcases List.mem_append.mp hc with hc | hc
      · exact h6 c hc
      · rw [List.mem_singleton] at hc
        subst hc
        exact ⟨fun e => ht (.inl e), fun e => ht (.inr e)⟩
    · simp only [List.length_append, List.length_singleton]
      omega

end Sys2Proof.Machine
end

