-- ==== Sys2Proof/Laws/Pd.lean ====
section
/-! SUPPORT. Laws of the PD's procedures: what each leaves in the context, and that it keeps `PdcInv`. -/

namespace Sys2Proof.Machine

@[simp] theorem absorbPdSc_ctx {α : Type} (w : Work Pdc) (r : ScDone α) :
    (absorbPdSc w r).ctx = { w.ctx with sc := r.sc } := rfl
@[simp] theorem absorbPdSc_notes {α : Type} (w : Work Pdc) (r : ScDone α) :
    (absorbPdSc w r).notes = w.notes ++ r.notes := rfl
@[simp] theorem absorbPdSc_frames {α : Type} (w : Work Pdc) (r : ScDone α) : (absorbPdSc w r).frames = w.frames := rfl
@[simp] theorem absorbPdSc_draws {α : Type} (w : Work Pdc) (r : ScDone α) :
    (absorbPdSc w r).draws = w.draws + r.drew.toNat := rfl

/-- What sending a reply can do: send it, or be refused as a packet that is not valid (R224 to R226). -/
theorem pdSend_cases (e : Env) (q : Seq) (c x : Bool) (t : Byte) (p : Bytes) (w : Work Pdc) :
    (∃ f, pdSend e q c x t p w =
      ({ w with ctx := { w.ctx with pseq := nextSeq q, pdstate := .repliedWaiting } }.emit f).done) ∨
    (∃ r, pdSend e q c x t p w = w.stopped (.refuse r)) := by
  unfold pdSend
  split
  · exact .inr ⟨_, rfl⟩
  · exact .inl ⟨_, rfl⟩

theorem pdSend_fits {e : Env} {p : Bytes} (h : p.length ≤ e.par.maxPayload) (q : Seq) (c x : Bool) (t : Byte)
    (w : Work Pdc) : pdSend e q c x t p w =
      ({ w with ctx := { w.ctx with pseq := nextSeq q, pdstate := .repliedWaiting } }.emit
        (frameOf e.par (mkPacket e.id q c x t p))).done := by
  simp [pdSend, encode_mkPacket h]

/-- A command for this PD whose payload opens goes on to the sequence check, with nothing changed (R222, steps 1 to 4). -/
theorem acceptCommand_opens {e : Env} {w : Work Pdc} {q : Packet} {pay : Bytes} (hok : paramsOk e.par = true)
    (hid : q.devid = e.id) (hs : w.ctx.pdstate ≠ .processingCommand) (h : Opens e.par w.ctx.sc q.sec q.payload pay) :
    acceptCommand e q w = commandPlain e q pay w := by
  cases hq : q.sec with
  | false =>
    rw [hq] at h
    rcases h with ⟨-, rfl⟩ | ⟨h, -⟩
    · simp [acceptCommand, hid, hs, hq]
    · cases h
  | true =>
    rw [hq] at h
    simp [acceptCommand, hid, hs, hq, scUnwrap_opens hok h, absorbPdSc]

theorem pdcInv_init (par : Params) : PdcInv par Pdc.init := ⟨scInvPd_init, by simp [Pdc.init], rfl⟩

theorem pdcInv_sc {par : Params} {p : Pdc} {sc : Sc} (h : PdcInv par p) (hs : ScInvPd sc) :
    PdcInv par { p with sc := sc } := ⟨hs, h.2⟩

theorem pdcInv_rxbuf {par : Params} {p : Pdc} {rx : Bytes} (h : PdcInv par p) (hr : Pending par rx) :
    PdcInv par { p with rxbuf := rx } := ⟨h.1, h.2.1, hr⟩

theorem pdSend_inv {e : Env} {q : Seq} {c x : Bool} {t : Byte} {p : Bytes} {w : Work Pdc} (h : PdcInv e.par w.ctx)
    (hn : w.ctx.pdstate ≠ .processingCommand) : (pdSend e q c x t p w).Keeps (PdcInv e.par) := by
  rcases pdSend_cases e q c x t p w with ⟨f, hx⟩ | ⟨r, hx⟩
  · rw [hx]
    refine Work.done_keeps ⟨h.1, ?_, h.2.2⟩
    have := h.2.1
    simp only [Work.emit_ctx, reduceCtorEq, false_iff]
    exact fun hc => hn (this.mpr hc)
  · rw [hx]; exact Work.refuse_keeps _ _

theorem onChlng_inv {e : Env} {p : Packet} {pay : Bytes} {w : Work Pdc} (h : PdcInv e.par w.ctx)
    (hn : w.ctx.pdstate ≠ .processingCommand) : (onChlng e p pay w).Keeps (PdcInv e.par) := by
  have hk := scPdChallenge_keeps (e := e) (rnd := drawBytes e.id e.par.chalLen w.draws) (p := pay) h.1
  unfold onChlng
  dsimp only
  split
  · exact pdSend_inv (pdcInv_sc h hk.keeps) hn
  · exact Work.done_keeps (pdcInv_sc h hk.keeps)
  · rename_i st hr hf
    cases st with
    | raise x => exact (hr x rfl).elim
    | refuse r => exact Work.refuse_keeps _ _
    | fault f => exact absurd hf (hk.noFault f)

theorem onScrypt_inv {e : Env} {p : Packet} {pay : Bytes} {w : Work Pdc} (h : PdcInv e.par w.ctx)
    (hn : w.ctx.pdstate ≠ .processingCommand) : (onScrypt e p pay w).Keeps (PdcInv e.par) := by
  have hk := scPdVerify_keeps (e := e) (p := pay) h.1
  unfold onScrypt
  dsimp only
  split
  · exact pdSend_inv (pdcInv_sc h hk.keeps) hn
  · exact Work.done_keeps (pdcInv_sc h hk.keeps)
  · rename_i st hr hf
    cases st with
    | raise x => exact (hr x rfl).elim
    | refuse r => exact Work.refuse_keeps _ _
    | fault f => exact absurd hf (hk.noFault f)

theorem commandPlain_inv {e : Env} {p : Packet} {pay : Bytes} {w : Work Pdc} (h : PdcInv e.par w.ctx)
    (hn : w.ctx.pdstate ≠ .processingCommand) : (commandPlain e p pay w).Keeps (PdcInv e.par) := by
  unfold commandPlain
  split
  · exact Work.done_keeps h
  split
  · exact onChlng_inv h hn
  split
  · exact onScrypt_inv h hn
  · exact Work.done_keeps ⟨h.1, by simp, h.2.2⟩

/-- `accept_command` keeps the invariant, whatever the packet (R222). -/
theorem acceptCommand_inv {e : Env} {p : Packet} {w : Work Pdc} (h : PdcInv e.par w.ctx) :
    (acceptCommand e p w).Keeps (PdcInv e.par) := by
  unfold acceptCommand
  split
  · exact Work.done_keeps h
  split
  · exact Work.done_keeps h
  · have hk : ScKeeps ScInvPd (scUnwrap e p.payload w.ctx.sc) := scUnwrap_keeps h.1 h.1.hasKeys scInvPd_broken
    split
    · dsimp only
      split
      · exact commandPlain_inv (pdcInv_sc h hk.keeps) (by assumption)
      · exact Work.done_keeps (pdcInv_sc h hk.keeps)
      · rename_i st hr hf
        cases st with
        | raise x => exact (hr x rfl).elim
        | refuse r => exact Work.refuse_keeps _ _
        | fault f => exact absurd hf (hk.noFault f)
    · exact commandPlain_inv h (by assumption)

theorem pdVerdict_inv {e : Env} {v : Verdict} {w : Work Pdc} (h : PdcInv e.par w.ctx) :
    (pdVerdict e v w).Keeps (PdcInv e.par) := by
  unfold pdVerdict
  split
  · exact Work.done_keeps h
  · exact acceptCommand_inv h

/-- `PD_RX` keeps the invariant, whatever the bytes (R221). -/
theorem pdRx_inv {e : Env} {c : Bytes} {w : Work Pdc} (h : PdcInv e.par w.ctx) :
    (pdRx e c w).Keeps (PdcInv e.par) :=
  eachVerdict_keeps (fun _ _ hw => pdVerdict_inv hw) _ _ (pdcInv_rxbuf h (feed_pending _ _ _ h.2.2))

/-- `PD_REPLY` keeps the invariant (R226). -/
theorem pdReply_inv {e : Env} {t : Byte} {p : Bytes} {w : Work Pdc} (h : PdcInv e.par w.ctx) :
    (pdReply e t p w).Keeps (PdcInv e.par) := by
  unfold pdReply
  split
  · exact Work.refuse_keeps _ _
  · rename_i hst
    split
    · rename_i hc
      have := h.2.1.mp (by simpa using hst)
      simp [hc] at this
    · split
      · exact Work.refuse_keeps _ _
      split
      · exact Work.refuse_keeps _ _
      split
      · rename_i st hw
        cases st with
        | raise x => exact Work.raise_keeps x h
        | refuse r => exact Work.refuse_keeps _ _
        | fault f =>
          unfold wirePayload at hw
          split at hw
          · exact absurd hw (scWrap_noFault h.1.hasKeys f)
          · cases hw
      · rename_i c _ _ _ _ wire _
        rcases pdSend_cases e c.seq c.crc c.sec t wire w with ⟨f, hx⟩ | ⟨r, hx⟩
        · rw [hx, Work.done_andThen]
          exact Work.done_keeps ⟨h.1, by simp, h.2.2⟩
        · rw [hx, Work.stopped_andThen]
          exact Work.refuse_keeps _ _

end Sys2Proof.Machine
end

