-- ==== Sys2Proof/Laws/Exec.lean ====
section
/-! SUPPORT. Laws of exec: the one inversion lemma that says everything an instruction other than RESET can do to the
state, from which whole-machine facts follow by cases. -/

namespace Sys2Proof.Machine

/-! ### Draws are only taken -/

theorem xmit_draws (e : Env) (now : Time) (w : Work Device) : (xmit e now w).work.draws = w.draws := by
  unfold xmit
  split
  · rfl
  · split
    · exact Work.stoppedNoting_draws _ _ _
    · split <;> rfl

theorem send_draws (e : Env) (now : Time) (t : Byte) (p : Bytes) (w : Work Device) :
    (send e now t p w).work.draws = w.draws := xmit_draws _ _ _

theorem goOffline_draws (e : Env) (r : OfflineReason) (w : Work Device) : (goOffline e r w).draws = w.draws := by
  simp [goOffline, cpScReset_eq, Work.note]

theorem boundedRetry_draws (e : Env) (w : Work Device) : (boundedRetry e w).1.draws = w.draws := by
  unfold boundedRetry
  dsimp only
  split
  · exact goOffline_draws _ _ _
  · rfl

theorem channelBroken_draws (e : Env) (c : ErrorCode) (w : Work Device) : (channelBroken e c w).draws = w.draws := by
  unfold channelBroken
  split <;> rfl

theorem complete_draws (e : Env) (sl : Slot) (w : Work Device) : (complete e sl w).draws = w.draws := by
  unfold complete
  dsimp only
  split <;> rfl

theorem success_draws (e : Env) (sl : Slot) (r : Byte) (p : Bytes) (w : Work Device) :
    (success e sl r p w).draws = w.draws := by
  simp [success, complete_draws]

theorem awaiting_draws (e : Env) (now : Time) (w : Work Device) : (awaiting e now w).work.draws = w.draws := by
  unfold awaiting
  split
  · exact xmit_draws _ _ _
  · split
    · dsimp only
      split
      · rw [xmit_draws, boundedRetry_draws]
      · exact boundedRetry_draws _ _
    · rfl

theorem unexpected_draws (e : Env) (c : ErrorCode) (w : Work Device) : (unexpected e c w).draws = w.draws := by
  unfold unexpected
  dsimp only
  split <;> simp [boundedRetry_draws]

theorem desync_draws (e : Env) (w : Work Device) : (desync e w).draws = w.draws := by
  unfold desync
  dsimp only
  split
  · simp [goOffline_draws]
  · rfl

theorem tickPolling_draws (e : Env) (now : Time) (w : Work Device) : (tickPolling e now w).work.draws = w.draws := by
  unfold tickPolling
  split
  · rfl
  · rename_i w1 c hp
    have hd := (pickCommand_cases hp).2.2.1
    refine Done.andThen_work (P := fun w' => w'.draws = w.draws) ?_ (fun w' hw => hw)
    rw [send_draws, hd]

theorem devTick_draws (e : Env) (now : Time) (w : Work Device) : w.draws ≤ (devTick e now w).work.draws := by
  unfold devTick
  split
  · exact Nat.le_refl _
  · rw [tickPolling_draws]
  · rw [awaiting_draws]
  · unfold tickHandshake
    split
    · rw [awaiting_draws]
    · dsimp only
      have h1 : (if w.ctx.sc.state = .broken then cpScReset e w else w).draws = w.draws := by
        split
        · rw [cpScReset_eq]
        · rfl
      split
      · unfold tickChallenge
        dsimp only
        split
        · rw [send_draws, absorbSc_draws, h1]; omega
        · rw [Work.stopped_work, absorbSc_draws, h1]; omega
      · unfold tickConfirm
        dsimp only
        split
        · rw [send_draws, absorbSc_draws, h1]; omega
        · rw [Work.done_work, channelBroken_draws, Work.note_draws, absorbSc_draws, h1]; omega
        · rw [Work.stopped_work, absorbSc_draws, h1]; omega
      · rw [Work.done_work, h1]
      · rw [Work.done_work, h1]
      · rw [Work.done_work, h1]

theorem acceptPlain_draws (e : Env) (sl : Slot) (p : Packet) (pay : Bytes) (w : Work Device) :
    w.draws ≤ (acceptPlain e sl p pay w).work.draws := by
  unfold acceptPlain
  split
  · rw [Work.done_work, desync_draws]
  split
  · rw [Work.done_work, unexpected_draws]
  split
  · rw [Work.done_work, unexpected_draws]
  split
  · unfold onCcrypt
    dsimp only
    split
    · rw [Work.done_work, complete_draws, absorbSc_draws]; omega
    · rw [Work.done_work, unexpected_draws, absorbSc_draws]; omega
    · rw [Work.done_work, channelBroken_draws, Work.note_draws, absorbSc_draws]; omega
    · rw [Work.stopped_work, absorbSc_draws]; omega
  split
  · unfold onScdone
    dsimp only
    split
    · rw [Work.done_work]
      simp only [complete_draws, absorbSc_draws]; omega
    · rw [Work.stopped_work, absorbSc_draws]; omega
  · rw [Work.done_work, success_draws]

theorem acceptReply_draws (e : Env) (p : Packet) (w : Work Device) : w.draws ≤ (acceptReply e p w).work.draws := by
  unfold acceptReply
  split
  · exact Nat.le_refl _
  split
  · exact Nat.le_refl _
  split
  · dsimp only
    split
    · exact Nat.le_trans (by rw [absorbSc_draws]; omega) (acceptPlain_draws _ _ _ _ (absorbSc w _))
    · rw [Work.done_work, Work.note_draws, absorbSc_draws]; omega
    · rw [Work.done_work, channelBroken_draws, Work.note_draws, absorbSc_draws]; omega
    · rw [Work.stopped_work, absorbSc_draws]; omega
  · exact acceptPlain_draws _ _ _ _ _

theorem devRx_draws (e : Env) (c : Bytes) (w : Work Device) : w.draws ≤ (devRx e c w).work.draws := by
  unfold devRx
  split
  · exact Nat.le_refl _
  · refine eachVerdict_work (P := fun w' => w.draws ≤ w'.draws) ?_ _ _ (Nat.le_refl _)
    intro v w' hw
    unfold cpVerdict
    split
    · exact hw
    · exact Nat.le_trans hw (acceptReply_draws _ _ _)

theorem cpPacket_draws (e : Env) (p : Packet) (w : Work Device) : w.draws ≤ (cpPacket e p w).work.draws := by
  unfold cpPacket
  split
  · exact Nat.le_refl _
  · exact acceptReply_draws _ _ _

theorem devStart_draws (e : Env) (w : Work Device) : w.draws ≤ (devStart e w).work.draws := by
  unfold devStart
  split
  · exact Nat.le_refl _
  · simp [cpScReset_eq]

theorem devScStart_draws (e : Env) (w : Work Device) : w.draws ≤ (devScStart e w).work.draws := by
  unfold devScStart
  split
  · exact Nat.le_refl _
  split
  · exact Nat.le_refl _
  · simp [cpScReset_eq]

theorem acceptCommand_draws (e : Env) (p : Packet) (w : Work Pdc) : w.draws ≤ (acceptCommand e p w).work.draws := by
  have hsend : ∀ (q : Seq) (c x : Bool) (t : Byte) (b : Bytes) (w' : Work Pdc),
      (pdSend e q c x t b w').work.draws = w'.draws := by
    intro q c x t b w'
    rcases pdSend_cases e q c x t b w' with ⟨f, h⟩ | ⟨r, h⟩ <;> rw [h] <;> rfl
  have hplain : ∀ (pay : Bytes) (w' : Work Pdc), w'.draws ≤ (commandPlain e p pay w').work.draws := by
    intro pay w'
    unfold commandPlain
    split
    · exact Nat.le_refl _
    split
    · unfold onChlng
      dsimp only
      split
      · rw [hsend, absorbPdSc_draws]; omega
      · rw [Work.done_work, Work.note_draws, absorbPdSc_draws]; omega
      · rw [Work.stopped_work, absorbPdSc_draws]; omega
    split
    · unfold onScrypt
      dsimp only
      split
      · rw [hsend, absorbPdSc_draws]; omega
      · rw [Work.done_work, Work.note_draws, absorbPdSc_draws]; omega
      · rw [Work.stopped_work, absorbPdSc_draws]; omega
    · exact Nat.le_refl _
  unfold acceptCommand
  split
  · exact Nat.le_refl _
  split
  · exact Nat.le_refl _
  split
  · dsimp only
    split
    · exact Nat.le_trans (by rw [absorbPdSc_draws]; omega) (hplain _ (absorbPdSc w _))
    · rw [Work.done_work, Work.note_draws, absorbPdSc_draws]; omega
    · rw [Work.stopped_work, absorbPdSc_draws]; omega
  · exact hplain _ _

theorem pdRx_draws (e : Env) (c : Bytes) (w : Work Pdc) : w.draws ≤ (pdRx e c w).work.draws := by
  refine eachVerdict_work (P := fun w' => w.draws ≤ w'.draws) ?_ _ _ (Nat.le_refl _)
  intro v w' hw
  unfold pdVerdict
  split
  · exact hw
  · exact Nat.le_trans hw (acceptCommand_draws _ _ _)

theorem pdReply_draws (e : Env) (t : Byte) (p : Bytes) (w : Work Pdc) : w.draws ≤ (pdReply e t p w).work.draws := by
  unfold pdReply
  split
  · exact Nat.le_refl _
  split
  · exact Nat.le_refl _
  split
  · exact Nat.le_refl _
  split
  · exact Nat.le_refl _
  split
  · rw [Work.stoppedNoting_draws]
  · refine Done.andThen_work (P := fun w' => w.draws ≤ w'.draws) ?_ (fun w' hw => hw)
    rcases pdSend_cases e _ _ _ t _ w with ⟨f, h⟩ | ⟨r, h⟩ <;> rw [h] <;> exact Nat.le_refl _

/-! ### A reply is handled without transmitting (R242, C10) -/

theorem goOffline_frames (e : Env) (r : OfflineReason) (w : Work Device) : (goOffline e r w).frames = w.frames := by
  simp [goOffline, cpScReset_eq, Work.note]

theorem channelBroken_frames (e : Env) (c : ErrorCode) (w : Work Device) : (channelBroken e c w).frames = w.frames := by
  unfold channelBroken
  split <;> rfl

theorem complete_frames (e : Env) (sl : Slot) (w : Work Device) : (complete e sl w).frames = w.frames := by
  unfold complete
  dsimp only
  split <;> rfl

theorem unexpected_frames (e : Env) (c : ErrorCode) (w : Work Device) : (unexpected e c w).frames = w.frames := by
  simp only [unexpected, boundedRetry]
  split <;> split <;> simp_all [goOffline_frames, Work.note]

theorem desync_frames (e : Env) (w : Work Device) : (desync e w).frames = w.frames := by
  unfold desync
  dsimp only
  split
  · rw [goOffline_frames]; rfl
  · rfl

theorem acceptPlain_frames (e : Env) (sl : Slot) (p : Packet) (pay : Bytes) (w : Work Device) :
    (acceptPlain e sl p pay w).work.frames = w.frames := by
  simp only [acceptPlain, onCcrypt, onScdone]
  repeat' split
  all_goals
    simp [Work.done, Work.stopped, Work.note, success, desync_frames, unexpected_frames, complete_frames, channelBroken_frames]

theorem acceptReply_frames (e : Env) (p : Packet) (w : Work Device) : (acceptReply e p w).work.frames = w.frames := by
  simp only [acceptReply]
  repeat' split
  all_goals simp [Work.done, Work.stopped, Work.note, acceptPlain_frames, channelBroken_frames]

theorem devRx_frames (e : Env) (c : Bytes) (w : Work Device) : (devRx e c w).work.frames = w.frames := by
  unfold devRx
  split
  · rfl
  · refine eachVerdict_work (P := fun w' => w'.frames = w.frames) ?_ _ _ rfl
    intro v w' hw
    unfold cpVerdict
    split
    · exact hw
    · rw [acceptReply_frames, hw]

/-! ### What an instruction can do -/

/-- The shapes of the next state `t` of an instruction other than RESET that is not refused: only the result is new; the
context of the one device the instruction touches, the count of its draws, and the multiplexer may have changed; or the
PD context of a PD and the count of its draws. -/
inductive Shape (i : Instr) (s t : State) : Prop where
  | pure (r : Option Result) (h : t = { s with result := r })
  | device (hr : s.par.role = .cp) (a : DevId) (ha : touched s i = some a) (d : Option Device) (m : Mux) (n : Nat) (r : Option Result)
      (hm : (∀ now, i ≠ .muxTick now) → m = s.mux) (hn : s.drawn a ≤ n)
      (h : t = { (s.setDev a d).setDrawn a n with mux := m, result := r })
  | pd (hr : s.par.role = .pd) (p : Pdc) (n : Nat) (r : Option Result) (hn : s.drawn s.par.myAddr ≤ n)
      (h : t = { s.setDrawn s.par.myAddr n with pdc := p, result := r })

/-- What an instruction's next state is: the refusal of all of it, or one of the shapes under a record that is no
refusal. -/
def Ends (i : Instr) (s : State) (o : Host.Outcome State Fault Refusal) : Prop :=
  ∀ t, o = .next t → (∃ x, t = s.refuse x) ∨
    (Shape i s t ∧ ∃ r : Result, t.result = some r ∧ ∀ x, r.status ≠ .refused x)

/-- An operand that passed its check names the device touched. -/
theorem touched_operand {s : State} {i : Instr} {a : Nat} {j : DevId} (ht : touched s i = devIdOf a) (h : a = j.toNat) :
    touched s i = some j := by rw [ht, h, devIdOf_toNat]

theorem Ends.refuse (i : Instr) (s : State) (x : RefusalCode) : Ends i s (.next (s.refuse x)) :=
  fun _ h => .inl ⟨x, (Host.Outcome.next.inj h).symm⟩

theorem Ends.answer (i : Instr) (s : State) {st : Status} {v : Value} (h : ∀ x, st ≠ .refused x) :
    Ends i s (.next (s.answer st v)) :=
  fun _ e => by cases e; exact .inr ⟨.pure _ rfl, _, rfl, h⟩

theorem Ends.finishDev (i : Instr) {s : State} (hr : s.par.role = .cp) (a : DevId) (ha : touched s i = some a)
    {r : Done Device} (hn : s.drawn a ≤ r.work.draws) : Ends i s (finishDev s a r) := by
  intro t h
  rcases finish_next h with ⟨x, _, rfl⟩ | ⟨res, hx, _, _, rfl, _⟩
  · exact .inl ⟨x, rfl⟩
  · exact .inr ⟨.device hr a ha (some r.work.ctx) s.mux _ (some res) (fun _ => rfl) hn rfl, res, rfl, hx⟩

theorem Ends.onDevice (i : Instr) (s : State) (a : Nat) (ht : touched s i = devIdOf a)
    {g : Env → Work Device → Done Device} (hg : ∀ e w, w.draws ≤ (g e w).work.draws) : Ends i s (onDevice s a g) := by
  unfold Machine.onDevice
  cases h : cpDevice s a with
  | error r => exact Ends.refuse i s r
  | ok p =>
    obtain ⟨j, d⟩ := p
    have ⟨hr, hj, _⟩ := cpDevice_ok h
    exact Ends.finishDev i hr _ (touched_operand ht hj) (hg (s.cpEnv j) (Work.start d (s.drawn j)))

theorem Ends.muxRoute (i : Instr) (s : State) (a : Nat) (ht : touched s i = devIdOf a)
    {g : Env → Work Device → Done Device} (hg : ∀ e w, w.draws ≤ (g e w).work.draws) : Ends i s (muxRoute s a g) := by
  unfold Machine.muxRoute
  cases h : cpId s a with
  | error r => exact Ends.refuse i s r
  | ok j =>
    dsimp only
    cases s.dev j with
    | none => exact Ends.answer i s (by simp)
    | some d => exact Ends.finishDev i (cpId_ok h).1 _ (touched_operand ht (cpId_ok h).2) (hg (s.cpEnv j) (Work.start d (s.drawn j)))

theorem Ends.onPd (i : Instr) (s : State) {g : Env → Work Pdc → Done Pdc}
    (hg : ∀ e w, w.draws ≤ (g e w).work.draws) : Ends i s (onPd s g) := by
  cases hr : s.par.role with
  | cp => unfold Machine.onPd; rw [requirePd_cp hr]; exact Ends.refuse i s _
  | pd =>
    rw [onPd_pd hr]
    intro t h
    rcases finish_next h with ⟨x, _, rfl⟩ | ⟨res, hx, _, _, rfl, _⟩
    · exact .inl ⟨x, rfl⟩
    · exact .inr ⟨.pd hr _ _ (some res) (hg s.pdEnv (Work.start s.pdc (s.drawn s.par.myAddr))) rfl, res, rfl, hx⟩

theorem Ends.onCpChannel {α : Type} (i : Instr) (s : State) (a : Nat) (ht : touched s i = devIdOf a) (f : α → Value)
    (g : Env → Sc → ScDone α) :
    Ends i s (onCpChannel s a f g) := by
  unfold Machine.onCpChannel
  cases h : cpDevice s a with
  | error r => exact Ends.refuse i s r
  | ok p =>
    have ⟨hr, hj, _⟩ := cpDevice_ok (i := p.1) (d := p.2) h
    intro t h
    rcases finish_next h with ⟨x, _, rfl⟩ | ⟨res, hx, _, _, rfl, _⟩
    · exact .inl ⟨x, rfl⟩
    · exact .inr ⟨.device hr p.1 (touched_operand ht hj) _ s.mux _ (some res) (fun _ => rfl)
        (Nat.le_add_right _ _) rfl, res, rfl, hx⟩

theorem Ends.onPdChannel {α : Type} (i : Instr) (s : State) (f : α → Value) (g : Env → Sc → ScDone α) :
    Ends i s (onPdChannel s f g) := by
  unfold Machine.onPdChannel
  cases hr : s.par.role with
  | cp => rw [requirePd_cp hr]; exact Ends.refuse i s _
  | pd =>
    rw [requirePd_pd hr]
    intro t ht
    rcases finish_next ht with ⟨x, _, rfl⟩ | ⟨res, hx, _, _, rfl, _⟩
    · exact .inl ⟨x, rfl⟩
    · exact .inr ⟨.pd hr _ _ (some res) (Nat.le_add_right _ _) rfl, res, rfl, hx⟩

theorem Ends.onChannel {α : Type} (i : Instr) (s : State) (a : Nat) (ht : touched s i = devIdOf a) (f : α → Value)
    (g : Env → Sc → ScDone α) :
    Ends i s (onChannel s a f g) := by
  unfold Machine.onChannel
  split
  · exact Ends.onCpChannel _ _ _ ht _ _
  · exact Ends.onPdChannel _ _ _ _

theorem Ends.deliver (i : Instr) (s : State) (a : Nat) (ht : touched s i = devIdOf a) (b : Bytes) :
    Ends i s (deliver a b s) := by
  unfold Machine.deliver
  split
  · exact Ends.muxRoute _ _ _ ht fun e w => devRx_draws e b w
  · exact Ends.onPd _ _ fun e w => pdRx_draws e b w

theorem Ends.deliverMessage (i : Instr) (s : State) (a : Nat) (ht : touched s i = devIdOf a) (t : Byte) (m : Message) :
    Ends i s (deliverMessage a t m s) := by
  unfold Machine.deliverMessage
  split
  · exact Ends.muxRoute _ _ _ ht fun e w => cpPacket_draws e _ w
  · exact Ends.onPd _ _ fun e w => acceptCommand_draws e _ w

theorem Ends.setDev (i : Instr) {s : State} (hr : s.par.role = .cp) (a : DevId) (ha : touched s i = some a)
    (d : Option Device) {st : Status} {v : Value} (h : ∀ x, st ≠ .refused x) : Ends i s (.next ((s.setDev a d).answer st v)) :=
  fun _ e => by cases e; exact .inr ⟨.device hr a ha d s.mux (s.drawn a)
    (some { status := st, frames := [], notes := [], value := v }) (fun _ => rfl) (Nat.le_refl _) (by simp [State.answer]), _, rfl, h⟩

theorem Ends.setPdc (i : Instr) {s : State} (hr : s.par.role = .pd) (p : Pdc) {st : Status} {v : Value}
    (h : ∀ x, st ≠ .refused x) : Ends i s (.next ({ s with pdc := p }.answer st v)) :=
  fun _ e => by cases e; exact .inr ⟨.pd hr p (s.drawn s.par.myAddr)
    (some { status := st, frames := [], notes := [], value := v }) (Nat.le_refl _) (by simp [State.answer]), _, rfl, h⟩

theorem Ends.serve (s : State) (hr : s.par.role = .cp) (a : DevId) (d : Device) (q : DevId) (now : Time)
    (ha : touched s (.muxTick now) = some a) :
    Ends (.muxTick now) s (serve s a d q now) := by
  intro t h
  unfold Machine.serve at h
  rcases finish_next h with ⟨x, _, rfl⟩ | ⟨res, hx, _, _, rfl, _⟩
  · exact .inl ⟨x, rfl⟩
  · exact .inr ⟨.device hr a ha _ _ _ (some res) (fun hn => absurd rfl (hn now))
      (devTick_draws (s.cpEnv a) now (Work.start d (s.drawn a))) rfl, res, rfl, hx⟩

/-- Everything an instruction other than RESET can do. -/
theorem exec_ends (i : Instr) (s : State) (hi : i ≠ .reset) : Ends i s (exec i s) := by
  cases i with
  | wfEncode p =>
    show Ends _ s (execWfEncode p s)
    unfold execWfEncode
    split
    · exact Ends.refuse _ _ _
    · split
      · exact Ends.refuse _ _ _
      · exact Ends.answer _ _ (by simp)
  | wfDecode b =>
    show Ends _ s (execWfDecode b s)
    unfold execWfDecode
    split <;> exact Ends.answer _ _ (by simp)
  | wfFeed a c =>
    show Ends _ s (execWfFeed a c s)
    unfold execWfFeed
    split
    · exact Ends.setPdc _ ‹_› _ (by simp)
    · split
      · exact Ends.refuse _ _ _
      · exact Ends.setDev _ ‹_› _ (touched_operand rfl (cpDevice_ok ‹_›).2.1) _ (by simp)
  | wfFlush a =>
    show Ends _ s (execWfFlush a s)
    unfold execWfFlush
    split
    · exact Ends.setPdc _ ‹_› _ (by unfold flushStatus; split <;> simp)
    · split
      · exact Ends.refuse _ _ _
      · exact Ends.setDev _ ‹_› _ (touched_operand rfl (cpDevice_ok ‹_›).2.1) _ (by unfold flushStatus; split <;> simp)
  | scReset a => exact Ends.onChannel _ _ _ rfl _ _
  | scCpBegin a =>
    show Ends _ s (execScCpBegin a s)
    exact Ends.onCpChannel _ _ _ rfl _ _
  | scCpVerify a p =>
    show Ends _ s (execScCpVerify a p s)
    exact Ends.onCpChannel _ _ _ rfl _ _
  | scCpConfirm a => exact Ends.onCpChannel _ _ _ rfl _ _
  | scCpFinish a => exact Ends.onCpChannel _ _ _ rfl _ _
  | scPdChallenge p =>
    show Ends _ s (execScPdChallenge p s)
    exact Ends.onPdChannel _ _ _ _
  | scPdVerify p =>
    show Ends _ s (execScPdVerify p s)
    exact Ends.onPdChannel _ _ _ _
  | scWrap a p => exact Ends.onChannel _ _ _ rfl _ _
  | scUnwrap a w => exact Ends.onChannel _ _ _ rfl _ _
  | regLookupCmd t =>
    show Ends _ s (execRegLookupCmd t s)
    unfold execRegLookupCmd
    split
    · exact Ends.refuse _ _ _
    · exact Ends.answer _ _ (by simp)
  | regLookupRpl t =>
    show Ends _ s (execRegLookupRpl t s)
    unfold execRegLookupRpl
    split
    · exact Ends.refuse _ _ _
    · exact Ends.answer _ _ (by simp)
  | devRegister a u =>
    show Ends _ s (execDevRegister a u s)
    unfold execDevRegister
    cases h : cpId s a with
    | error r => exact Ends.refuse _ _ _
    | ok j =>
      dsimp only
      split
      · exact Ends.refuse _ _ _
      · split
        · exact Ends.refuse _ _ _
        · exact Ends.setDev _ (cpId_ok h).1 _ (touched_operand rfl (cpId_ok h).2) _ (by simp)
  | devDeregister a =>
    show Ends _ s (execDevDeregister a s)
    unfold execDevDeregister
    cases h : cpDevice s a with
    | error r => exact Ends.refuse _ _ _
    | ok p =>
      have ⟨hr, hj, _⟩ := cpDevice_ok (i := p.1) (d := p.2) h
      exact Ends.setDev _ hr _ (touched_operand rfl hj) _ (by simp)
  | devStart a => exact Ends.onDevice _ _ _ rfl devStart_draws
  | devSubmit a t p =>
    show Ends _ s (execDevSubmit a t p s)
    unfold execDevSubmit
    cases h : cpId s a with
    | error r => exact Ends.refuse _ _ _
    | ok j =>
      dsimp only
      split
      · exact Ends.refuse _ _ _
      · exact Ends.refuse _ _ _
      · split
        · exact Ends.refuse _ _ _
        · exact Ends.setDev _ (cpId_ok h).1 _ (touched_operand rfl (cpId_ok h).2) _ (by simp)
  | devScStart a => exact Ends.onDevice _ _ _ rfl devScStart_draws
  | devTick a now => exact Ends.onDevice _ _ _ rfl fun e w => devTick_draws e now w
  | devRx a c => exact Ends.onDevice _ _ _ rfl fun e w => devRx_draws e c w
  | pdRx c => exact Ends.onPd _ _ fun e w => pdRx_draws e c w
  | pdReply t p =>
    show Ends _ s (execPdReply t p s)
    refine Ends.onPd _ _ fun e w => ?_
    split
    · exact Nat.le_refl _
    · exact pdReply_draws _ _ _ _
  | muxTick now =>
    show Ends _ s (execMuxTick now s)
    unfold execMuxTick
    cases hr : s.par.role with
    | pd => rw [requireCp_pd hr]; exact Ends.refuse _ _ _
    | cp =>
      rw [requireCp_cp hr]
      dsimp only
      split
      · unfold muxBusy
        split
        · split
          · exact Ends.serve s hr _ _ _ _ (by simp only [touched, ‹lowestBusy s = _›])
          · exact Ends.answer _ _ (by simp)
        · exact Ends.answer _ _ (by simp)
      · unfold muxScan
        split
        · split
          · split
            · exact Ends.serve s hr _ _ _ _ (by simp only [touched, ‹lowestBusy s = _›, ‹nextEligible s now = _›])
            · exact Ends.answer _ _ (by simp)
          · exact Ends.answer _ _ (by simp)
        · exact Ends.answer _ _ (by simp)
  | muxRx a c => exact Ends.muxRoute _ _ _ rfl fun e w => devRx_draws e c w
  | reset => exact absurd rfl hi
  | frameSk a f c => exact Ends.deliver _ _ _ rfl _
  | frameSc a f c => exact Ends.deliver _ _ _ rfl _
  | frameLk a f c => exact Ends.deliver _ _ _ rfl _
  | frameLc a f c => exact Ends.deliver _ _ _ rfl _
  | tPoll a m => exact Ends.deliverMessage _ _ _ rfl _ _
  | tChlng a m => exact Ends.deliverMessage _ _ _ rfl _ _
  | tCcrypt a m => exact Ends.deliverMessage _ _ _ rfl _ _
  | tScrypt a m => exact Ends.deliverMessage _ _ _ rfl _ _
  | tScdone a m => exact Ends.deliverMessage _ _ _ rfl _ _
  | otherOp c => exact Ends.refuse _ _ _

end Sys2Proof.Machine
end

