-- ==== Sys2Proof/Laws/Local.lean ====
section
/-! SUPPORT. Laws of locality: an instruction that touches one device of a CP neither reads nor writes the context or the
draws of another (R6, R66). -/

namespace Sys2Proof.Machine

/-- The state with another context and draw count for device `b`. -/
def State.graft (s : State) (b : DevId) (x : Option Device) (n : Nat) : State := (s.setDev b x).setDrawn b n

/-- The same outcome with another context and draw count for device `b` in its state. -/
def graftOutcome (b : DevId) (x : Option Device) (n : Nat) :
    Host.Outcome State Fault Refusal → Host.Outcome State Fault Refusal
  | .next t    => .next (t.graft b x n)
  | .fault f   => .fault f
  | .refused r => .refused r

/-- `f` neither reads nor writes what state `s` holds for device `b`, nor the last result. -/
def Local (b : DevId) (f : State → Host.Outcome State Fault Refusal) (s : State) : Prop :=
  ∀ x n r, f { s.graft b x n with result := r } = graftOutcome b x n (f s)

theorem Local.finish {b : DevId} {x : Option Device} {n : Nat} {r : Option Result} (s0 s1 : State) (st : Option Stop)
    (fr : List Bytes) (no : List Note) (v w : Value) :
    Machine.finish { s0.graft b x n with result := r } { s1.graft b x n with result := r } st fr no v w =
      graftOutcome b x n (Machine.finish s0 s1 st fr no v w) := by
  rcases st with _ | (_ | _ | _) <;> rfl

theorem Local.cpId {s : State} (b : DevId) (x : Option Device) (n : Nat) (r : Option Result) (a : Nat) :
    Machine.cpId { s.graft b x n with result := r } a = Machine.cpId s a := rfl

theorem graft_dev {s : State} {b c : DevId} (h : c ≠ b) (x : Option Device) (n : Nat) (r : Option Result) :
    ({ s.graft b x n with result := r } : State).dev c = s.dev c := State.dev_setDev_ne s x h

theorem graft_drawn {s : State} {b c : DevId} (h : c ≠ b) (x : Option Device) (n : Nat) (r : Option Result) :
    ({ s.graft b x n with result := r } : State).drawn c = s.drawn c := State.drawn_setDrawn_ne (s.setDev b x) n h

/-- An operand that names another device than `b`. -/
theorem ne_of_operand {a : Nat} {b c : DevId} (hb : devIdOf a ≠ some b) (h : a = c.toNat) : c ≠ b := by
  rintro rfl; exact hb (by rw [h, devIdOf_toNat])

theorem Local.cpDevice {s : State} {a : Nat} {b : DevId} (hb : devIdOf a ≠ some b) (x : Option Device) (n : Nat)
    (r : Option Result) : Machine.cpDevice { s.graft b x n with result := r } a = Machine.cpDevice s a := by
  unfold Machine.cpDevice
  rw [Local.cpId]
  cases h : Machine.cpId s a with
  | error e => rfl
  | ok i => dsimp only; rw [graft_dev (ne_of_operand hb (cpId_ok h).2)]

/-- Writes to device `i` and to another device are made in either order. -/
theorem graft_write {s : State} {b i : DevId} (h : i ≠ b) (d x : Option Device) (m n : Nat) (r : Option Result) :
    (({ s.graft b x n with result := r } : State).setDev i d).setDrawn i m =
      { ((s.setDev i d).setDrawn i m).graft b x n with result := r } := by
  show { (((s.setDev b x).setDev i d).setDrawn b n).setDrawn i m with result := r } =
    { (((s.setDev i d).setDev b x).setDrawn i m).setDrawn b n with result := r }
  rw [State.setDev_comm s (Ne.symm h), State.setDrawn_comm _ (Ne.symm h)]

/-- The same for a context alone. -/
theorem graft_setDev {s : State} {b i : DevId} (h : i ≠ b) (d x : Option Device) (n : Nat) (r : Option Result) :
    ({ s.graft b x n with result := r } : State).setDev i d = { (s.setDev i d).graft b x n with result := r } := by
  show { ((s.setDev b x).setDev i d).setDrawn b n with result := r } = _
  rw [State.setDev_comm s (Ne.symm h)]; rfl

theorem Local.finishDev {s : State} {b i : DevId} (h : i ≠ b) (w : Done Device) :
    Local b (fun t => Machine.finishDev t i w) s := by
  intro x n r
  show Machine.finish _ _ _ _ _ _ _ = _
  rw [show ({ s.graft b x n with result := r } : State).putWork i w.work =
    { (s.putWork i w.work).graft b x n with result := r } from graft_write h _ _ _ _ _]
  exact Local.finish _ _ _ _ _ _ _

theorem Local.onDevice {s : State} {a : Nat} {b : DevId} (hb : devIdOf a ≠ some b)
    (g : Env → Work Device → Done Device) : Local b (fun t => Machine.onDevice t a g) s := by
  intro x n r
  dsimp only
  unfold Machine.onDevice
  rw [Local.cpDevice hb]
  cases h : Machine.cpDevice s a with
  | error e => rfl
  | ok p =>
    have hi : p.1 ≠ b := ne_of_operand hb (cpDevice_ok (i := p.1) (d := p.2) h).2.1
    dsimp only
    rw [graft_drawn hi]
    exact Local.finishDev hi _ x n r

theorem Local.muxRoute {s : State} {a : Nat} {b : DevId} (hb : devIdOf a ≠ some b)
    (g : Env → Work Device → Done Device) : Local b (fun t => Machine.muxRoute t a g) s := by
  intro x n r
  dsimp only
  unfold Machine.muxRoute
  rw [Local.cpId]
  cases h : Machine.cpId s a with
  | error e => rfl
  | ok i =>
    have hi : i ≠ b := ne_of_operand hb (cpId_ok h).2
    dsimp only
    rw [graft_dev hi, graft_drawn hi]
    cases s.dev i with
    | none => rfl
    | some d => exact Local.finishDev hi _ x n r

theorem Local.onCpChannel {s : State} {a : Nat} {b : DevId} (hb : devIdOf a ≠ some b) {α : Type} (f : α → Value)
    (g : State → Env → Sc → ScDone α)
    (hg : ∀ x n r c e sc, c ≠ b → e.id = c → g { s.graft b x n with result := r } e sc = g s e sc) :
    Local b (fun t => Machine.onCpChannel t a f (g t)) s := by
  intro x n r
  dsimp only
  unfold Machine.onCpChannel
  rw [Local.cpDevice hb]
  cases h : Machine.cpDevice s a with
  | error e => rfl
  | ok p =>
    have hi : p.1 ≠ b := ne_of_operand hb (cpDevice_ok (i := p.1) (d := p.2) h).2.1
    dsimp only
    rw [show ({ s.graft b x n with result := r } : State).cpEnv p.1 = s.cpEnv p.1 from rfl,
      hg x n r p.1 (s.cpEnv p.1) _ hi rfl]
    unfold finishSc
    rw [State.setDev_drawn, State.setDev_drawn, graft_drawn hi, graft_write hi]
    exact Local.finish _ _ _ _ _ _ _

theorem Local.onChannel {s : State} (hr : s.par.role = .cp) {a : Nat} {b : DevId} (hb : devIdOf a ≠ some b) {α : Type}
    (f : α → Value) (g : Env → Sc → ScDone α) : Local b (fun t => Machine.onChannel t a f g) s := by
  intro x n r
  have h1 : ∀ t : State, t.par.role = .cp → Machine.onChannel t a f g = Machine.onCpChannel t a f g := by
    intro t ht; unfold Machine.onChannel; rw [ht]
  dsimp only
  rw [h1 _ hr, h1 _ (show ({ s.graft b x n with result := r } : State).par.role = .cp from hr)]
  exact Local.onCpChannel hb f (fun _ => g) (fun _ _ _ _ _ _ _ _ => rfl) x n r

theorem Local.deliver {s : State} (hr : s.par.role = .cp) {a : Nat} {b : DevId} (hb : devIdOf a ≠ some b) (c : Bytes) :
    Local b (Machine.deliver a c) s := by
  intro x n r
  have h1 : ∀ t : State, t.par.role = .cp → Machine.deliver a c t = Machine.muxRoute t a fun e w => devRx e c w := by
    intro t ht; unfold Machine.deliver; rw [ht]
  rw [h1 _ hr, h1 _ (show ({ s.graft b x n with result := r } : State).par.role = .cp from hr)]
  exact Local.muxRoute hb _ x n r

theorem Local.deliverMessage {s : State} (hr : s.par.role = .cp) {a : Nat} {b : DevId} (hb : devIdOf a ≠ some b)
    (t : Byte) (m : Message) : Local b (Machine.deliverMessage a t m) s := by
  intro x n r
  have h1 : ∀ u : State, u.par.role = .cp →
      Machine.deliverMessage a t m u = Machine.muxRoute u a fun e w => cpPacket e (messagePacket t m) w := by
    intro u hu; unfold Machine.deliverMessage; rw [hu]
  rw [h1 _ hr, h1 _ (show ({ s.graft b x n with result := r } : State).par.role = .cp from hr)]
  exact Local.muxRoute hb _ x n r

/-- On a CP an instruction that touches device `a`, MUX_TICK apart, does the same whatever the state holds for another
device `b`, and leaves that as it is (R6, R66). -/
theorem exec_local {i : Instr} {s : State} {a b : DevId} (hr : s.par.role = .cp) (hm : ∀ now, i ≠ .muxTick now)
    (ht : touched s i = some a) (hab : a ≠ b) : Local b (exec i) s := by
  have hb : ∀ {c : Nat}, touched s i = devIdOf c → devIdOf c ≠ some b := by
    intro c h e; rw [ht, e] at h; exact hab (Option.some.inj h)
  cases i with
  | muxTick now => exact absurd rfl (hm now)
  | wfEncode _ | wfDecode _ | scPdChallenge _ | scPdVerify _ | regLookupCmd _ | regLookupRpl _ | pdRx _ | pdReply _ _
  | reset | otherOp _ => cases ht
  | wfFeed c w =>
    have hb := hb (c := c) rfl
    intro x n r
    have hcp : ∀ t : State, t.par.role = .cp → exec (.wfFeed c w) t = match Machine.cpDevice t c with
        | .error e => .next (t.refuse e)
        | .ok (i, d) =>
          .next ((t.setDev i (some { d with rxbuf := (feed t.par d.rxbuf w).2 })).answer .ok
            (.verdicts (feed t.par d.rxbuf w).1)) := by
      intro t ht'; show execWfFeed c w t = _; unfold execWfFeed; rw [ht'] <;> rfl
    rw [hcp _ hr, hcp _ (show ({ s.graft b x n with result := r } : State).par.role = .cp from hr), Local.cpDevice hb]
    cases h : Machine.cpDevice s c with
    | error e => rfl
    | ok p =>
      have hi : p.1 ≠ b := ne_of_operand hb (cpDevice_ok (i := p.1) (d := p.2) h).2.1
      dsimp only
      rw [graft_setDev hi]; rfl
  | wfFlush c =>
    have hb := hb (c := c) rfl
    intro x n r
    have hcp : ∀ t : State, t.par.role = .cp → exec (.wfFlush c) t = match Machine.cpDevice t c with
        | .error e => .next (t.refuse e)
        | .ok (i, d) =>
          .next ((t.setDev i (some { d with rxbuf := [] })).answer (flushStatus d.rxbuf.length)
            (.count d.rxbuf.length)) := by
      intro t ht'; show execWfFlush c t = _; unfold execWfFlush; rw [ht'] <;> rfl
    rw [hcp _ hr, hcp _ (show ({ s.graft b x n with result := r } : State).par.role = .cp from hr), Local.cpDevice hb]
    cases h : Machine.cpDevice s c with
    | error e => rfl
    | ok p =>
      have hi : p.1 ≠ b := ne_of_operand hb (cpDevice_ok (i := p.1) (d := p.2) h).2.1
      dsimp only
      rw [graft_setDev hi]; rfl
  | scReset c => exact Local.onChannel hr (hb rfl) _ _
  | scWrap c p => exact Local.onChannel hr (hb rfl) _ _
  | scUnwrap c w => exact Local.onChannel hr (hb rfl) _ _
  | scCpBegin c =>
    exact Local.onCpChannel (hb rfl) .bytes (fun t e sc => scCpBegin e (drawBytes e.id e.par.chalLen (t.drawn e.id)) sc)
      fun x n r c' e sc hc he => by rw [graft_drawn (he ▸ hc)]
  | scCpVerify c p => exact Local.onCpChannel (hb rfl) _ (fun _ e sc => scCpVerify e p sc) fun _ _ _ _ _ _ _ _ => rfl
  | scCpConfirm c => exact Local.onCpChannel (hb rfl) _ (fun _ => scCpConfirm) fun _ _ _ _ _ _ _ _ => rfl
  | scCpFinish c => exact Local.onCpChannel (hb rfl) _ (fun _ => scCpFinish) fun _ _ _ _ _ _ _ _ => rfl
  | devRegister c u =>
    have hb := hb (c := c) rfl
    intro x n r
    show execDevRegister c u _ = graftOutcome b x n (execDevRegister c u s)
    unfold execDevRegister
    rw [Local.cpId]
    cases h : Machine.cpId s c with
    | error e => rfl
    | ok i =>
      have hi : i ≠ b := ne_of_operand hb (cpId_ok h).2
      dsimp only
      rw [graft_dev hi, graft_setDev hi]
      split
      · rfl
      · cases s.dev i <;> rfl
  | devDeregister c =>
    have hb := hb (c := c) rfl
    intro x n r
    show execDevDeregister c _ = graftOutcome b x n (execDevDeregister c s)
    unfold execDevDeregister
    rw [Local.cpDevice hb]
    cases h : Machine.cpDevice s c with
    | error e => rfl
    | ok p =>
      have hi : p.1 ≠ b := ne_of_operand hb (cpDevice_ok (i := p.1) (d := p.2) h).2.1
      dsimp only
      rw [graft_setDev hi]; rfl
  | devSubmit c t p =>
    have hb := hb (c := c) rfl
    intro x n r
    show execDevSubmit c t p _ = graftOutcome b x n (execDevSubmit c t p s)
    unfold execDevSubmit
    rw [Local.cpId]
    cases h : Machine.cpId s c with
    | error e => rfl
    | ok i =>
      have hi : i ≠ b := ne_of_operand hb (cpId_ok h).2
      dsimp only
      rw [graft_dev hi]
      simp only [graft_setDev hi]
      cases codeOf t with
      | none => rfl
      | some k =>
        cases s.dev i with
        | none => rfl
        | some d =>
          dsimp only
          rw [show ({ s.graft b x n with result := r } : State).par = s.par from rfl]
          cases devSubmit s.par k p d <;> rfl
  | devStart c => exact Local.onDevice (hb rfl) _
  | devScStart c => exact Local.onDevice (hb rfl) _
  | devTick c now => exact Local.onDevice (hb rfl) fun e w => devTick e now w
  | devRx c w => exact Local.onDevice (hb rfl) fun e u => devRx e w u
  | muxRx c w => exact Local.muxRoute (hb rfl) fun e u => devRx e w u
  | frameSk c f k => exact Local.deliver hr (hb (c := c) rfl) (frameBytes false false f ++ [k])
  | frameSc c f k => exact Local.deliver hr (hb (c := c) rfl) (frameBytes false true f ++ le16 k)
  | frameLk c f k => exact Local.deliver hr (hb (c := c) rfl) (frameBytes true false f ++ [k])
  | frameLc c f k => exact Local.deliver hr (hb (c := c) rfl) (frameBytes true true f ++ le16 k)
  | tPoll c m => exact fun x n r => Local.deliverMessage hr (hb (c := c) rfl) s.par.tPoll m x n r
  | tChlng c m => exact fun x n r => Local.deliverMessage hr (hb (c := c) rfl) s.par.tChlng m x n r
  | tCcrypt c m => exact fun x n r => Local.deliverMessage hr (hb (c := c) rfl) s.par.tCcrypt m x n r
  | tScrypt c m => exact fun x n r => Local.deliverMessage hr (hb (c := c) rfl) s.par.tScrypt m x n r
  | tScdone c m => exact fun x n r => Local.deliverMessage hr (hb (c := c) rfl) s.par.tScdone m x n r

end Sys2Proof.Machine
end

