-- ==== Sys2Proof/Laws/PerInstr.lean ====
section
/-! SUPPORT. Per-instruction laws, family `OpSelect`: what the host presents for an instruction carries the fixed bits of
its row of spec/opcode_table.json: the op-select code (R96), the two format bits (R90), the message type (R100). -/

namespace Sys2Proof.Laws.OpSelect

/-- The fixed bits of a row of spec/opcode_table.json. -/
inductive Row where
  /-- An operation with this op-select code. -/
  | op (code : Byte)
  /-- A frame format: `ADDR[7]` and `CTRL[2]`. -/
  | frame (mbl crc : Bool)
  /-- A message type. -/
  | message (kind : MsgKind)
  /-- Every other op-select code. -/
  | other

/-- The row each constructor stands for, written from the table. -/
def rowOf : Instr → Row
  | .wfEncode _ => .op 0x01
  | .wfDecode _ => .op 0x02
  | .wfFeed _ _ => .op 0x03
  | .wfFlush _ => .op 0x04
  | .scReset _ => .op 0x10
  | .scCpBegin _ => .op 0x11
  | .scCpVerify _ _ => .op 0x12
  | .scCpConfirm _ => .op 0x13
  | .scCpFinish _ => .op 0x14
  | .scPdChallenge _ => .op 0x15
  | .scPdVerify _ => .op 0x16
  | .scWrap _ _ => .op 0x17
  | .scUnwrap _ _ => .op 0x18
  | .regLookupCmd _ => .op 0x20
  | .regLookupRpl _ => .op 0x21
  | .devRegister _ _ => .op 0x30
  | .devDeregister _ => .op 0x31
  | .devStart _ => .op 0x32
  | .devSubmit _ _ _ => .op 0x33
  | .devScStart _ => .op 0x34
  | .devTick _ _ => .op 0x35
  | .devRx _ _ => .op 0x36
  | .pdRx _ => .op 0x40
  | .pdReply _ _ => .op 0x41
  | .muxTick _ => .op 0x50
  | .muxRx _ _ => .op 0x51
  | .reset => .op 0x7F
  | .frameSk _ _ _ => .frame false false
  | .frameSc _ _ _ => .frame false true
  | .frameLk _ _ _ => .frame true false
  | .frameLc _ _ _ => .frame true true
  | .tPoll _ _ => .message .poll
  | .tChlng _ _ => .message .chlng
  | .tCcrypt _ _ => .message .ccrypt
  | .tScrypt _ _ => .message .scrypt
  | .tScdone _ _ => .message .scdone
  | .otherOp _ => .other

/-- A presented request carries the fixed bits of a row. -/
def fits : Row → Request → Prop
  | .op code, .op r               => r.code = code
  | .other, .op r                 => opSelectCodes.contains r.code = false
  | .frame mbl crc, .frame _ b    => mblOf b = mbl ∧ crcOf b = crc
  | .message k, .message k' _ _   => k' = k
  | _, _                          => False

/-- What is presented for a well-formed instruction carries the fixed bits of its row. -/
def Statement (i : Instr) : Prop := i.wf = true → fits (rowOf i) (encode i)

theorem wfEncode (p : RawPacket) : Statement (.wfEncode p) := fun _ => rfl
theorem wfDecode (b : Bytes) : Statement (.wfDecode b) := fun _ => rfl
theorem wfFeed (a : Nat) (chunk : Bytes) : Statement (.wfFeed a chunk) := fun _ => rfl
theorem wfFlush (a : Nat) : Statement (.wfFlush a) := fun _ => rfl
theorem scReset (a : Nat) : Statement (.scReset a) := fun _ => rfl
theorem scCpBegin (a : Nat) : Statement (.scCpBegin a) := fun _ => rfl
theorem scCpVerify (a : Nat) (payload : Bytes) : Statement (.scCpVerify a payload) := fun _ => rfl
theorem scCpConfirm (a : Nat) : Statement (.scCpConfirm a) := fun _ => rfl
theorem scCpFinish (a : Nat) : Statement (.scCpFinish a) := fun _ => rfl
theorem scPdChallenge (payload : Bytes) : Statement (.scPdChallenge payload) := fun _ => rfl
theorem scPdVerify (payload : Bytes) : Statement (.scPdVerify payload) := fun _ => rfl
theorem scWrap (a : Nat) (p : Bytes) : Statement (.scWrap a p) := fun _ => rfl
theorem scUnwrap (a : Nat) (w : Bytes) : Statement (.scUnwrap a w) := fun _ => rfl
theorem regLookupCmd (t : Nat) : Statement (.regLookupCmd t) := fun _ => rfl
theorem regLookupRpl (t : Nat) : Statement (.regLookupRpl t) := fun _ => rfl
theorem devRegister (a : Nat) (useCrc : Nat) : Statement (.devRegister a useCrc) := fun _ => rfl
theorem devDeregister (a : Nat) : Statement (.devDeregister a) := fun _ => rfl
theorem devStart (a : Nat) : Statement (.devStart a) := fun _ => rfl
theorem devSubmit (a : Nat) (t : Nat) (p : Bytes) : Statement (.devSubmit a t p) := fun _ => rfl
theorem devScStart (a : Nat) : Statement (.devScStart a) := fun _ => rfl
theorem devTick (a : Nat) (now : Time) : Statement (.devTick a now) := fun _ => rfl
theorem devRx (a : Nat) (chunk : Bytes) : Statement (.devRx a chunk) := fun _ => rfl
theorem pdRx (chunk : Bytes) : Statement (.pdRx chunk) := fun _ => rfl
theorem pdReply (t : Nat) (p : Bytes) : Statement (.pdReply t p) := fun _ => rfl
theorem muxTick (now : Time) : Statement (.muxTick now) := fun _ => rfl
theorem muxRx (a : Nat) (chunk : Bytes) : Statement (.muxRx a chunk) := fun _ => rfl
theorem reset : Statement .reset := fun _ => rfl
theorem frameSk (a : Nat) (f : FrameBody) (check : Byte) : Statement (.frameSk a f check) := fun _ => ⟨mblOf_frame _ _ _ _, crcOf_frame _ _ _ _⟩
theorem frameSc (a : Nat) (f : FrameBody) (check : BitVec 16) : Statement (.frameSc a f check) := fun _ => ⟨mblOf_frame _ _ _ _, crcOf_frame _ _ _ _⟩
theorem frameLk (a : Nat) (f : FrameBody) (check : Byte) : Statement (.frameLk a f check) := fun _ => ⟨mblOf_frame _ _ _ _, crcOf_frame _ _ _ _⟩
theorem frameLc (a : Nat) (f : FrameBody) (check : BitVec 16) : Statement (.frameLc a f check) := fun _ => ⟨mblOf_frame _ _ _ _, crcOf_frame _ _ _ _⟩
theorem tPoll (a : Nat) (m : Message) : Statement (.tPoll a m) := fun _ => rfl
theorem tChlng (a : Nat) (m : Message) : Statement (.tChlng a m) := fun _ => rfl
theorem tCcrypt (a : Nat) (m : Message) : Statement (.tCcrypt a m) := fun _ => rfl
theorem tScrypt (a : Nat) (m : Message) : Statement (.tScrypt a m) := fun _ => rfl
theorem tScdone (a : Nat) (m : Message) : Statement (.tScdone a m) := fun _ => rfl
theorem otherOp (code : Byte) : Statement (.otherOp code) := fun h => by simpa [Instr.wf, encode, OpRequest.ofCode, rowOf, fits] using h

end Sys2Proof.Laws.OpSelect
end

