-- ==== Sys2Proof/Laws/Toy.lean ====
section
/-! SUPPORT. Laws of the toy functions of fixture T0: the properties of R11 that 95_test_vectors.md says they have, so that
the statements that assume those properties by name are about something. -/

namespace Sys2Proof.Machine

/-- A shift of R88 with T0's polynomial can be undone: the polynomial's bit 0 is 1, so the bit shifted out stays visible. -/
theorem crcShift_injective : Function.Injective (crcShift 0x1021) := by
  apply Function.LeftInverse.injective
    (g := fun v => if v.getLsbD 0 then ((v ^^^ 0x1021) >>> 1) ||| 0x8000 else v >>> 1)
  intro v
  apply BitVec.eq_of_getLsbD_eq
  intro i hi
  cases e : v[15] <;> interval_cases i <;> simp [crcShift, e]

theorem crcShifts_injective (n : Nat) : Function.Injective (crcShifts 0x1021 n) := by
  induction n with
  | zero => exact fun _ _ h => h
  | succ n ih => exact fun _ _ h => crcShift_injective (ih h)

theorem crcByte_injective (b : Byte) : Function.Injective fun c => crcByte 0x1021 c b :=
  fun _ _ h => by simpa using crcShifts_injective 8 h

theorem crcByte_byte_injective (c : BitVec 16) : Function.Injective (crcByte 0x1021 c) := by
  intro a b h
  have h : a.setWidth 16 <<< 8 = b.setWidth 16 <<< 8 := by simpa using crcShifts_injective 8 h
  apply BitVec.eq_of_getLsbD_eq
  intro i hi
  have := congrArg (fun v => v.getLsbD (i + 8)) h
  simpa [BitVec.getLsbD_shiftLeft, hi, show i + 8 < 16 by omega, show i < 16 by omega] using this

theorem crc16_injective (b : Bytes) : Function.Injective fun c => crc16 0x1021 c b := by
  induction b with
  | nil => exact fun _ _ h => h
  | cons x b ih => exact fun _ _ h => crcByte_injective x (ih h)

theorem le16_injective : Function.Injective le16 := by
  intro a b h
  simp only [le16, List.cons.injEq, and_true] at h
  rw [← word16_le16 a, ← word16_le16 b, h.1, h.2]

theorem crc16_append (p c : BitVec 16) (a b : Bytes) : crc16 p c (a ++ b) = crc16 p (crc16 p c a) b := by
  simp [crc16]

/-- `P_MAC_1BYTE` holds of T0: a CRC detects every change of one byte. -/
theorem toy_pMac1Byte {par : Params} (h : par.suite = .toyT0) : PMac1Byte par := by
  intro k pre suf b b' hb e
  simp only [mac, h, t0Crc] at e
  have e := le16_injective e
  simp only [← List.append_assoc, crc16_append _ _ _ suf] at e
  have e := crc16_injective suf e
  simp only [crc16_append _ _ _ [_]] at e
  exact hb (crcByte_byte_injective _ e)

theorem t0Xor_involutive (k p : Bytes) : t0Xor k (t0Xor k p) = p := by
  simp only [t0Xor]
  apply List.ext_getElem (by simp)
  intro i h1 h2
  simp

/-- `P_DEC_ENC` holds of T0. -/
theorem toy_pDecEnc {par : Params} (h : par.suite = .toyT0) : PDecEnc par := by
  intro k p
  simp only [dec, enc, h]
  exact t0Xor_involutive k p

/-- `P_ENC_LEN` holds of T0. -/
theorem toy_pEncLen {par : Params} (h : par.suite = .toyT0) : PEncLen par := by
  intro k p p' e
  simpa [enc, h, t0Xor] using e

end Sys2Proof.Machine
end

