-- ==== Sys2Proof/Tests/Slice0.lean ====
section
/-! SUPPORT. Tests: the well-formedness checks, the decoder on words written out from the spec, one-step tests whose
expected values are those of 95_test_vectors.md (the vector is named), and for each obligation with hypotheses a
witness that meets them together. -/

namespace Sys2Proof.Machine.Test

-- One theorem after another: each kernel evaluation waits for all before it, and waiting threads cost memory.
set_option Elab.async false

open Sys2Proof

/-! ### Fixtures: F-PAR, F-REG and T0 of 95_test_vectors.md -/

/-- The parameters of fixtures F-PAR, F-REG and T0. -/
def t0 : Params :=
  { Config.straps with
    suite := .toyT0, keyLen := 4, skeyLen := 2, chalLen := 4, capsLen := 1, cpCaps := [0x01], cryptoLen := 4, macLen := 2
    regCmd := [(0x60, { replies := [0x40, 0x41], schema := .len 0 }), (0x76, { replies := [0x76], schema := .len 5 }),
               (0x77, { replies := [0x78], schema := .len 4 }), (0x6A, { replies := [0x40], schema := .any })]
    regRpl := [(0x40, { schema := .any }), (0x41, { schema := .len 1 }), (0x76, { schema := .len 8 }),
               (0x78, { schema := .len 0 })] }

/-- The CP of the fixtures, with the key of device 1. -/
def cp : State := { State.resetWith t0 with keystore := (Vector.replicate 128 none).set 1 (some [0x30, 0x31, 0x32, 0x33]) }

/-- The PD of the fixtures, `MYADDR = 1`. -/
def pd : State := { cp with par := { t0 with role := .pd }, straps := { t0 with role := .pd } }

/-- The CP with this context for device 1. -/
def cpWith (d : Device) : State := cp.setDev 1 (some d)

/-- The PD with this context. -/
def pdWith (p : Pdc) : State := { pd with pdc := p }

def rcp : Bytes := [0xA0, 0xA1, 0xA2, 0xA3]
def rpd : Bytes := [0xB0, 0xB1, 0xB2, 0xB3]

def scSent : Sc := { Sc.init with state := .challengeSent, rndCp := some rcp }
def scReceived : Sc :=
  { state := .challengeReceived, rndCp := some rcp, rndPd := some rpd, sEnc := some [0x99, 0x5D], sMac := some [0x3C, 0x92] }
def scUp : Sc := { scReceived with state := .established }
/-- A PD's channel after SC_PD_CHALLENGE. -/
def scPdSent : Sc := { scReceived with state := .challengeSent }

def offline : Device := Device.create true
def polling : Device := { offline with dstate := .polling }
def awaiting : Device :=
  { polling with
    dstate := .awaitingReply, slot := some { type := 0x60, payload := [], seq := 0, sec := false }
    deadline := some 200, lastpoll := some 0 }
def awaitingSecure : Device :=
  { awaiting with sc := scUp, seq := 2, slot := some { type := 0x60, payload := [], seq := 2, sec := true } }
def handshake : Device := { polling with dstate := .secureHandshake }
def challenged : Device :=
  { handshake with
    sc := scSent, slot := some { type := 0x76, payload := rcp ++ [0x01], seq := 0, sec := false }
    deadline := some 210, lastpoll := some 10 }
def confirming : Device :=
  { handshake with
    sc := scReceived, seq := 1, slot := some { type := 0x77, payload := [0x34, 0x58, 0x91, 0x97], seq := 1, sec := false }
    deadline := some 220, lastpoll := some 20 }

def pdIdle : Pdc := { Pdc.init with pseq := 2 }
def pdBusy : Pdc :=
  { Pdc.init with pdstate := .processingCommand, pseq := 2, cur := some { type := 0x60, seq := 2, sec := false, crc := true } }

/-- The result record of an outcome. -/
def answer (o : Host.Outcome State Fault Refusal) : Option Result :=
  match o with
  | .next t => t.result
  | _       => none

/-- The model's own refusal, if that is the outcome. -/
def stopped (o : Host.Outcome State Fault Refusal) : Option Refusal :=
  match o with
  | .refused x => some x
  | _          => none

/-- Device 1 after an outcome. -/
def dev1 (o : Host.Outcome State Fault Refusal) : Option Device :=
  match o with
  | .next t => t.dev 1
  | _       => none

/-- The PD context after an outcome. -/
def pdc (o : Host.Outcome State Fault Refusal) : Option Pdc :=
  match o with
  | .next t => some t.pdc
  | _       => none

/-- A result with status `OK`. -/
def okay (frames : List Bytes) (notes : List Note) (value : Value := .none) : Option Result :=
  some { status := .ok, frames := frames, notes := notes, value := value }

/-- A refusal. -/
def refused (r : RefusalCode) : Option Result :=
  some { status := .refused r, frames := [], notes := [], value := .none }

/-- An error. -/
def failed (e : ErrorCode) (notes : List Note := []) : Option Result :=
  some { status := .error e, frames := [], notes := notes, value := .none }

theorem next_of_answer {o : Host.Outcome State Fault Refusal} {r : Result} (h : answer o = some r) :
    ∃ t, o = .next t ∧ t.result = some r := by
  cases o with
  | next t => exact ⟨t, rfl, h⟩
  | fault f => cases h
  | refused r => cases h

/-! ### Well-formedness refuses ill-formed terms -/

def frameWith (n : Nat) : FrameBody :=
  { devid := 1, rsv := 0, sec := false, sqn := 0, type := 0x60, payload := List.replicate n 0 }

theorem test_wf_frameSk : (Instr.frameSk 0 (frameWith 256) 0).wf = false := by decide +kernel
theorem test_wf_frameSc : (Instr.frameSc 0 (frameWith 256) 0).wf = false := by decide +kernel
theorem test_wf_frameLk : (Instr.frameLk 0 (frameWith 65536) 0).wf = false := by
  simp only [Instr.wf, frameWith, List.length_replicate]; decide
theorem test_wf_frameLc : (Instr.frameLc 0 (frameWith 65536) 0).wf = false := by
  simp only [Instr.wf, frameWith, List.length_replicate]; decide
theorem test_wf_otherOp : (Instr.otherOp 0x7F).wf = false ∧ (Instr.otherOp 0x00).wf = true := by decide +kernel

/-! ### Decoding: every constructor from a word of the spec -/

/-- R96's codes, in the table's order. -/
theorem test_decode_framer :
    decodeTableWord 8 0x01 = some (.wfEncode RawPacket.zero) ∧ decodeTableWord 8 0x02 = some (.wfDecode []) ∧
    decodeTableWord 8 0x03 = some (.wfFeed 0 []) ∧ decodeTableWord 8 0x04 = some (.wfFlush 0) := by decide +kernel
theorem test_decode_channel :
    decodeTableWord 8 0x10 = some (.scReset 0) ∧ decodeTableWord 8 0x11 = some (.scCpBegin 0) ∧
    decodeTableWord 8 0x12 = some (.scCpVerify 0 []) ∧ decodeTableWord 8 0x13 = some (.scCpConfirm 0) ∧
    decodeTableWord 8 0x14 = some (.scCpFinish 0) ∧ decodeTableWord 8 0x15 = some (.scPdChallenge []) ∧
    decodeTableWord 8 0x16 = some (.scPdVerify []) ∧ decodeTableWord 8 0x17 = some (.scWrap 0 []) ∧
    decodeTableWord 8 0x18 = some (.scUnwrap 0 []) := by decide +kernel
theorem test_decode_registry :
    decodeTableWord 8 0x20 = some (.regLookupCmd 0) ∧ decodeTableWord 8 0x21 = some (.regLookupRpl 0) := by decide +kernel
theorem test_decode_device :
    decodeTableWord 8 0x30 = some (.devRegister 0 0) ∧ decodeTableWord 8 0x31 = some (.devDeregister 0) ∧
    decodeTableWord 8 0x32 = some (.devStart 0) ∧ decodeTableWord 8 0x33 = some (.devSubmit 0 0 []) ∧
    decodeTableWord 8 0x34 = some (.devScStart 0) ∧ decodeTableWord 8 0x35 = some (.devTick 0 0) ∧
    decodeTableWord 8 0x36 = some (.devRx 0 []) := by decide +kernel
theorem test_decode_rest :
    decodeTableWord 8 0x40 = some (.pdRx []) ∧ decodeTableWord 8 0x41 = some (.pdReply 0 []) ∧
    decodeTableWord 8 0x50 = some (.muxTick 0) ∧ decodeTableWord 8 0x51 = some (.muxRx 0 []) ∧
    decodeTableWord 8 0x7F = some .reset ∧ decodeTableWord 8 0x00 = some (.otherOp 0x00) ∧
    decodeTableWord 8 0xFF = some (.otherOp 0xFF) := by decide +kernel

/-- Operands come from the ports an operation names. -/
theorem test_decode_operands :
    decode (.op { code := 0x33, dev := 5, flag := 1, typ := 0x6A, now := 9, data := [2, 1], pkt := RawPacket.zero })
      = .ok (.devSubmit 5 0x6A [2, 1]) := by decide +kernel

/-- V1, V2, V3 with a checksum, V5's beginning: one wire frame of each format (R90). -/
theorem test_decode_frames :
    decode (.frame 7 [0x01, 0x00, 0x00, 0x60, 0x61]) = .ok (.frameSk 7
      { devid := 1, rsv := 0, sec := false, sqn := 0, type := 0x60, payload := [] } 0x61) ∧
    decode (.frame 7 [0x01, 0x00, 0x04, 0x60, 0xC6, 0xD8]) = .ok (.frameSc 7
      { devid := 1, rsv := 0, sec := false, sqn := 0, type := 0x60, payload := [] } 0xD8C6) ∧
    decode (.frame 7 [0xFF, 0x02, 0x00, 0x0A, 0x80, 0xAA, 0xBB, 0x5C]) = .ok (.frameLk 7
      { devid := 0x7F, rsv := 0, sec := true, sqn := 2, type := 0x80, payload := [0xAA, 0xBB] } 0x5C) ∧
    decode (.frame 7 [0x81, 0x00, 0x00, 0x95, 0x80, 0x34, 0x12]) = .ok (.frameLc 7
      { devid := 1, rsv := 9, sec := false, sqn := 1, type := 0x80, payload := [] } 0x1234) := by decide +kernel

theorem test_decode_rejects :
    decode (.frame 0 [0x01, 0x00, 0x04]) = .error .frameTooShort ∧
    decode (.frame 0 [0x01, 0x00, 0x04, 0x60, 0xC6]) = .error .frameTooShort ∧
    decode (.frame 0 [0x01, 0x00, 0x00, 0x60, 0x61, 0x00]) = .error .frameTooLong := by decide +kernel

def poll (sqn : Seq) (payload : Bytes) : Message :=
  { devid := 1, sqn := sqn, crc := true, sec := false, payload := payload }

theorem test_decode_messages :
    decode (.message .poll 1 (poll 0 [])) = .ok (.tPoll 1 (poll 0 [])) ∧
    decode (.message .chlng 1 (poll 0 [])) = .ok (.tChlng 1 (poll 0 [])) ∧
    decode (.message .ccrypt 1 (poll 0 [])) = .ok (.tCcrypt 1 (poll 0 [])) ∧
    decode (.message .scrypt 1 (poll 0 [])) = .ok (.tScrypt 1 (poll 0 [])) ∧
    decode (.message .scdone 1 (poll 0 [])) = .ok (.tScdone 1 (poll 0 [])) := by decide +kernel

/-! ### Check functions -/

/-- V0a, V0b, V0c, V0e. -/
theorem test_crc :
    crc16 0x1021 0x1D0F [0x31, 0x32, 0x33, 0x34, 0x35, 0x36, 0x37, 0x38, 0x39] = 0xE5CC ∧
    crc16 0x1021 0x1D0F [] = 0x1D0F ∧ crc16 0x1021 0x1D0F [0x00] = 0xCC9C ∧
    crc16 0x1021 0x1D0F [0x01, 0x00, 0x04, 0x60] = 0xD8C6 := by decide +kernel

/-! ### Framer -/

def v3 : RawPacket := { devid := 0x7F, mbl := 1, sqn := 3, crc := 1, sec := 1, type := 0x6A, payload := [1, 2, 3] }

/-- V3. -/
theorem test_wfEncode_V3 : answer (exec (.wfEncode v3) cp) =
    okay [] [] (.bytes [0xFF, 0x03, 0x00, 0x0F, 0x6A, 0x01, 0x02, 0x03, 0x45, 0x98]) := by decide +kernel
/-- V10 and V12. -/
theorem test_wfEncode_V10_V12 :
    answer (exec (.wfEncode { v3 with mbl := 0, payload := List.replicate 256 0 }) cp) = refused .invalidPacket ∧
    answer (exec (.wfEncode { v3 with devid := 128 }) cp) = refused .invalidPacket := by decide +kernel
/-- V22: reserved bits set. -/
theorem test_wfDecode_V22 : answer (exec (.wfDecode [0x01, 0x00, 0xF4, 0x60, 0x07, 0xCB]) cp) =
    okay [] [] (.packet { devid := 1, mbl := false, sqn := 0, crc := true, sec := false, type := 0x60, payload := [] }) := by
  decide +kernel
/-- V13a, V14b, V16, V19, V20. -/
theorem test_wfDecode_errors :
    answer (exec (.wfDecode []) cp) = failed .truncated ∧
    answer (exec (.wfDecode [0x01, 0x00, 0x00, 0x60, 0x61, 0x00]) cp) = failed .lengthMismatch ∧
    answer (exec (.wfDecode [0x01, 0x00, 0x00, 0x60, 0x62]) cp) = failed .checksumInvalid ∧
    answer (exec (.wfDecode [0x81, 0x01, 0x04, 0x04, 0x60]) cp) = failed .lengthMismatch ∧
    answer (exec (.wfDecode [0x81, 0x00, 0x04, 0x04, 0x60]) cp) = failed .truncated := by decide +kernel
/-- V27. -/
theorem test_wfFeed_V27 : answer (exec (.wfFeed 1 [0x01, 0x00, 0x04, 0x60, 0xC6, 0xD8, 0x01, 0x00, 0x04, 0x60, 0xC6, 0xD9,
      0x01, 0x00, 0x00, 0x60, 0x61]) (cpWith offline)) =
    okay [] [] (.verdicts [.packet (mkPacket 1 0 true false 0x60 []), .error .checksumInvalid,
      .packet (mkPacket 1 0 false false 0x60 [])]) := by decide +kernel
/-- V28: the length check fires at the third byte; what follows is misaligned (R297). -/
theorem test_wfFeed_V28 :
    dev1 (exec (.wfFeed 1 [0x81, 0x01, 0x04, 0x04, 0x60]) (cpWith offline)) = some { offline with rxbuf := [0x04, 0x60] } ∧
    answer (exec (.wfFeed 1 [0x81, 0x01, 0x04, 0x04, 0x60]) (cpWith offline)) =
      okay [] [] (.verdicts [.error .lengthMismatch]) := by decide +kernel
/-- V29, V30. -/
theorem test_wfFlush_V29_V30 :
    answer (exec (.wfFlush 1) (cpWith { offline with rxbuf := [0x04, 0x60] })) =
      some { status := .error .truncated, frames := [], notes := [], value := .count 2 } ∧
    answer (exec (.wfFlush 1) (cpWith offline)) = okay [] [] (.count 0) := by decide +kernel

/-! ### Secure channel -/

/-- V33i. -/
theorem test_scReset_V33i :
    answer (exec (.scReset 1) (cpWith { polling with sc := scUp })) = okay [] [.scStatus 1 .none] ∧
    dev1 (exec (.scReset 1) (cpWith { polling with sc := scUp })) = some polling := by decide +kernel
/-- V32a; the draw is not fixed by the model. -/
theorem test_scCpBegin_V32a :
    (answer (exec (.scCpBegin 1) (cpWith offline))).map (·.notes) = some [.scStatus 1 .pending] ∧
    (dev1 (exec (.scCpBegin 1) (cpWith offline))).map (·.sc.state) = some .challengeSent := by decide +kernel
/-- V32b. -/
theorem test_scCpVerify_V32b : dev1 (exec (.scCpVerify 1 (rpd ++ [0x5F, 0xD7, 0x57, 0x1D])) (cpWith { offline with sc := scSent }))
    = some { offline with sc := scReceived } := by decide +kernel
/-- V32c, V32d. -/
theorem test_scCpVerify_V32c_V32d :
    answer (exec (.scCpVerify 1 (rpd ++ [0xF4, 0x66, 0xFC, 0xAC])) (cpWith { offline with sc := scSent })) =
      failed .cryptogramInvalid [.scStatus 1 .broken] ∧
    answer (exec (.scCpVerify 1 [0xB0, 0xB1, 0xB2]) (cpWith { offline with sc := scSent })) = failed .malformedPayload := by
  decide +kernel
/-- V32e. -/
theorem test_scCpConfirm_V32e : answer (exec (.scCpConfirm 1) (cpWith { offline with sc := scReceived })) =
    okay [] [] (.bytes [0x34, 0x58, 0x91, 0x97]) := by decide +kernel
/-- V32f. -/
theorem test_scCpFinish_V32f :
    answer (exec (.scCpFinish 1) (cpWith { offline with sc := scReceived })) = okay [] [.scStatus 1 .established] ∧
    dev1 (exec (.scCpFinish 1) (cpWith { offline with sc := scReceived })) = some { offline with sc := scUp } := by
  decide +kernel
/-- V32g; the draw is not fixed by the model. -/
theorem test_scPdChallenge_V32g :
    (answer (exec (.scPdChallenge (rcp ++ [0x01])) pd)).map (·.notes) = some [.scStatus 1 .pending] ∧
    (pdc (exec (.scPdChallenge (rcp ++ [0x01])) pd)).map (·.sc.rndCp) = some (some rcp) := by decide +kernel
/-- V32h, V32i. -/
theorem test_scPdVerify_V32h_V32i :
    answer (exec (.scPdVerify [0x34, 0x58, 0x91, 0x97]) (pdWith { Pdc.init with sc := scPdSent })) =
      okay [] [.scStatus 1 .established] ∧
    answer (exec (.scPdVerify [0x34, 0x58, 0x91, 0x96]) (pdWith { Pdc.init with sc := scPdSent })) =
      failed .cryptogramInvalid [.scStatus 1 .broken] := by decide +kernel
/-- V33a, V33b. -/
theorem test_scWrap_V33a_V33b :
    answer (exec (.scWrap 1 [0x11, 0x22, 0x33]) (cpWith { polling with sc := scUp })) =
      okay [] [] (.bytes [0x88, 0x7F, 0xAA, 0xC0, 0xC3]) ∧
    answer (exec (.scWrap 1 []) (cpWith { polling with sc := scUp })) = okay [] [] (.bytes [0xC3, 0x67]) := by decide +kernel
/-- V33d, V33h. -/
theorem test_scUnwrap_V33d_V33h :
    answer (exec (.scUnwrap 1 [0x88, 0x7F, 0xAA, 0xC0, 0xC3]) (cpWith { polling with sc := scUp })) =
      okay [] [] (.bytes [0x11, 0x22, 0x33]) ∧
    answer (exec (.scUnwrap 1 [0xC3, 0x67]) (cpWith polling)) = failed .notEstablished := by decide +kernel
/-- V33e, V33f, V33g. -/
theorem test_scUnwrap_tampered :
    answer (exec (.scUnwrap 1 [0x89, 0x7F, 0xAA, 0xC0, 0xC3]) (cpWith { polling with sc := scUp })) =
      failed .macInvalid [.scStatus 1 .broken] ∧
    answer (exec (.scUnwrap 1 [0x88, 0x7F, 0xAA, 0xC0, 0xC2]) (cpWith { polling with sc := scUp })) =
      failed .macInvalid [.scStatus 1 .broken] ∧
    dev1 (exec (.scUnwrap 1 [0xC3]) (cpWith { polling with sc := scUp })) =
      some { polling with sc := { Sc.init with state := .broken } } := by decide +kernel

/-! ### Registry -/

/-- V34a, V34b. -/
theorem test_regLookupCmd_V34 :
    answer (exec (.regLookupCmd 0x60) cp) =
      okay [] [] (.cmdEntry (some { replies := [0x40, 0x41], schema := .len 0 })) ∧
    answer (exec (.regLookupCmd 0x00) pd) = okay [] [] (.cmdEntry none) := by decide +kernel
/-- V34c, V34d. -/
theorem test_regLookupRpl_V34 :
    answer (exec (.regLookupRpl 0x41) cp) = okay [] [] (.rplEntry (some { schema := .len 1 })) ∧
    answer (exec (.regLookupRpl 0x99) cp) = okay [] [] (.rplEntry none) := by decide +kernel

/-! ### CP device state machine -/

/-- V35b. -/
theorem test_devRegister_V35b :
    dev1 (exec (.devRegister 1 1) cp) = some offline ∧
    answer (exec (.devRegister 1 1) (cpWith offline)) = refused .alreadyRegistered := by decide +kernel
/-- R182. -/
theorem test_devDeregister :
    dev1 (exec (.devDeregister 1) (cpWith awaitingSecure)) = none ∧
    answer (exec (.devDeregister 1) (cpWith awaitingSecure)) = okay [] [] := by decide +kernel
/-- P1's start; V35h. -/
theorem test_devStart_V35h :
    dev1 (exec (.devStart 1) (cpWith offline)) = some polling ∧
    answer (exec (.devStart 1) (cpWith polling)) = refused .wrongState := by decide +kernel
/-- V35c to V35f; R252: an unregistered device, an id above 127. -/
theorem test_devSubmit_V35 :
    answer (exec (.devSubmit 1 0x60 []) (cpWith offline)) = refused .wrongState ∧
    answer (exec (.devSubmit 1 0x76 [0x31, 0x32, 0x33, 0x34, 0x35]) (cpWith polling)) = refused .badOperand ∧
    answer (exec (.devSubmit 1 0x99 []) (cpWith polling)) = refused .badOperand ∧
    answer (exec (.devSubmit 1 0x60 [0x01]) (cpWith polling)) = refused .badOperand ∧
    answer (exec (.devSubmit 127 0x60 []) cp) = refused .noSuchDevice ∧
    answer (exec (.devSubmit 128 0x60 []) cp) = refused .badOperand := by decide +kernel
/-- V35g, fourth and fifth submission. -/
theorem test_devSubmit_V35g :
    (dev1 (exec (.devSubmit 1 0x6A [4]) (cpWith { polling with cmdq := List.replicate 3 ⟨0x6A, [1]⟩ }))).map (·.cmdq) =
      some [⟨0x6A, [1]⟩, ⟨0x6A, [1]⟩, ⟨0x6A, [1]⟩, ⟨0x6A, [4]⟩] ∧
    answer (exec (.devSubmit 1 0x6A [5]) (cpWith { polling with cmdq := List.replicate 4 ⟨0x6A, [1]⟩ })) =
      refused .queueFull := by decide +kernel
/-- P3 step 4; V35i. -/
theorem test_devScStart_V35i :
    dev1 (exec (.devScStart 1) (cpWith { polling with seq := 1 })) = some handshake ∧
    answer (exec (.devScStart 2) (cp.setDev 2 (some polling))) = failed .noKey := by decide +kernel
/-- P1 step 6 and P3 step 11. -/
theorem test_devTick_P1_P3 :
    answer (exec (.devTick 1 100) (cpWith { polling with seq := 1, cmdq := [⟨0x6A, [0x02, 0x01]⟩] })) =
      okay [[0x01, 0x02, 0x05, 0x6A, 0x02, 0x01, 0xB1, 0xA6]] [] ∧
    answer (exec (.devTick 1 30) (cpWith { polling with seq := 2, sc := scUp })) =
      okay [[0x01, 0x02, 0x0E, 0x60, 0xC3, 0x67, 0x6A, 0x56]] [] := by decide +kernel
/-- P2 steps 3, 4 and 6: the deadline itself has passed, one before it has not. -/
theorem test_devTick_P2 :
    answer (exec (.devTick 1 200) (cpWith awaiting)) = okay [[0x01, 0x00, 0x04, 0x60, 0xC6, 0xD8]] [] ∧
    answer (exec (.devTick 1 199) (cpWith awaiting)) = okay [] [] ∧
    answer (exec (.devTick 1 600) (cpWith { awaiting with retry := 2, deadline := some 600 })) =
      okay [] [.offline 1 .unreachable] := by decide +kernel
/-- R298 with R152: a secure poll to be sent again after SC_RESET; the status, and the note R251 names. -/
theorem test_devTick_R298 :
    answer (exec (.devTick 1 200) (cpWith { awaitingSecure with sc := Sc.init })) =
      some { status := .error .notEstablished, frames := [], notes := [.error 1 .notEstablished], value := .none } ∧
    (dev1 (exec (.devTick 1 200) (cpWith { awaitingSecure with sc := Sc.init }))).map (·.retry) = some 1 := by
  decide +kernel
/-- V36a. -/
theorem test_devRx_V36a :
    answer (exec (.devRx 1 [0x01, 0x00, 0x04, 0x40, 0xA4, 0xFD, 0x01, 0x00, 0x04, 0x40, 0xA4, 0xFC]) (cpWith awaiting)) =
      okay [] [.error 1 .checksumInvalid, .online 1, .reply 1 0x40 []] := by decide +kernel
/-- P3 step 14B: a tampered secure reply; P3 step 14A: the untampered one. -/
theorem test_devRx_P3 :
    answer (exec (.devRx 1 [0x01, 0x05, 0x0E, 0x40, 0x89, 0x7F, 0xAA, 0xC0, 0xC3, 0x1B, 0xB6])
        (cpWith { awaitingSecure with online := true })) =
      okay [] [.scStatus 1 .broken, .error 1 .macInvalid, .commandFailed 1 0x60 (.error .macInvalid)] ∧
    answer (exec (.devRx 1 [0x01, 0x05, 0x0E, 0x40, 0x88, 0x7F, 0xAA, 0xC0, 0xC3, 0x4A, 0x1C])
        (cpWith { awaitingSecure with online := true })) =
      okay [] [.reply 1 0x40 [0x11, 0x22, 0x33]] := by decide +kernel

/-! ### PD device state machine -/

/-- V38a, V38c. -/
theorem test_pdRx_V38a_V38c :
    pdc (exec (.pdRx [0x01, 0x00, 0x05, 0x60, 0xF7, 0xEB]) (pdWith pdIdle)) = some pdIdle ∧
    pdc (exec (.pdRx [0x01, 0x00, 0x06, 0x60, 0xA4, 0xBE]) (pdWith pdIdle)) = some pdBusy := by decide +kernel
/-- V38j, V38l, and P3 step 9. -/
theorem test_pdRx_channel :
    answer (exec (.pdRx [0x01, 0x02, 0x0E, 0x60, 0xC3, 0x67, 0x6A, 0x56]) pd) = okay [] [.pdError .notEstablished] ∧
    answer (exec (.pdRx [0x01, 0x03, 0x04, 0x76, 0x01, 0x02, 0x03, 0x28, 0xE3]) pd) = okay [] [.pdError .malformedPayload] ∧
    answer (exec (.pdRx [0x01, 0x04, 0x05, 0x77, 0x34, 0x58, 0x91, 0x97, 0x8C, 0x97])
        (pdWith { Pdc.init with pdstate := .repliedWaiting, pseq := 1, sc := scPdSent })) =
      okay [[0x01, 0x00, 0x05, 0x78, 0xCE, 0x78]] [.scStatus 1 .established] := by decide +kernel
/-- V38e, V38f, V38n. -/
theorem test_pdReply_V38 :
    answer (exec (.pdReply 0x78 []) (pdWith pdBusy)) = refused .replyNotAllowed ∧
    answer (exec (.pdReply 0x40 []) (pdWith pdBusy)) = okay [[0x01, 0x00, 0x06, 0x40, 0xC6, 0x9A]] [] ∧
    answer (exec (.pdReply 0x40 []) pd) = refused .wrongState := by decide +kernel
/-- P3 step 13: a secure reply. -/
theorem test_pdReply_P3 :
    answer (exec (.pdReply 0x40 [0x11, 0x22, 0x33]) (pdWith { pdBusy with
        sc := scUp, cur := some { type := 0x60, seq := 2, sec := true, crc := true } })) =
      okay [[0x01, 0x05, 0x0E, 0x40, 0x88, 0x7F, 0xAA, 0xC0, 0xC3, 0x4A, 0x1C]] [] := by decide +kernel
/-- R298 with R152: the answer to a secure command after SC_RESET. -/
theorem test_pdReply_R298 :
    answer (exec (.pdReply 0x40 []) (pdWith { pdBusy with
        cur := some { type := 0x60, seq := 2, sec := true, crc := true } })) =
      some { status := .error .notEstablished, frames := [], notes := [.pdError .notEstablished], value := .none } := by
  decide +kernel

/-! ### Bus multiplexer -/

/-- The two devices of V39, both polling. -/
def bus : State := (cp.setDev 1 (some polling)).setDev 5 (some polling)
/-- The bus of V39d: device 1 polled at 0 and answered. -/
def bus2 : State :=
  { (cp.setDev 1 (some { polling with seq := 1, online := true, lastpoll := some 0 })).setDev 5 (some polling) with
    mux := { rrptr := 1, lasttx := some 0 } }

/-- V39a, V39c, V39d. -/
theorem test_muxTick_V39 :
    answer (exec (.muxTick 0) bus) = okay [[0x01, 0x00, 0x04, 0x60, 0xC6, 0xD8]] [] (.served (some 1)) ∧
    answer (exec (.muxTick 1) bus2) = okay [] [] (.served none) ∧
    answer (exec (.muxTick 2) bus2) = okay [[0x05, 0x00, 0x04, 0x60, 0x37, 0x12]] [] (.served (some 5)) := by decide +kernel
/-- V39h: the scan wraps from 127 to 0. -/
theorem test_muxTick_V39h :
    answer (exec (.muxTick 50) { bus2 with mux := { rrptr := 5, lasttx := some 2 } }) =
      okay [[0x01, 0x00, 0x05, 0x60, 0xF7, 0xEB]] [] (.served (some 1)) := by decide +kernel
/-- V39b, V39i, V39j. -/
theorem test_muxRx_V39 :
    answer (exec (.muxRx 1 [0x01, 0x00, 0x04, 0x40, 0xA4, 0xFC]) (cpWith awaiting)) =
      okay [] [.online 1, .reply 1 0x40 []] ∧
    answer (exec (.muxRx 9 [0x01, 0x00, 0x04, 0x40, 0xA4, 0xFC]) cp) = okay [] [] ∧
    answer (exec (.muxRx 200 []) cp) = refused .badOperand := by decide +kernel

/-! ### Delivered frames and packets, RESET, other codes -/

/-- V1 as a delivered frame; V2 as one. -/
theorem test_frameSk_V1 : answer (exec (.frameSk 0 { frameWith 0 with type := 0x60 } 0x61) pd) =
    okay [] [.command 0x60 []] := by decide +kernel
theorem test_frameSc_V2 : answer (exec (.frameSc 0 (frameWith 0) 0xD8C6) pd) = okay [] [.command 0x60 []] := by
  decide +kernel
/-- V14-like: a wrong check; the body `81 00 00 00 60` sums to 0xE1 (R87). -/
theorem test_frameLk :
    answer (exec (.frameLk 0 (frameWith 0) 0xE1) pd) = okay [] [.command 0x60 []] ∧
    answer (exec (.frameLk 0 (frameWith 0) 0xE2) pd) = okay [] [.pdError .checksumInvalid] := by decide +kernel
/-- V3's frame reaches device 0x7F, for which no command is out. -/
theorem test_frameLc_V3 :
    answer (exec (.frameLc 0x7F { devid := 0x7F, rsv := 0, sec := true, sqn := 3, type := 0x6A, payload := [1, 2, 3] } 0x9845)
      (cp.setDev 0x7F (some polling))) = okay [] [] := by decide +kernel

theorem test_tPoll_V38c : pdc (exec (.tPoll 0 (poll 2 [])) (pdWith pdIdle)) = some pdBusy := by decide +kernel
/-- P3 step 6; the draw is not fixed by the model. -/
theorem test_tChlng_P3 :
    (answer (exec (.tChlng 0 (poll 0 (rcp ++ [0x01]))) pd)).map (·.notes) = some [.scStatus 1 .pending] ∧
    (pdc (exec (.tChlng 0 (poll 0 (rcp ++ [0x01]))) pd)).map (·.pseq) = some 1 := by decide +kernel
/-- P3 step 7. -/
theorem test_tCcrypt_P3 :
    (dev1 (exec (.tCcrypt 1 (poll 0 (rpd ++ [0x5F, 0xD7, 0x57, 0x1D]))) (cpWith { challenged with online := true }))).map
      (fun d => (d.sc, d.seq)) = some (scReceived, 1) := by decide +kernel
/-- V37. -/
theorem test_tCcrypt_V37 :
    answer (exec (.tCcrypt 1 (poll 0 (rpd ++ [0xF4, 0x66, 0xFC, 0xAC]))) (cpWith challenged)) =
      okay [] [.scStatus 1 .broken, .error 1 .cryptogramInvalid, .commandFailed 1 0x76 (.error .cryptogramInvalid)] := by
  decide +kernel
/-- P3 step 9. -/
theorem test_tScrypt_P3 :
    answer (exec (.tScrypt 0 (poll 1 [0x34, 0x58, 0x91, 0x97]))
        (pdWith { Pdc.init with pdstate := .repliedWaiting, pseq := 1, sc := scPdSent })) =
      okay [[0x01, 0x00, 0x05, 0x78, 0xCE, 0x78]] [.scStatus 1 .established] := by decide +kernel
/-- P3 step 10. -/
theorem test_tScdone_P3 :
    answer (exec (.tScdone 1 (poll 1 [])) (cpWith { confirming with online := true })) = okay [] [.scStatus 1 .established] ∧
    (dev1 (exec (.tScdone 1 (poll 1 [])) (cpWith confirming))).map (fun d => (d.dstate, d.seq)) = some (.polling, 2) := by
  decide +kernel

/-- R291. -/
theorem test_reset :
    answer (exec .reset (cpWith awaiting)) = okay [] [] ∧ dev1 (exec .reset (cpWith awaiting)) = none := by decide +kernel
/-- R96, V35a. -/
theorem test_otherOp :
    answer (exec (.otherOp 0x05) pd) = refused .badOperand ∧ answer (exec (.devTick 1 0) cp) = refused .noSuchDevice := by
  decide +kernel

/-- A placed instruction is what the next step runs: an operation, a frame given by its first four bytes. -/
theorem test_step_runs_placed :
    answer (step (State.reset.withFetchWord 8 0x7F)) = okay [] [] ∧
    answer (step (State.reset.withFetchWord 8 0x35)) = refused .noSuchDevice ∧
    decodeTableWord 32 0x60040001 = some (.frameSc 0 (frameWith 0) 0) ∧
    answer (step (State.reset.withFetchWord 32 0x60040001)) = okay [] [] := by decide +kernel

/-- U21: with a key of three bytes where `KEY_LEN` is 4, or with `MAC_LEN` above `MAX_PAYLOAD` (R9), nothing is performed. -/
theorem test_step_refuses_configurations :
    stopped (step { cp.withFetchWord 8 0x50 with keystore := cp.keystore.set 2 (some [0, 0, 0]) }) =
      some .invalidConfiguration ∧
    stopped (step { cp.withFetchWord 8 0x7F with straps := { Config.straps with macLen := 1025 } }) =
      some .invalidConfiguration := by decide +kernel

/-- R290: RESET samples the straps, so it is those that must agree with the keys: from the reset state, whose `KEY_LEN` is
16, with fixture T0's straps and keys of 4 bytes. -/
theorem test_step_reset_takes_new_straps :
    stopped (step { State.reset.withFetchWord 8 0x50 with straps := t0, keystore := cp.keystore }) =
      some .invalidConfiguration ∧
    answer (step { State.reset.withFetchWord 8 0x7F with straps := t0, keystore := cp.keystore }) = okay [] [] := by
  decide +kernel

/-! ### Witnesses: for each obligation with hypotheses, values that meet them together

Where an obligation has several clauses, the witness meets each clause's hypotheses, at a boundary where there is one. -/

/-- Both length boundaries of R82 are well formed. -/
theorem witness_DecodeOfEncodeIsIdentity :
    (Instr.frameSk 0 (frameWith 255) 0).wf = true ∧ (Instr.frameLc 0 (frameWith 65535) 0).wf = true := by
  simp only [Instr.wf, frameWith, List.length_replicate]; decide

theorem witness_UnknownOpSelectIsRefused : opSelectCodes.contains (OpRequest.ofCode 0x05).code = false := by decide +kernel

/-- A configuration with two equal type codes, and one with a key of three bytes where `KEY_LEN` is 4. -/
theorem witness_StepRunsTheDecodedInstruction :
    cp.inbox = [] ∧
    (cp.withFetchWord 8 0x7F).inbox = [.op (OpRequest.ofCode 0x7F)] ∧ cp.configOk (cp.parFor .reset) = true ∧
    decode (.op (OpRequest.ofCode 0x7F)) = .ok .reset ∧ decode (.frame 0 [0x01]) = .error .frameTooShort ∧
    cp.configOk { t0 with tPoll := 0x76 } = false ∧ Instr.muxTick 0 ≠ .reset ∧
    { cp with keystore := cp.keystore.set 2 (some [0, 0, 0]) }.key 2 = some [0, 0, 0] ∧
    ([0, 0, 0] : Bytes).length ≠ t0.keyLen ∧ State.reset.configOk State.reset.par = true := by decide +kernel

/-- A packet with a payload of 255 bytes and `mbl = 0` is valid, one of 256 is not; both are operands of WF_ENCODE. -/
theorem witness_EncodeLaysOutTheFrame :
    cp.par.maxPayload ≤ 65535 ∧ (OpRequest.ofCode 0x01).code = 0x01 ∧
    answer (exec (.wfEncode { v3 with mbl := 0, payload := List.replicate 255 0 }) cp) ≠ refused .invalidPacket ∧
    answer (exec (.wfEncode { v3 with mbl := 0, payload := List.replicate 256 0 }) cp) = refused .invalidPacket := by
  decide +kernel

/-- V3's packet. -/
def v3q : Packet :=
  { devid := 0x7F, mbl := true, sqn := 3, crc := true, sec := true, type := 0x6A, payload := [1, 2, 3] }

theorem witness_FrameRoundTrip :
    cp.par.maxPayload ≤ 65535 ∧ toPacket? v3 = some v3q ∧ packetValid cp.par v3q = true ∧ pd.par.maxPayload ≤ 65535 ∧
    ((frameOf cp.par v3q).map fun b => [b]).flatten = frameOf cp.par v3q := by decide +kernel

theorem witness_BrokenFramesAreRejected :
    cp.par.maxPayload ≤ 65535 ∧ packetValid cp.par v3q = true ∧ 9 < (frameOf cp.par v3q).length ∧ ([0x00] : Bytes) ≠ [] ∧
    ([0x45, 0x99] : Bytes).length = (checkBytes cp.par true (frameBytes true true (packetBody v3q))).length ∧
    ([0x45, 0x99] : Bytes) ≠ checkBytes cp.par true (frameBytes true true (packetBody v3q)) := by decide +kernel

theorem witness_ReservedBitsAreWrittenZeroAndIgnored :
    cp.par.maxPayload ≤ 65535 ∧ toPacket? v3 = some v3q ∧ packetValid cp.par v3q = true := by decide +kernel

theorem witness_FeedFillsTheAccumulator :
    cp.par.role = .cp ∧ (cpWith polling).dev 1 = some polling ∧ pd.par.role = .pd := by decide +kernel

theorem witness_FlushEmptiesTheAccumulator :
    (OpRequest.ofCode 0x04).code = 0x04 ∧ (cpWith polling).par.role = .cp ∧ (cpWith polling).dev 1 = some polling ∧
    (cpWith polling).dev 127 = none ∧ pd.par.role = .pd := by decide +kernel

theorem witness_ChannelResetReturnsToIdle :
    (OpRequest.ofCode 0x10).code = 0x10 ∧ (cpWith awaitingSecure).par.role = .cp ∧
    (cpWith awaitingSecure).dev 1 = some awaitingSecure ∧ (cpWith awaitingSecure).dev 0 = none ∧
    pd.par.role = .pd := by decide +kernel

theorem witness_CpBeginDrawsAChallenge :
    (cpWith polling).par.role = .cp ∧ (cpWith polling).dev 1 = some polling ∧ polling.sc.state = .idle ∧
    (cpWith challenged).dev 1 = some challenged ∧ challenged.sc.state ≠ .idle := by decide +kernel

/-- The right cryptogram (V32b), a wrong one (V32c), a payload one byte short, device 2 that has no key, the wrong state. -/
theorem witness_CpVerifyDerivesTheKeysOrBreaks :
    (OpRequest.ofCode 0x12).code = 0x12 ∧
    (cpWith challenged).par.role = .cp ∧ (cpWith challenged).dev 1 = some challenged ∧
    challenged.sc.state = .challengeSent ∧ challenged.sc.rndCp = some rcp ∧
    (rpd ++ [0, 0, 0]).length ≠ t0.chalLen + t0.cryptoLen ∧
    (rpd ++ [0x5F, 0xD7, 0x57, 0x1D]).length = t0.chalLen + t0.cryptoLen ∧
    (cpWith challenged).key 1 = some [0x30, 0x31, 0x32, 0x33] ∧
    (rpd ++ [0x5F, 0xD7, 0x57, 0x1D]).drop t0.chalLen =
      cgramPd t0 [0x30, 0x31, 0x32, 0x33] rcp ((rpd ++ [0x5F, 0xD7, 0x57, 0x1D]).take t0.chalLen) ∧
    (rpd ++ [0xF4, 0x66, 0xFC, 0xAC]).drop t0.chalLen ≠
      cgramPd t0 [0x30, 0x31, 0x32, 0x33] rcp ((rpd ++ [0xF4, 0x66, 0xFC, 0xAC]).take t0.chalLen) ∧
    (cp.setDev 2 (some challenged)).dev 2 = some challenged ∧ (cp.setDev 2 (some challenged)).key 2 = none ∧
    (cpWith polling).dev 1 = some polling ∧ polling.sc.state ≠ .challengeSent := by decide +kernel

theorem witness_CpConfirmThenFinish :
    (OpRequest.ofCode 0x13).code = 0x13 ∧ (OpRequest.ofCode 0x14).code = 0x14 ∧ (cpWith confirming).par.role = .cp ∧
    (cpWith confirming).dev 1 = some confirming ∧ confirming.sc.state = .challengeReceived ∧
    (cpWith confirming).key 1 = some [0x30, 0x31, 0x32, 0x33] ∧ confirming.sc.rndCp = some rcp ∧
    confirming.sc.rndPd = some rpd ∧ (cp.setDev 2 (some confirming)).dev 2 = some confirming ∧
    (cp.setDev 2 (some confirming)).key 2 = none ∧ (cpWith challenged).dev 1 = some challenged ∧
    challenged.sc.state ≠ .challengeReceived := by decide +kernel

theorem witness_PdChallengeAnswersInEveryState :
    pd.par.role = .pd ∧ pd.key pd.par.myAddr = some [0x30, 0x31, 0x32, 0x33] ∧ rcp.length = pd.par.chalLen ∧
    ([0x01] : Bytes).length = pd.par.capsLen ∧ rcp.length ≠ pd.par.chalLen + pd.par.capsLen ∧
    (rcp ++ [0x01]).length = pd.par.chalLen + pd.par.capsLen ∧
    { pd with keystore := Vector.replicate 128 none }.key pd.par.myAddr = none := by decide +kernel

/-- The PD that has sent its cryptogram. -/
def pdChallenged : State := pdWith { Pdc.init with pdstate := .repliedWaiting, pseq := 1, sc := scPdSent }

theorem witness_PdVerifyEstablishesOrBreaks :
    (OpRequest.ofCode 0x16).code = 0x16 ∧ pd.par.role = .pd ∧ pd.pdc.sc.state ≠ .challengeSent ∧
    pdChallenged.par.role = .pd ∧ pdChallenged.pdc.sc.state = .challengeSent ∧
    ([0, 0, 0] : Bytes).length ≠ pdChallenged.par.cryptoLen ∧
    pdChallenged.key pdChallenged.par.myAddr = some [0x30, 0x31, 0x32, 0x33] ∧ pdChallenged.pdc.sc.rndCp = some rcp ∧
    pdChallenged.pdc.sc.rndPd = some rpd ∧
    [0x34, 0x58, 0x91, 0x97] = cgramCp pdChallenged.par [0x30, 0x31, 0x32, 0x33] rcp rpd ∧
    [0x34, 0x58, 0x91, 0x96] ≠ cgramCp pdChallenged.par [0x30, 0x31, 0x32, 0x33] rcp rpd ∧
    ([0x34, 0x58, 0x91, 0x97] : Bytes).length = pdChallenged.par.cryptoLen ∧
    { pdChallenged with keystore := Vector.replicate 128 none }.key pdChallenged.par.myAddr = none := by decide +kernel

/-- T0 with payloads of at most 12 bytes, so that the largest plaintext it can seal is 10 bytes. -/
def tight : Params := { t0 with maxPayload := 12 }

theorem witness_WrapSealsThePayload :
    (OpRequest.ofCode 0x17).code = 0x17 ∧ ({ cpWith awaitingSecure with par := tight }).dev 1 = some awaitingSecure ∧
    tight.role = .cp ∧ awaitingSecure.sc = scUp ∧ scUp.state = .established ∧
    scUp.sEnc = some [0x99, 0x5D] ∧ scUp.sMac = some [0x3C, 0x92] ∧
    (enc tight [0x99, 0x5D] (List.replicate 10 0) ++
      mac tight [0x3C, 0x92] (enc tight [0x99, 0x5D] (List.replicate 10 0))).length ≤ tight.maxPayload ∧
    tight.maxPayload < (enc tight [0x99, 0x5D] (List.replicate 11 0) ++
      mac tight [0x3C, 0x92] (enc tight [0x99, 0x5D] (List.replicate 11 0))).length ∧
    pd.par.role = .pd ∧ pd.pdc.sc.state ≠ .established := by decide +kernel

/-- On either role: V33d, V33e, V33g, and no established channel. -/
theorem witness_UnwrapVerifiesThenDecrypts :
    (OpRequest.ofCode 0x18).code = 0x18 ∧ (cpWith awaitingSecure).par = t0 ∧ t0.role = .cp ∧
    (cpWith awaitingSecure).dev 1 = some awaitingSecure ∧ awaitingSecure.sc = scUp ∧
    (pdWith { Pdc.init with sc := scUp }).par.role = .pd ∧ (pdWith { Pdc.init with sc := scUp }).par.macLen = t0.macLen ∧
    scUp.state = .established ∧ scUp.sEnc = some [0x99, 0x5D] ∧ scUp.sMac = some [0x3C, 0x92] ∧
    ([0xC3] : Bytes).length < t0.macLen ∧ t0.macLen ≤ ([0x88, 0x7F, 0xAA, 0xC0, 0xC3] : Bytes).length ∧
    ([0x88, 0x7F, 0xAA, 0xC0, 0xC3] : Bytes).drop 3 = mac t0 [0x3C, 0x92] [0x88, 0x7F, 0xAA] ∧
    ([0x89, 0x7F, 0xAA, 0xC0, 0xC3] : Bytes).drop 3 ≠ mac t0 [0x3C, 0x92] [0x89, 0x7F, 0xAA] ∧
    (cpWith polling).dev 1 = some polling ∧ polling.sc.state ≠ .established ∧ pd.pdc.sc.state ≠ .established := by
  decide +kernel

theorem witness_UnwrapRecoversWhatWasWrapped :
    (paramsOk t0 = true ∧ PDecEnc t0) ∧ (cpWith awaitingSecure).par = t0 ∧ t0.role = .cp ∧
    (cpWith awaitingSecure).dev 1 = some awaitingSecure ∧ awaitingSecure.sc = scUp ∧ scUp.state = .established ∧
    scUp.sEnc = some [0x99, 0x5D] ∧ scUp.sMac = some [0x3C, 0x92] :=
  ⟨⟨by decide +kernel, toy_pDecEnc rfl⟩, by decide +kernel⟩

/-- V33e and V33f: the first ciphertext byte, the last tag byte. -/
theorem witness_TamperingBreaksTheChannel :
    (paramsOk t0 = true ∧ PMac1Byte t0) ∧ (cpWith awaitingSecure).par = t0 ∧
    (cpWith awaitingSecure).dev 1 = some awaitingSecure ∧ awaitingSecure.sc = scUp ∧ scUp.state = .established ∧
    scUp.sEnc = some [0x99, 0x5D] ∧ scUp.sMac = some [0x3C, 0x92] ∧
    enc t0 [0x99, 0x5D] [0x11, 0x22, 0x33] ++ mac t0 [0x3C, 0x92] (enc t0 [0x99, 0x5D] [0x11, 0x22, 0x33]) =
      [] ++ [0x88] ++ [0x7F, 0xAA, 0xC0, 0xC3] ∧ (0x88 : Byte) ≠ 0x89 ∧
    enc t0 [0x99, 0x5D] [0x11, 0x22, 0x33] ++ mac t0 [0x3C, 0x92] (enc t0 [0x99, 0x5D] [0x11, 0x22, 0x33]) =
      [0x88, 0x7F, 0xAA, 0xC0] ++ [0xC3] ++ [] ∧ (0xC3 : Byte) ≠ 0xC2 ∧
    (pdWith { Pdc.init with sc := scUp }).par.role = .pd :=
  ⟨⟨by decide +kernel, toy_pMac1Byte rfl⟩, by decide +kernel⟩

theorem dev1_of {o : Host.Outcome State Fault Refusal} {d : Device} (h : dev1 o = some d) :
    ∃ t, o = .next t ∧ t.dev 1 = some d := by
  cases o with
  | next t => exact ⟨t, rfl, h⟩
  | fault f => cases h
  | refused r => cases h

theorem pdc_of {o : Host.Outcome State Fault Refusal} {p : Pdc} (h : pdc o = some p) : ∃ t, o = .next t ∧ t.pdc = p := by
  cases o with
  | next t => exact ⟨t, rfl, Option.some.inj h⟩
  | fault f => cases h
  | refused r => cases h

/-- V32f, V32b, V32h: each conclusion's state is reached by an instruction. -/
theorem witness_EstablishedOnlyByVerifiedCryptograms :
    (∃ t, exec (.scCpFinish 1) (cpWith { offline with sc := scReceived }) = .next t ∧
      t.dev 1 = some { offline with sc := scUp }) ∧
    (∃ t, exec (.scCpVerify 1 (rpd ++ [0x5F, 0xD7, 0x57, 0x1D])) (cpWith { offline with sc := scSent }) = .next t ∧
      t.dev 1 = some { offline with sc := scReceived }) ∧
    (∃ t, exec (.scPdVerify [0x34, 0x58, 0x91, 0x97]) (pdWith { Pdc.init with sc := scPdSent }) = .next t ∧
      t.pdc = { Pdc.init with sc := scUp }) ∧
    scUp.state = .established ∧ scReceived.state = .challengeReceived :=
  ⟨dev1_of (by decide +kernel), dev1_of (by decide +kernel), pdc_of (by decide +kernel), rfl, rfl⟩

theorem witness_RegistryLookups : (OpRequest.ofCode 0x20).code = 0x20 ∧ (OpRequest.ofCode 0x21).code = 0x21 := by decide

/-- Device ids 127 and 128, `use_crc` 1 and 2: the boundaries. -/
theorem witness_RegisterCreatesTheContext :
    (OpRequest.ofCode 0x30).code = 0x30 ∧ (cpWith polling).par.role = .cp ∧ 127 < 128 ∧ 1 ≤ 1 ∧
    (cpWith polling).dev 127 = none ∧ (cpWith polling).dev 1 ≠ none ∧ 1 < 2 := by decide +kernel

theorem witness_DeregisterIsSilent :
    (OpRequest.ofCode 0x31).code = 0x31 ∧ (cpWith awaiting).par.role = .cp ∧
    (cpWith awaiting).dev 1 = some awaiting := by decide +kernel

theorem witness_StartBringsADeviceToPolling :
    (OpRequest.ofCode 0x32).code = 0x32 ∧ (cpWith offline).par.role = .cp ∧ (cpWith offline).dev 1 = some offline ∧
    offline.dstate = .offline ∧ (cpWith polling).dev 1 = some polling ∧ polling.dstate ≠ .offline := by decide +kernel

theorem witness_SubmitQueuesAtTheTail :
    (OpRequest.ofCode 0x33).code = 0x33 ∧ (cpWith polling).par.role = .cp ∧
    (cpWith polling).dev 1 = some polling := by decide +kernel

theorem witness_ScStartEntersTheHandshake :
    (OpRequest.ofCode 0x34).code = 0x34 ∧ (cpWith polling).par.role = .cp ∧ (cpWith polling).dev 1 = some polling ∧
    polling.dstate = .polling ∧ (cpWith polling).key 1 = some [0x30, 0x31, 0x32, 0x33] ∧
    (cpWith awaiting).dev 1 = some awaiting ∧ awaiting.dstate ≠ .polling ∧
    (cp.setDev 2 (some polling)).dev 2 = some polling ∧ (cp.setDev 2 (some polling)).key 2 = none := by decide +kernel

/-- A polling device with a command queued. -/
def queued : Device := { polling with seq := 1, cmdq := [⟨0x6A, [0x02, 0x01]⟩] }

theorem witness_PollingTickSendsPlain :
    (cpWith queued).par.role = .cp ∧ (cpWith queued).dev 1 = some queued ∧ queued.dstate = .polling ∧
    queued.sc.state ≠ .established ∧ queued.cmdq = ⟨0x6A, [0x02, 0x01]⟩ :: [] ∧
    ([0x02, 0x01] : Bytes).length ≤ t0.maxPayload ∧ (cpWith polling).dev 1 = some polling ∧ polling.cmdq = [] ∧
    ([] : Bytes).length ≤ t0.maxPayload := by decide +kernel

/-- A polling device with an established channel, its queue empty, holding a command, or holding one too long to wrap. -/
def secured : Device := { polling with seq := 2, sc := scUp }
def securedQueued : Device := { secured with cmdq := [⟨0x6A, [0x02, 0x01]⟩] }
def securedLong : Device := { secured with cmdq := [⟨0x6A, List.replicate 11 0⟩] }

theorem witness_PollingTickSendsSecure :
    paramsOk t0 = true ∧ (cpWith secured).par = t0 ∧ t0.role = .cp ∧ (cpWith secured).dev 1 = some secured ∧
    secured.dstate = .polling ∧ secured.sc.state = .established ∧ secured.sc.sEnc = some [0x99, 0x5D] ∧
    secured.sc.sMac = some [0x3C, 0x92] ∧ secured.cmdq = [] ∧ t0.tPoll ≠ t0.tChlng ∧ t0.tPoll ≠ t0.tScrypt ∧
    (enc t0 [0x99, 0x5D] []).length + t0.macLen ≤ t0.maxPayload ∧
    (cpWith securedQueued).dev 1 = some securedQueued ∧ securedQueued.cmdq = [⟨0x6A, [0x02, 0x01]⟩] ∧
    (0x6A : Byte) ≠ t0.tChlng ∧ (0x6A : Byte) ≠ t0.tScrypt ∧
    (enc t0 [0x99, 0x5D] [0x02, 0x01]).length + t0.macLen ≤ t0.maxPayload ∧
    paramsOk tight = true ∧ ({ cpWith securedLong with par := tight }).dev 1 = some securedLong ∧
    (enc tight [0x99, 0x5D] []).length + tight.macLen ≤ tight.maxPayload ∧
    tight.maxPayload < (enc tight [0x99, 0x5D] (List.replicate 11 0)).length + tight.macLen := by decide +kernel

/-- The wire payload of a secure poll (P3 step 11), and V33a's, which is 11 22 33 under the same keys. -/
theorem seals_empty : Seals t0 scUp true [] [0xC3, 0x67] :=
  .inr ⟨rfl, rfl, _, _, rfl, rfl, by decide +kernel⟩
theorem seals_V33a : Seals t0 scUp true [0x11, 0x22, 0x33] [0x88, 0x7F, 0xAA, 0xC0, 0xC3] :=
  .inr ⟨rfl, rfl, _, _, rfl, rfl, by decide +kernel⟩
theorem opens_V33d : Opens t0 scUp true [0x88, 0x7F, 0xAA, 0xC0, 0xC3] [0x11, 0x22, 0x33] :=
  .inr ⟨rfl, rfl, _, _, [0x88, 0x7F, 0xAA], rfl, rfl, by decide +kernel, by decide +kernel⟩
theorem opens_empty : Opens t0 scUp true [0xC3, 0x67] [] :=
  .inr ⟨rfl, rfl, _, _, [], rfl, rfl, by decide +kernel, by decide +kernel⟩

/-- One before the deadline; a retransmission pending; the deadline with budget left; the deadline with the budget spent;
a plain poll, a secure one, and a challenge; a secure poll whose channel is gone. -/
theorem witness_AwaitingTickWaitsRetriesOrGivesUp :
    ((cpWith offline).dev 1 = some offline ∧ offline.dstate = .offline ∧
     (cpWith awaiting).par.role = .cp ∧ (cpWith awaiting).dev 1 = some awaiting ∧ awaiting.dstate = .awaitingReply ∧
     awaiting.slot = some ⟨0x60, [], 0, false⟩ ∧ ([] : Bytes).length ≤ t0.maxPayload ∧ awaiting.deadline = some 200 ∧
     awaiting.retxp = false ∧ 199 < 200 ∧ 200 ≤ 200 ∧ awaiting.retry + 1 < t0.retryMax ∧
     { awaiting with retxp := true }.retxp = true ∧ { awaiting with retry := 2 }.retxp = false ∧
     t0.retryMax ≤ { awaiting with retry := 2 }.retry + 1 ∧
     (cpWith awaitingSecure).par = t0 ∧ (cpWith awaitingSecure).dev 1 = some awaitingSecure ∧
     awaitingSecure.dstate = .awaitingReply ∧ awaitingSecure.slot = some ⟨0x60, [], 2, true⟩ ∧
     ([0xC3, 0x67] : Bytes).length ≤ t0.maxPayload ∧
     (cpWith challenged).dev 1 = some challenged ∧ challenged.dstate = .secureHandshake ∧
     challenged.slot = some ⟨0x76, rcp ++ [0x01], 0, false⟩ ∧ challenged.deadline = some 210 ∧
     { awaitingSecure with sc := Sc.init }.sc.state ≠ .established ∧ awaitingSecure.deadline = some 200 ∧
     awaitingSecure.retry + 1 < t0.retryMax) ∧
    Seals t0 awaiting.sc false [] [] ∧ Seals t0 awaitingSecure.sc true [] [0xC3, 0x67] ∧
    Seals t0 challenged.sc false (rcp ++ [0x01]) (rcp ++ [0x01]) :=
  ⟨by decide +kernel, .inl ⟨rfl, rfl⟩, seals_empty, .inl ⟨rfl, rfl⟩⟩

/-- P2, and the same for a secure poll. -/
theorem witness_ConsecutiveTimeoutsEndOffline :
    ((cpWith awaiting).par = t0 ∧ t0.role = .cp ∧ (cpWith awaiting).dev 1 = some awaiting ∧
     awaiting.dstate = .awaitingReply ∧
     awaiting.slot = some ⟨0x60, [], 0, false⟩ ∧ ([] : Bytes).length ≤ t0.maxPayload ∧
     awaiting.retxp = false ∧ awaiting.deadline = some 200 ∧ awaiting.retry < t0.retryMax ∧
     awaiting.retry + ([200, 400, 600] : List Time).length = t0.retryMax ∧
     (∀ x ∈ ([200, 400, 600] : List Nat), 200 ≤ x) ∧
     ([200, 400, 600] : List Nat).Pairwise (fun x y => x + t0.timeout ≤ y) ∧
     (cpWith awaitingSecure).dev 1 = some awaitingSecure ∧ awaitingSecure.slot = some ⟨0x60, [], 2, true⟩ ∧
     ([0xC3, 0x67] : Bytes).length ≤ t0.maxPayload) ∧
    Seals t0 awaiting.sc false [] [] ∧ Seals t0 awaitingSecure.sc true [] [0xC3, 0x67] :=
  ⟨by decide +kernel, .inl ⟨rfl, rfl⟩, seals_empty⟩

/-- A handshake from `Idle`, from `Broken`, with the first exchange done, and with the key gone. -/
def handshakeBroken : Device := { handshake with sc := { Sc.init with state := .broken } }
def handshakeHalf : Device := { handshake with sc := scReceived, seq := 1 }

theorem witness_HandshakeTickSendsTheNextMessage :
    paramsOk t0 = true ∧ (cpWith handshake).par = t0 ∧ t0.role = .cp ∧ (cpWith handshake).dev 1 = some handshake ∧
    handshake.dstate = .secureHandshake ∧ handshake.slot = none ∧ handshake.sc = Sc.init ∧
    (cpWith handshakeBroken).dev 1 = some handshakeBroken ∧ handshakeBroken.sc.state = .broken ∧
    (cpWith handshakeHalf).dev 1 = some handshakeHalf ∧ handshakeHalf.sc.state = .challengeReceived ∧
    handshakeHalf.sc.rndCp = some rcp ∧ handshakeHalf.sc.rndPd = some rpd ∧
    (cpWith handshakeHalf).key 1 = some [0x30, 0x31, 0x32, 0x33] ∧
    (cp.setDev 2 (some handshakeHalf)).dev 2 = some handshakeHalf ∧
    (cp.setDev 2 (some handshakeHalf)).key 2 = none := by decide +kernel

/-- The acknowledgement of V36a; one with a stale number (P4); one of a type a poll does not allow (P5); one that fails its
schema (V36e). -/
def ack : Packet := mkPacket 1 0 true false 0x40 []
def stale : Packet := mkPacket 1 1 true false 0x40 []
def illegal : Packet := mkPacket 1 0 true false 0x78 []
def malformed : Packet := mkPacket 1 0 true false 0x41 []

/-- P3 step 14A: a secure reply. -/
def secureReply : Packet := mkPacket 1 2 true true 0x40 [0x88, 0x7F, 0xAA, 0xC0, 0xC3]

theorem witness_GoodReplyCompletesTheExchange :
    (paramsOk t0 = true ∧ (cpWith awaiting).par = t0 ∧ t0.role = .cp ∧ (cpWith awaiting).dev 1 = some awaiting ∧
     packetValid t0 ack = true ∧ awaiting.dstate = .awaitingReply ∧ awaiting.rxbuf = [] ∧
     awaiting.slot = some ⟨0x60, [], 0, false⟩ ∧ (0x60 : Byte) ≠ t0.tChlng ∧ (0x60 : Byte) ≠ t0.tScrypt ∧
     ack.devid = 1 ∧ ack.sqn = 0 ∧ replyLegal t0 0x60 ack.type = true ∧
     (cpWith awaitingSecure).dev 1 = some awaitingSecure ∧ awaitingSecure.rxbuf = [] ∧
     awaitingSecure.slot = some ⟨0x60, [], 2, true⟩ ∧ packetValid t0 secureReply = true ∧ secureReply.devid = 1 ∧
     secureReply.sqn = 2 ∧ replyLegal t0 0x60 secureReply.type = true) ∧
    Opens t0 awaiting.sc ack.sec ack.payload [] ∧
    Opens t0 awaitingSecure.sc secureReply.sec secureReply.payload [0x11, 0x22, 0x33] ∧
    (∀ en, regRpl t0 0x40 = some en → schemaAccepts en.schema [0x11, 0x22, 0x33] = true) := by
  refine ⟨by decide +kernel, .inl ⟨rfl, rfl⟩, opens_V33d, fun en h => ?_⟩
  cases h; rfl

/-- Plain and secure; the secure reply answers number 2, the device waits for number 1. -/
theorem witness_StaleReplyResyncsOnceThenOffline :
    (paramsOk t0 = true ∧ (cpWith awaiting).par = t0 ∧ t0.role = .cp ∧ (cpWith awaiting).dev 1 = some awaiting ∧
     packetValid t0 stale = true ∧ awaiting.dstate ≠ .offline ∧ awaiting.rxbuf = [] ∧
     awaiting.slot = some ⟨0x60, [], 0, false⟩ ∧ stale.devid = 1 ∧ stale.sqn ≠ 0 ∧
     awaiting.resync = false ∧ { awaiting with resync := true }.resync = true ∧
     packetValid t0 secureReply = true ∧ secureReply.devid = 1 ∧ secureReply.sqn ≠ 1) ∧
    Opens t0 awaiting.sc stale.sec stale.payload [] ∧
    Opens t0 { awaitingSecure with slot := some ⟨0x60, [], 1, true⟩ }.sc secureReply.sec secureReply.payload
      [0x11, 0x22, 0x33] :=
  ⟨by decide +kernel, .inl ⟨rfl, rfl⟩, opens_V33d⟩

/-- A T_SCDONE that is not empty; a T_CCRYPT one byte short. -/
def fullDone : Packet := mkPacket 1 1 true false 0x78 [0x00]
def shortCcrypt : Packet := mkPacket 1 0 true false 0x76 (rpd ++ [0x5F, 0xD7, 0x57])

/-- A type the poll does not allow, also as the answer to a challenge, and a payload that fails its schema; the secure
reply 0x40 to a command that allows only 0x76. -/
theorem witness_IllegalReplyCountsAgainstTheBudget :
    (paramsOk t0 = true ∧ (cpWith awaiting).par = t0 ∧ t0.role = .cp ∧ (cpWith awaiting).dev 1 = some awaiting ∧
     packetValid t0 illegal = true ∧ packetValid t0 malformed = true ∧ awaiting.dstate ≠ .offline ∧
     awaiting.rxbuf = [] ∧ awaiting.slot = some ⟨0x60, [], 0, false⟩ ∧ illegal.devid = 1 ∧ illegal.sqn = 0 ∧
     malformed.devid = 1 ∧ malformed.sqn = 0 ∧ (0x60 : Byte) ≠ t0.tChlng ∧
     (0x60 : Byte) ≠ t0.tScrypt ∧ replyLegal t0 0x60 illegal.type = false ∧ replyLegal t0 0x60 malformed.type = true ∧
     regRpl t0 malformed.type = some { schema := .len 1 } ∧ schemaAccepts (.len 1) [] = false ∧
     awaiting.retry + 1 < t0.retryMax ∧ t0.retryMax ≤ { awaiting with retry := 2 }.retry + 1 ∧
     (cpWith challenged).dev 1 = some challenged ∧ challenged.slot = some ⟨0x76, rcp ++ [0x01], 0, false⟩ ∧
     challenged.rxbuf = [] ∧ replyLegal t0 0x76 ack.type = false ∧ secureReply.sqn = 2) ∧
    Opens t0 awaiting.sc illegal.sec illegal.payload [] ∧ Opens t0 awaiting.sc malformed.sec malformed.payload [] ∧
    Opens t0 challenged.sc ack.sec ack.payload [] ∧
    Opens t0 { awaitingSecure with slot := some ⟨0x76, [], 2, true⟩ }.sc secureReply.sec secureReply.payload
      [0x11, 0x22, 0x33] ∧
    ((cpWith confirming).dev 1 = some confirming ∧ confirming.slot = some ⟨0x77, [0x34, 0x58, 0x91, 0x97], 1, false⟩ ∧
     confirming.rxbuf = [] ∧ confirming.dstate ≠ .offline ∧ packetValid t0 fullDone = true ∧ fullDone.sqn = 1 ∧
     fullDone.sec = false ∧ (0x77 : Byte) = t0.tScrypt ∧ replyLegal t0 0x77 fullDone.type = true ∧ fullDone.payload ≠ [] ∧
     packetValid t0 shortCcrypt = true ∧ shortCcrypt.sqn = 0 ∧ shortCcrypt.sec = false ∧ (0x76 : Byte) = t0.tChlng ∧
     replyLegal t0 0x76 shortCcrypt.type = true ∧ challenged.sc.state = .challengeSent ∧
     shortCcrypt.payload.length ≠ t0.chalLen + t0.cryptoLen) :=
  ⟨by decide +kernel, .inl ⟨rfl, rfl⟩, .inl ⟨rfl, rfl⟩, .inl ⟨rfl, rfl⟩, opens_V33d, by decide +kernel⟩

/-- P3 variant B, and a payload shorter than the tag. -/
def tampered : Packet := mkPacket 1 1 true true 0x40 [0x89, 0x7F, 0xAA, 0xC0, 0xC3]
def noTag : Packet := mkPacket 1 1 true true 0x40 [0xC3]

theorem witness_BadTagBreaksTheChannelOnReceipt :
    (cpWith awaitingSecure).par.role = .cp ∧ (cpWith awaitingSecure).dev 1 = some awaitingSecure ∧
    t0.maxPayload ≤ 65535 ∧ packetValid t0 tampered = true ∧ packetValid t0 noTag = true ∧
    awaitingSecure.dstate ≠ .offline ∧ awaitingSecure.rxbuf = [] ∧
    awaitingSecure.slot = some ⟨0x60, [], 2, true⟩ ∧ tampered.devid = 1 ∧ tampered.sec = true ∧ noTag.devid = 1 ∧
    noTag.sec = true ∧ awaitingSecure.sc.state = .established ∧ awaitingSecure.sc.sEnc = some [0x99, 0x5D] ∧
    awaitingSecure.sc.sMac = some [0x3C, 0x92] ∧ noTag.payload.length < t0.macLen ∧
    tampered.payload.drop (tampered.payload.length - t0.macLen) ≠
      mac t0 [0x3C, 0x92] (tampered.payload.take (tampered.payload.length - t0.macLen)) ∧
    (cpWith awaiting).dev 1 = some awaiting ∧ awaiting.slot = some ⟨0x60, [], 0, false⟩ ∧ awaiting.rxbuf = [] ∧
    awaiting.sc.state ≠ .established := by decide +kernel

theorem witness_BadCheckIsReportedAndDiscarded :
    (cpWith awaiting).par.role = .cp ∧ (cpWith awaiting).dev 1 = some awaiting ∧ t0.maxPayload ≤ 65535 ∧
    packetValid t0 ack = true ∧ awaiting.dstate ≠ .offline ∧ awaiting.rxbuf = [] ∧
    ([0xA4, 0xFD] : Bytes).length = (checkBytes t0 ack.crc (frameBytes ack.mbl ack.crc (packetBody ack))).length ∧
    ([0xA4, 0xFD] : Bytes) ≠ checkBytes t0 ack.crc (frameBytes ack.mbl ack.crc (packetBody ack)) := by decide +kernel

/-- P3 steps 7 and 10, and V37. -/
theorem witness_HandshakeRepliesAdvanceTheHandshake :
    paramsOk t0 = true ∧ (cpWith challenged).par = t0 ∧ t0.role = .cp ∧ (cpWith challenged).dev 1 = some challenged ∧
    challenged.dstate = .secureHandshake ∧ challenged.slot = some ⟨0x76, rcp ++ [0x01], 0, false⟩ ∧
    (poll 0 (rpd ++ [0x5F, 0xD7, 0x57, 0x1D])).devid = 1 ∧ (poll 0 []).sec = false ∧ (poll 0 []).sqn = 0 ∧
    (0x76 : Byte) = t0.tChlng ∧ challenged.sc.state = .challengeSent ∧ challenged.sc.rndCp = some rcp ∧
    (cpWith challenged).key 1 = some [0x30, 0x31, 0x32, 0x33] ∧ rpd.length = t0.chalLen ∧
    [0x5F, 0xD7, 0x57, 0x1D] = cgramPd t0 [0x30, 0x31, 0x32, 0x33] rcp rpd ∧
    [0xF4, 0x66, 0xFC, 0xAC] ≠ cgramPd t0 [0x30, 0x31, 0x32, 0x33] rcp rpd ∧
    ([0xF4, 0x66, 0xFC, 0xAC] : Bytes).length = t0.cryptoLen ∧
    (cpWith confirming).dev 1 = some confirming ∧ confirming.dstate = .secureHandshake ∧
    confirming.slot = some ⟨0x77, [0x34, 0x58, 0x91, 0x97], 1, false⟩ ∧ (0x77 : Byte) = t0.tScrypt ∧
    confirming.sc.state = .challengeReceived ∧ (poll 1 []).sqn = 1 ∧ (poll 1 []).payload = [] ∧
    challenged.rxbuf = [] ∧ confirming.rxbuf = [] ∧
    (poll 0 (rpd ++ [0x5F, 0xD7, 0x57, 0x1D])).payload.length = t0.chalLen + t0.cryptoLen ∧
    (poll 0 (rpd ++ [0x5F, 0xD7, 0x57, 0x1D])).payload.length ≤ t0.maxPayload ∧
    (cp.setDev 2 (some challenged)).dev 2 = some challenged ∧ (cp.setDev 2 (some challenged)).key 2 = none := by
  decide +kernel

/-- A PD with an established channel, and a secure command for it (P3 step 12's keys, number 2, a tampered copy). -/
def pdUp : Pdc := { pdIdle with sc := scUp }
def secureCmd : Packet := mkPacket 1 2 true true 0x6A [0x88, 0x7F, 0xAA, 0xC0, 0xC3]
def badCmd : Packet := mkPacket 1 2 true true 0x6A [0x89, 0x7F, 0xAA, 0xC0, 0xC3]

/-- V38c, V38i, V38d, V38a, V38j, and a tampered secure command. -/
theorem witness_PdRxAcceptsOrDropsACommand :
    (paramsOk pd.par = true ∧ (pdWith pdIdle).par = pd.par ∧ pd.par.role = .pd ∧
     packetValid pd.par (mkPacket 1 2 true false 0x60 []) = true ∧
     pdIdle.rxbuf = [] ∧ pd.par.myAddr = 1 ∧ pdIdle.pdstate ≠ .processingCommand ∧ pdIdle.pseq = 2 ∧
     (0x60 : Byte) ≠ pd.par.tChlng ∧ (0x60 : Byte) ≠ pd.par.tScrypt ∧
     packetValid pd.par (mkPacket 2 0 true false 0x60 []) = true ∧ (mkPacket 2 0 true false 0x60 []).devid ≠ pd.par.myAddr ∧
     (pdWith pdBusy).par.role = .pd ∧ pdBusy.rxbuf = [] ∧ pdBusy.pdstate = .processingCommand ∧
     (1 : Seq) ≠ 0 ∧ (1 : Seq) ≠ pdIdle.pseq ∧
     packetValid pd.par secureCmd = true ∧ secureCmd.devid = pd.par.myAddr ∧ secureCmd.sqn = pdUp.pseq ∧
     (0x6A : Byte) ≠ pd.par.tChlng ∧ (0x6A : Byte) ≠ pd.par.tScrypt ∧ pdUp.rxbuf = [] ∧
     pdUp.pdstate ≠ .processingCommand ∧ secureCmd.sec = true ∧ pdIdle.sc.state ≠ .established ∧
     badCmd.sec = true ∧ badCmd.devid = pd.par.myAddr ∧ packetValid pd.par badCmd = true ∧
     pdUp.sc.state = .established ∧ pdUp.sc.sEnc = some [0x99, 0x5D] ∧ pdUp.sc.sMac = some [0x3C, 0x92] ∧
     badCmd.payload.drop (badCmd.payload.length - pd.par.macLen) ≠
       mac pd.par [0x3C, 0x92] (badCmd.payload.take (badCmd.payload.length - pd.par.macLen)) ∧
     ([0xC3] : Bytes).length < pd.par.macLen) ∧
    Opens pd.par pdIdle.sc false [] [] ∧
    Opens pd.par pdUp.sc secureCmd.sec secureCmd.payload [0x11, 0x22, 0x33] :=
  ⟨by decide +kernel, .inl ⟨rfl, rfl⟩,
   .inr ⟨rfl, rfl, _, _, [0x88, 0x7F, 0xAA], rfl, rfl, by decide +kernel, by decide +kernel⟩⟩

/-- Payloads at both length boundaries; a CP's bytes are routed by MUX_RX, a PD's by PD_RX. -/
theorem witness_FramesActAsTheirBytes :
    cp.par.role = .cp ∧ (pdWith pdIdle).par.role = .pd ∧ pd.par.maxPayload ≤ 65535 ∧
    (frameWith 255).payload.length ≤ pd.par.maxPayload ∧ (frameWith 255).payload.length ≤ 255 ∧
    (frameWith 1024).payload.length ≤ pd.par.maxPayload ∧ pdIdle.rxbuf = [] ∧ pdIdle.pdstate ≠ .processingCommand ∧
    (frameWith 0).devid = pd.par.myAddr ∧ (frameWith 0).sec = false ∧ (frameWith 0).sqn = 0 ∧
    (frameWith 0).type ≠ pd.par.tChlng ∧ (frameWith 0).type ≠ pd.par.tScrypt := by decide +kernel

/-- A secure poll (P3 step 12). -/
def securePoll : Message := { devid := 1, sqn := 2, crc := true, sec := true, payload := [0xC3, 0x67] }

/-- A plain poll and a secure one on a PD; a delivered reply on a CP; every payload fits. -/
theorem witness_MessagesActAsTheirFrames :
    (paramsOk pd.par = true ∧ paramsOk t0 = true ∧ (pdWith pdIdle).par = pd.par ∧ pd.par.role = .pd ∧
     pdIdle.pdstate ≠ .processingCommand ∧ pdIdle.rxbuf = [] ∧ pdUp.rxbuf = [] ∧
     (poll 2 []).payload.length ≤ pd.par.maxPayload ∧ securePoll.payload.length ≤ pd.par.maxPayload ∧
     (cpWith confirming).par = t0 ∧ t0.role = .cp ∧ (cpWith confirming).dev 1 = some confirming ∧ confirming.rxbuf = [] ∧
     (cpWith offline).dev 1 = some offline ∧ offline.rxbuf = [] ∧ (poll 1 []).payload.length ≤ t0.maxPayload ∧
     (poll 2 []).devid = pd.par.myAddr ∧ (poll 2 []).sqn = pdIdle.pseq ∧
     securePoll.devid = pd.par.myAddr ∧ securePoll.sqn = pdUp.pseq ∧ pdUp.pdstate ≠ .processingCommand) ∧
    Opens pd.par pdIdle.sc (poll 2 []).sec (poll 2 []).payload [] ∧
    Opens pd.par pdUp.sc securePoll.sec securePoll.payload [] :=
  ⟨by decide +kernel, .inl ⟨rfl, rfl⟩, .inr ⟨rfl, rfl, _, _, [], rfl, rfl, by decide +kernel, by decide +kernel⟩⟩

/-- P3 steps 6 and 9; a challenge that comes secure opens to V33d's plaintext when that is a challenge and capabilities. -/
theorem witness_PdAnswersTheHandshake :
    (paramsOk pd.par = true ∧ pdChallenged.par = pd.par ∧ pd.par.role = .pd ∧
     pdChallenged.pdc.pdstate ≠ .processingCommand ∧ (poll 0 []).devid = pd.par.myAddr ∧ (poll 0 []).sec = false ∧
     (poll 0 []).sqn = 0 ∧ (poll 1 []).sqn = pdChallenged.pdc.pseq ∧
     pdChallenged.key pd.par.myAddr = some [0x30, 0x31, 0x32, 0x33] ∧ rcp.length = pd.par.chalLen ∧
     ([0x01] : Bytes).length = pd.par.capsLen ∧ pdChallenged.pdc.sc.state = .challengeSent ∧
     pdChallenged.pdc.sc.rndCp = some rcp ∧ pdChallenged.pdc.sc.rndPd = some rpd ∧
     [0x34, 0x58, 0x91, 0x97] = cgramCp pd.par [0x30, 0x31, 0x32, 0x33] rcp rpd ∧
     (pdWith pdUp).key pd.par.myAddr = some [0x30, 0x31, 0x32, 0x33] ∧ pdUp.pdstate ≠ .processingCommand ∧
     pdIdle.rxbuf = [] ∧ pdChallenged.pdc.rxbuf = [] ∧ (rcp ++ [0x01]).length = pd.par.chalLen + pd.par.capsLen ∧
     (rcp ++ [0x01]).length ≤ pd.par.maxPayload ∧ rcp.length ≠ pd.par.chalLen + pd.par.capsLen ∧
     { pd with keystore := Vector.replicate 128 none }.key pd.par.myAddr = none ∧
     pdIdle.sc.state ≠ .challengeSent ∧ ([0x34, 0x58, 0x91] : Bytes).length ≠ pd.par.cryptoLen ∧
     ([0x34, 0x58, 0x91, 0x96] : Bytes).length = pd.par.cryptoLen ∧
     [0x34, 0x58, 0x91, 0x96] ≠ cgramCp pd.par [0x30, 0x31, 0x32, 0x33] rcp rpd) ∧
    (∀ p, Opens pd.par pdChallenged.pdc.sc false p p) ∧
    Opens pd.par pdIdle.sc false (rcp ++ [0x01]) (rcp ++ [0x01]) ∧
    Opens pd.par pdUp.sc true
      (enc pd.par [0x99, 0x5D] (rcp ++ [0x01]) ++ mac pd.par [0x3C, 0x92] (enc pd.par [0x99, 0x5D] (rcp ++ [0x01])))
      (rcp ++ [0x01]) :=
  ⟨by decide +kernel, fun _ => .inl ⟨rfl, rfl⟩, .inl ⟨rfl, rfl⟩,
   .inr ⟨rfl, rfl, _, _, _, rfl, rfl, rfl, by decide +kernel⟩⟩

/-- V38e, V38f, V38n, P3 step 13; a payload one byte too long, plain and wrapped; a secure command whose channel is gone. -/
theorem witness_PdReplyAnswersTheCommand :
    ((OpRequest.ofCode 0x41).code = 0x41 ∧ (pdWith pdBusy).par = pd.par ∧ pd.par.role = .pd ∧
     pdIdle.pdstate ≠ .processingCommand ∧ pdBusy.pdstate = .processingCommand ∧
     pdBusy.cur = some ⟨0x60, 2, false, true⟩ ∧ replyAllowed pd.par 0x60 0x78 = false ∧
     { pdBusy with cur := some ⟨0x60, 2, true, true⟩ }.sc.state ≠ .established ∧
     replyAllowed pd.par 0x60 0x40 = true ∧ ([] : Bytes).length ≤ pd.par.maxPayload ∧
     tight.maxPayload < (List.replicate 13 (0 : Byte)).length ∧
     ([0x11, 0x22, 0x33] : Bytes).length ≤ pd.par.maxPayload ∧
     ([0x88, 0x7F, 0xAA, 0xC0, 0xC3] : Bytes).length ≤ pd.par.maxPayload ∧
     (List.replicate 11 (0 : Byte)).length ≤ tight.maxPayload ∧
     tight.maxPayload < (enc tight [0x99, 0x5D] (List.replicate 11 0) ++
       mac tight [0x3C, 0x92] (enc tight [0x99, 0x5D] (List.replicate 11 0))).length) ∧
    Seals pd.par pdBusy.sc false [] [] ∧
    Seals pd.par { pdBusy with sc := scUp }.sc true [0x11, 0x22, 0x33] [0x88, 0x7F, 0xAA, 0xC0, 0xC3] ∧
    Seals tight { pdBusy with sc := scUp }.sc true (List.replicate 11 0) (enc tight [0x99, 0x5D] (List.replicate 11 0) ++
       mac tight [0x3C, 0x92] (enc tight [0x99, 0x5D] (List.replicate 11 0))) :=
  ⟨by decide +kernel, .inl ⟨rfl, rfl⟩, .inr ⟨rfl, rfl, _, _, rfl, rfl, by decide +kernel⟩,
   .inr ⟨rfl, rfl, _, _, rfl, rfl, rfl⟩⟩

theorem bus2_slots : ∀ b d, bus2.dev b = some d → d.slot = none := by
  have h : ∀ b, (match bus2.dev b with | some d => d.slot.isNone | none => true) = true := by decide +kernel
  intro b d e
  have := h b
  rw [e] at this
  simpa using this

/-- Device 5 busy, device 1 idle (V39e). -/
def bus3 : State := bus2.setDev 5 (some { awaiting with deadline := some 202, lastpoll := some 2 })

/-- The busy branch: no busy device below 5, its deadline reached at 202 and not at 201, the gap elapsed; and device 5
served by DEV_TICK with the status `OK`. -/
theorem witness_MuxTickServesTheBusyDevice :
    bus3.par.role = .cp ∧ (∃ d, bus3.dev 5 = some d ∧ d.slot.isSome = true ∧ d.deadline = some 202 ∧ d.retxp = false) ∧
    (∀ c dc, c < 5 → bus3.dev c = some dc → dc.slot = none) ∧
    (∀ t, bus3.mux.lasttx = some t → t + bus3.par.turnaroundGap ≤ 201) ∧ 202 ≤ 202 ∧ ¬ 202 ≤ 201 ∧
    (∃ t r, exec (.devTick (5 : DevId).toNat 202) bus3 = .next t ∧ t.result = some r ∧ r.status = .ok) := by
  refine ⟨rfl, ⟨_, rfl, rfl, rfl, rfl⟩, ?_, ?_, by decide, by decide, ?_⟩
  · have h : ∀ c : DevId, c < 5 → (match bus3.dev c with | some d => d.slot.isNone | none => true) = true := by
      decide +kernel
    intro c dc hc e
    have := h c hc
    rw [e] at this
    simpa using this
  · intro t h
    cases h
    decide
  · obtain ⟨t, h, e⟩ := next_of_answer (o := exec (.devTick (5 : DevId).toNat 202) bus3)
      (r := ⟨.ok, [[0x05, 0x00, 0x04, 0x60, 0x37, 0x12]], [], .none⟩) (by decide +kernel)
    exact ⟨t, _, h, e, rfl⟩

/-- V39d, at the very end of the gap; V39c, one before it; and a bus on which nobody is eligible. -/
theorem witness_MuxTickServesTheNextEligible :
    bus2.par.role = .cp ∧ (∀ b d, bus2.dev b = some d → d.slot = none) ∧
    (∀ t, bus2.mux.lasttx = some t → t + bus2.par.turnaroundGap ≤ 2) ∧
    (∀ j, 1 ≤ j → j < 4 → eligible bus2 2 (bus2.mux.rrptr + BitVec.ofNat 7 j) = false) ∧
    bus2.dev (bus2.mux.rrptr + BitVec.ofNat 7 4) = some polling ∧ polling.dstate = .polling ∧ polling.lastpoll = none ∧
    polling.sc.state ≠ .established ∧ polling.cmdq = [] ∧ eligible bus2 2 (bus2.mux.rrptr + BitVec.ofNat 7 4) = true ∧
    (∃ t, exec (.devTick 5 2) bus2 = .next t) ∧
    (∃ t, bus2.mux.lasttx = some t ∧ 1 < t + bus2.par.turnaroundGap) ∧ (∀ a, eligible cp 0 a = false) := by
  refine ⟨rfl, bus2_slots, ?_, ?_, rfl, rfl, rfl, by decide, rfl, by decide +kernel,
    ⟨_, rfl⟩, ⟨0, rfl, by decide⟩, by decide +kernel⟩
  · intro t h
    cases h
    decide
  · intro j h1 h2
    interval_cases j <;> decide +kernel

theorem witness_MuxTickIsHalfDuplex : ∃ t db d, bus3.par.role = .cp ∧ bus3.dev 5 = some db ∧ db.slot.isSome = true ∧
    exec (.muxTick 3) bus3 = .next t ∧ bus3.dev 1 = some d ∧ d.slot = none := by
  obtain ⟨t, h, -⟩ := next_of_answer (o := exec (.muxTick 3) bus3) (r := ⟨.ok, [], [], .served none⟩) (by decide +kernel)
  exact ⟨t, _, _, rfl, rfl, rfl, h, rfl, rfl⟩

theorem witness_MuxRxRoutesBytes :
    (OpRequest.ofCode 0x51).code = 0x51 ∧ (cpWith offline).par.role = .cp ∧ 127 < 128 ∧ (cpWith offline).dev 127 = none ∧
    (cpWith offline).dev 1 = some offline ∧ offline.dstate = .offline := by decide +kernel

/-- DEV_START touches the device it names, MUX_TICK the busy device of `bus3`, else the next eligible one (V39d, V39e). Two
operations that draw, on different devices. -/
theorem witness_AtMostOneContextChanges :
    Instr.devStart 1 ≠ .reset ∧ (∃ t, exec (.devStart 1) (cpWith offline) = .next t) ∧
    touched (cpWith offline) (.devStart 1) = some 1 ∧ touched (cpWith offline) (.devStart 1) ≠ some 2 ∧
    touched bus3 (.muxTick 3) = some 5 ∧ touched bus2 (.muxTick 2) = some 5 ∧ touched pd (.pdRx []) ≠ some 0 ∧
    let s := (cpWith offline).setDev 2 (some offline)
    s.par.role = .cp ∧ touched s (.scCpBegin 1) = some 1 ∧ touched s (.scCpBegin 2) = some 2 ∧ (1 : DevId) ≠ 2 ∧
    (∀ now, Instr.scCpBegin 1 ≠ .muxTick now) ∧ (∀ now, Instr.scCpBegin 2 ≠ .muxTick now) ∧
    (∃ t, exec (.scCpBegin 1) s = .next t) ∧ ∃ u, exec (.scCpBegin 2) s = .next u :=
  ⟨by simp, ⟨_, rfl⟩, by decide +kernel, by decide +kernel, by decide +kernel, by decide +kernel, by decide +kernel,
    rfl, by decide +kernel, by decide +kernel, by decide, by simp, by simp, ⟨_, rfl⟩, _, rfl⟩

theorem witness_RolesTouchOnlyTheirOwnHalf :
    (∃ t, exec (.devStart 1) (cpWith offline) = .next t ∧ (cpWith offline).par.role = .cp) ∧
    (∃ t, exec (.wfFlush 1) pd = .next t ∧ pd.par.role = .pd) :=
  ⟨⟨_, rfl, rfl⟩, _, rfl, rfl⟩

theorem witness_ParametersAndKeysAreFixed :
    (∃ t, exec (.devStart 1) (cpWith offline) = .next t) ∧ Instr.devStart 1 ≠ .reset ∧ ∃ t, exec .reset cp = .next t :=
  ⟨⟨_, rfl⟩, by simp, _, rfl⟩

theorem witness_RefusalsChangeNothing : ∃ t r, exec (.devStart 1) (cpWith polling) = .next t ∧ t.result = some r ∧
    r.status = .refused .wrongState := by
  obtain ⟨t, h, e⟩ := next_of_answer (o := exec (.devStart 1) (cpWith polling)) (r := ⟨.refused .wrongState, [], [], .none⟩)
    (by decide +kernel)
  exact ⟨t, _, h, e, rfl⟩

theorem witness_WrongRoleAndUnknownDevicesAreRefused :
    pd.par.role = .pd ∧ cpOnly (.muxTick 0) = true ∧ cp.par.role = .cp ∧ pdOnly (.pdRx []) = true ∧
    namedDevice (.devTick 128 0) = some 128 ∧ 127 < 128 ∧ namedDevice (.devTick 127 0) = some (127 : DevId).toNat ∧
    cp.dev 127 = none ∧ cp.par.role = .cp ∧ 127 < 128 ∧ 255 < 256 := by decide +kernel

/-- Contexts no run reaches, one for each stop. -/
theorem witness_UnspecifiedFieldsStop :
    (cpWith { awaiting with slot := none, retxp := true }).dev 1 = some { awaiting with slot := none, retxp := true } ∧
    cp.par.role = .cp ∧ pd.par.role = .pd ∧ { pdBusy with cur := none }.pdstate = .processingCommand ∧
    cp.key 1 = some [0x30, 0x31, 0x32, 0x33] ∧
    (cpWith { polling with sc := { Sc.init with state := .challengeSent } }).dev 1 =
      some { polling with sc := { Sc.init with state := .challengeSent } } ∧
    (cpWith { polling with sc := { Sc.init with state := .challengeReceived } }).dev 1 =
      some { polling with sc := { Sc.init with state := .challengeReceived } } ∧
    (cpWith { polling with sc := { Sc.init with state := .established } }).dev 1 =
      some { polling with sc := { Sc.init with state := .established } } ∧
    (List.replicate 8 (0 : Byte)).length = t0.chalLen + t0.cryptoLen ∧ t0.macLen ≤ ([0, 0] : Bytes).length := by
  decide +kernel

/-- A CP with one device that waits for a reply meets the invariant, as does a PD that processes a command. -/
theorem awaiting_inv : (cpWith awaiting).Inv := by
  refine ⟨fun i d h => ?_, ?_, fun _ => rfl, fun h => by cases h⟩
  · have hd : i = 1 ∧ d = awaiting := by
      have h' : ∀ b : DevId, b ≠ 1 → (cpWith awaiting).dev b = none := by decide +kernel
      by_cases e : i = 1
      · subst e
        exact ⟨rfl, (Option.some.inj h).symm⟩
      · rw [h' i e] at h
        cases h
    obtain ⟨rfl, rfl⟩ := hd
    simp [DeviceInv, ScInvCp, awaiting, polling, offline, Device.create, Sc.init, Pending, verdict, cpWith, cp,
      State.resetWith, State.setDev, t0, Config.straps]
  · simp [PdcInv, ScInvPd, cpWith, cp, State.resetWith, State.setDev, Pdc.init, Sc.init, Pending, verdict]

theorem witness_EveryOperationReturnsAResult : (cpWith awaiting).Inv := awaiting_inv

theorem witness_StepKeepsTheInvariant :
    (cpWith awaiting).Inv ∧ ∃ t, step (cpWith awaiting) = .next t := ⟨awaiting_inv, _, rfl⟩

theorem witness_StateMachineOperationsKeepCoherence :
    paramsOk (cpWith offline).par = true ∧ isUnitOp (.devStart 1) = false ∧
    (∀ a d, (cpWith offline).dev a = some d → DeviceCoherent (cpWith offline).par d) ∧
    ∃ t, exec (.devStart 1) (cpWith offline) = .next t := by
  refine ⟨by decide +kernel, rfl, fun i d h => ?_, _, rfl⟩
  have h' : ∀ b : DevId, b ≠ 1 → (cpWith offline).dev b = none := by decide +kernel
  by_cases e : i = 1
  · subst e
    cases (Option.some.inj h).symm
    simp [DeviceCoherent, ScInvCp, offline, Device.create, Sc.init]
  · rw [h' i e] at h
    cases h

theorem witness_BusyPdOnlyAccumulates :
    (pdWith pdBusy).par.role = .pd ∧ (pdWith pdBusy).pdc.pdstate = .processingCommand ∧ isUnitOp (.pdRx [0x01]) = false ∧
    Instr.pdRx [0x01] ≠ .reset ∧ (∀ c p, Instr.pdRx [0x01] ≠ .pdReply c p) ∧
    ∃ t, exec (.pdRx [0x01]) (pdWith pdBusy) = .next t := by
  obtain ⟨t, h, -⟩ := next_of_answer (o := exec (.pdRx [0x01]) (pdWith pdBusy)) (r := Result.ok) (by decide +kernel)
  exact ⟨rfl, rfl, rfl, by simp, by simp, t, h⟩

end Sys2Proof.Machine.Test
end

section
/-! Proofs of the family `00_scope.md`: isolation of the device contexts (O50), what no instruction writes (O52), refusals
(O53) and the step (O4). All but the last are cases of `exec_ends`, and the commutation of O50 is `exec_local`. -/

namespace Sys2Proof.Machine

/-! ### Grafts -/

theorem State.graft_self (s : State) (a : DevId) : s.graft a (s.dev a) (s.drawn a) = s := by
  rw [State.graft, s.setDev_self rfl, State.setDrawn_self]

theorem State.graft_comm (s : State) {a b : DevId} (h : a ≠ b) (x y : Option Device) (m n : Nat) :
    (s.graft a x m).graft b y n = (s.graft b y n).graft a x m :=
  calc ((s.setDev a x).setDrawn a m |>.setDev b y).setDrawn b n
    _ = (((s.setDev a x).setDev b y).setDrawn a m).setDrawn b n := by rw [State.setDrawn_setDev]
    _ = (((s.setDev b y).setDev a x).setDrawn b n).setDrawn a m := by
      rw [State.setDev_comm s h, State.setDrawn_comm _ h]
    _ = ((s.setDev b y).setDrawn b n |>.setDev a x).setDrawn a m := by rw [State.setDrawn_setDev]

/-! ### What one instruction changes -/

/-- RESET touches no single device (`touched` speaks of the other instructions). -/
theorem ne_reset_of_touched {s : State} {i : Instr} {a : DevId} (h : touched s i = some a) : i ≠ .reset := by
  rintro rfl
  cases h

theorem Shape.dev_of_not_touched {i : Instr} {s t : State} (h : Shape i s t) {b : DevId} (hb : touched s i ≠ some b) :
    t.dev b = s.dev b := by
  cases h with
  | pure r h => rw [h, State.dev_with_result]
  | device hr a ha d m n r hm hn h =>
    have hne : b ≠ a := fun e => hb (e ▸ ha)
    rw [h]
    exact State.dev_setDev_ne s d hne
  | pd hr p n r hn h =>
    rw [h]
    rfl

/-- On a CP an instruction on device `a`, MUX_TICK apart, writes the context and the draw count of `a` and the record. -/
theorem exec_graft {i : Instr} {s t : State} {a : DevId} (hr : s.par.role = .cp) (hm : ∀ now, i ≠ .muxTick now)
    (ha : touched s i = some a) (h : exec i s = .next t) : ∃ x n r, t = { s.graft a x n with result := r } := by
  have unwritten : ∀ r, ∃ x n r', { s with result := r } = { s.graft a x n with result := r' } :=
    fun r => ⟨s.dev a, s.drawn a, r, by rw [State.graft_self]⟩
  obtain ⟨x, rfl⟩ | ⟨hs, -⟩ := exec_ends i s (ne_reset_of_touched ha) t h
  · exact unwritten _
  · cases hs with
    | pure r ht => exact ht ▸ unwritten r
    | device _ a' ha' d m n r hmux _ ht =>
      obtain rfl : a' = a := Option.some.inj (ha'.symm.trans ha)
      exact ⟨d, n, r, by rw [ht, hmux hm]; rfl⟩
    | pd hpd _ _ _ _ _ => rw [hr] at hpd; cases hpd

/-- After an instruction on device `a`, one on another device answers what it answers without it, and what the first
wrote stays. -/
theorem exec_after_graft {j : Instr} {s u : State} {a b : DevId} (hr : s.par.role = .cp)
    (hm : ∀ now, j ≠ .muxTick now) (hb : touched s j = some b) (hab : b ≠ a) (h : exec j s = .next u)
    (x : Option Device) (n : Nat) (r : Option Result) :
    exec j { s.graft a x n with result := r } = .next (u.graft a x n) := by
  rw [exec_local hr hm hb hab x n r, h]
  rfl

/-- Two instructions on different devices of a CP commute but for the record (R66). -/
theorem exec_comm {i j : Instr} {s t u : State} {a b : DevId} (hr : s.par.role = .cp) (hi : ∀ now, i ≠ .muxTick now)
    (hj : ∀ now, j ≠ .muxTick now) (ha : touched s i = some a) (hb : touched s j = some b) (hab : a ≠ b)
    (ht : exec i s = .next t) (hu : exec j s = .next u) :
    ∃ v : State, exec j t = .next { v with result := u.result } ∧ exec i u = .next { v with result := t.result } := by
  obtain ⟨x, m, r, rfl⟩ := exec_graft hr hi ha ht
  obtain ⟨y, n, q, rfl⟩ := exec_graft hr hj hb hu
  refine ⟨(s.graft b y n).graft a x m, ?_, ?_⟩
  · exact exec_after_graft hr hj hb hab.symm hu x m r
  · rw [← s.graft_comm hab]
    exact exec_after_graft hr hi ha hab ht y n q

/-- Settles O50: the frame by the shapes of `exec_ends`, the commutation by locality (`exec_local`). -/
theorem atMostOneContextChanges : Obligations.AtMostOneContextChanges := by
  refine ⟨fun i s t hi h b hb => ?_, fun i j s t u a b hr hi hj ha hb hab ht hu => exec_comm hr hi hj ha hb hab ht hu⟩
  obtain ⟨x, rfl⟩ | ⟨hs, -⟩ := exec_ends i s hi t h
  · exact s.refuse_dev x b
  · exact hs.dev_of_not_touched hb

/-! ### What no instruction writes -/

/-- A write that does not lower one device's count lowers none. -/
theorem State.drawn_le_setDrawn (s : State) {a : DevId} {n : Nat} (h : s.drawn a ≤ n) (b : DevId) :
    s.drawn b ≤ (s.setDrawn a n).drawn b := by
  by_cases e : b = a
  · subst e
    rwa [State.drawn_setDrawn_same]
  · rw [State.drawn_setDrawn_ne s n e]

/-- The host's own fields are left as they are and no draw is taken back (log entries 1, 3, 4 and 6). -/
structure State.HostFieldsKept (s t : State) : Prop where
  straps   : t.straps = s.straps
  keystore : t.keystore = s.keystore
  inbox    : t.inbox = s.inbox
  drawn    : ∀ a, s.drawn a ≤ t.drawn a

theorem Shape.par_eq {i : Instr} {s t : State} (h : Shape i s t) : t.par = s.par := by
  cases h with
  | pure r h => rw [h]
  | device hr a ha d m n r hm hn h => rw [h]; rfl
  | pd hr p n r hn h => rw [h]; rfl

theorem Shape.hostFieldsKept {i : Instr} {s t : State} (h : Shape i s t) : s.HostFieldsKept t := by
  cases h with
  | pure r h =>
    subst h
    exact ⟨rfl, rfl, rfl, fun _ => Nat.le_refl _⟩
  | device hr a ha d m n r hm hn h =>
    subst h
    exact ⟨rfl, rfl, rfl, (s.setDev a d).drawn_le_setDrawn hn⟩
  | pd hr p n r hn h =>
    subst h
    exact ⟨rfl, rfl, rfl, s.drawn_le_setDrawn hn⟩

theorem exec_par {i : Instr} {s t : State} (hi : i ≠ .reset) (h : exec i s = .next t) : t.par = s.par := by
  obtain ⟨x, rfl⟩ | ⟨hs, -⟩ := exec_ends i s hi t h
  · exact s.refuse_par x
  · exact hs.par_eq

theorem execReset_hostFieldsKept {s t : State} (h : execReset s = .next t) : s.HostFieldsKept t := by
  cases h
  exact ⟨rfl, rfl, rfl, fun _ => Nat.le_refl _⟩

theorem exec_hostFieldsKept {i : Instr} {s t : State} (h : exec i s = .next t) : s.HostFieldsKept t := by
  by_cases hi : i = .reset
  · subst hi
    exact execReset_hostFieldsKept h
  · obtain ⟨x, rfl⟩ | ⟨hs, -⟩ := exec_ends i s hi t h
    · exact ⟨rfl, rfl, rfl, fun _ => Nat.le_refl _⟩
    · exact hs.hostFieldsKept

/-- Settles O52, by the shapes of `exec_ends`; RESET by its definition. -/
theorem parametersAndKeysAreFixed : Obligations.ParametersAndKeysAreFixed := by
  intro i s t h
  obtain ⟨hstraps, hkeys, hinbox, hdrawn⟩ := exec_hostFieldsKept h
  exact ⟨fun hi => exec_par hi h, hstraps, hkeys, hinbox, hdrawn⟩

/-! ### Refusals -/

/-- RESET is never refused (R290). -/
theorem execReset_status {s t : State} {r : Result} (h : execReset s = .next t) (hr : t.result = some r) :
    r.status = .ok := by
  cases h
  cases hr
  rfl

/-- An instruction whose record is a refusal changed nothing but the record (R13, R252). -/
theorem exec_eq_refuse {i : Instr} {s t : State} {r : Result} {x : RefusalCode} (h : exec i s = .next t)
    (hr : t.result = some r) (hx : r.status = .refused x) : t = s.refuse x := by
  by_cases hi : i = .reset
  · subst hi
    rw [execReset_status h hr] at hx
    cases hx
  · obtain ⟨y, rfl⟩ | ⟨-, q, hq, hne⟩ := exec_ends i s hi t h
    · cases hr
      cases hx
      rfl
    · obtain rfl : q = r := Option.some.inj (hq.symm.trans hr)
      exact absurd hx (hne x)

/-- Settles O53: under a refusal's record `exec_ends` leaves only its first case. -/
theorem refusalsChangeNothing : Obligations.RefusalsChangeNothing :=
  fun _ _ _ _ _ h hr hx => exec_eq_refuse h hr hx

/-! ### The step -/

section
variable {s : State} {q : Request} {rest : List Request}

theorem step_of_inbox_nil (h : s.inbox = []) : step s = .next s := by
  unfold step
  rw [h]

theorem step_of_decode_error {e : DecodeError} (h : s.inbox = q :: rest) (hq : decode q = .error e) :
    step s = .refused (.badRequest e) := by
  unfold step
  rw [h]
  dsimp only
  rw [hq]

theorem step_of_decode_ok {i : Instr} (h : s.inbox = q :: rest) (hq : decode q = .ok i) :
    step s = if s.configOk (s.parFor i) then exec i { s with inbox := rest } else .refused .invalidConfiguration := by
  unfold step
  rw [h]
  dsimp only
  rw [hq]

end

theorem State.parFor_of_ne_reset (s : State) {i : Instr} (hi : i ≠ .reset) : s.parFor i = s.par := by
  cases i with
  | reset => exact absurd rfl hi
  | _ => rfl

theorem State.key_mem_keystore (s : State) (a : DevId) : s.key a ∈ s.keystore.toList :=
  Vector.mem_toList_iff.mpr (Vector.getElem_mem a.isLt)

/-- Under a configuration within R9's constraints every key has `KEY_LEN` bytes. -/
theorem State.key_length_of_configOk {s : State} {par : Params} {a : DevId} {k : Bytes} (hc : s.configOk par = true)
    (hk : s.key a = some k) : k.length = par.keyLen := by
  have hkeys : keysOk par s.keystore = true := (Bool.and_eq_true_iff.mp hc).2
  have hkey := List.all_eq_true.mp hkeys _ (s.key_mem_keystore a)
  rw [hk] at hkey
  simpa using hkey

/-- Settles O4, an equation of `step` per case of its definition. -/
theorem stepRunsTheDecodedInstruction : Obligations.StepRunsTheDecodedInstruction := by
  intro s
  refine ⟨step_of_inbox_nil, fun q rest i h hq hc => ?_, fun q rest e h hq => step_of_decode_error h hq,
    fun q rest i h hq hc => ?_, ⟨rfl, fun i hi => s.parFor_of_ne_reset hi⟩, fun a k par hk hlen => ?_⟩
  · rw [step_of_decode_ok h hq, if_pos hc]
  · rw [step_of_decode_ok h hq, if_neg (by simp [hc])]
  · exact Bool.eq_false_iff.mpr fun hc => hlen (State.key_length_of_configOk hc hk)

end Sys2Proof.Machine
end

section
/-! Proofs of the family `10_state.md`: each role's own half of the state (O51), the machine's invariant (O57), the
coherence of R33 (O59) and the model's stops (O55). What an instruction does to the contexts is said once, in
`exec_keepsContexts`; O57 and O59 are its instances for the two forms of a good context. -/

namespace Sys2Proof.Machine

/-! ### Each role writes its own half -/

theorem Shape.pdc_of_cp {i : Instr} {s t : State} (h : Shape i s t) (hr : s.par.role = .cp) : t.pdc = s.pdc := by
  cases h with
  | pure r h => rw [h]
  | device hr' a ha d m n r hm hn h => rw [h]; rfl
  | pd hr' p n r hn h => rw [hr] at hr'; cases hr'

theorem Shape.dc_mux_of_pd {i : Instr} {s t : State} (h : Shape i s t) (hr : s.par.role = .pd) :
    t.dc = s.dc ∧ t.mux = s.mux := by
  cases h with
  | pure r h => rw [h]; exact ⟨rfl, rfl⟩
  | device hr' a ha d m n r hm hn h => rw [hr] at hr'; cases hr'
  | pd hr' p n r hn h => rw [h]; exact ⟨rfl, rfl⟩

/-- Settles O51, by the shapes of `exec_ends`. -/
theorem rolesTouchOnlyTheirOwnHalf : Obligations.RolesTouchOnlyTheirOwnHalf := by
  intro i s t hi h
  obtain ⟨x, rfl⟩ | ⟨hs, -⟩ := exec_ends i s hi t h
  · exact ⟨fun _ => rfl, fun _ => ⟨rfl, rfl⟩⟩
  · exact ⟨hs.pdc_of_cp, hs.dc_mux_of_pd⟩

/-! ### What an instruction does to the contexts

A property of device contexts and one of the PD context pass through an instruction when the procedures it runs keep
them. -/

/-- A procedure that runs to its end, or raises an error, leaves a context with `P`. A refusal is undone and a fault has
no next state (R13). -/
def Done.Leaves {σ : Type} (P : σ → Prop) (x : Done σ) : Prop :=
  (∀ r, x.stop ≠ some (.refuse r)) → (∀ f, x.stop ≠ some (.fault f)) → P x.work.ctx

theorem Done.Keeps.leaves {σ : Type} {P : σ → Prop} {x : Done σ} (h : x.Keeps P) : x.Leaves P :=
  fun hr _ => h.ends hr

/-- A next state is the refusal of the whole operation, or its writes under a new record, after no stop or an error. -/
theorem finish_next_writes {s0 s1 t : State} {stop : Option Stop} {fs : List Bytes} {ns : List Note} {ov ev : Value}
    (h : finish s0 s1 stop fs ns ov ev = .next t) :
    (∃ r, t = s0.refuse r) ∨
    ((∀ r, stop ≠ some (.refuse r)) ∧ (∀ f, stop ≠ some (.fault f)) ∧ ∃ r, t = { s1 with result := r }) := by
  obtain ⟨r, -, ht⟩ | ⟨r, -, -, -, ht, hstop⟩ := finish_next h
  · exact .inl ⟨r, ht⟩
  · refine .inr ⟨hstop, fun f hf => ?_, _, ht⟩
    subst hf
    cases h

/-- Every registered device's context has `P`, and the PD context has `Q`. -/
structure State.Contexts (P : Device → Prop) (Q : Pdc → Prop) (s : State) : Prop where
  devices : ∀ a d, s.dev a = some d → P d
  pdc     : Q s.pdc

/-- Every next state has the contexts `P` and `Q`. -/
def NextContexts (P : Device → Prop) (Q : Pdc → Prop) (o : Host.Outcome State Fault Refusal) : Prop :=
  ∀ t, o = .next t → t.Contexts P Q

section
variable {P : Device → Prop} {Q : Pdc → Prop} {s : State}

theorem NextContexts.next {t : State} (h : t.Contexts P Q) : NextContexts P Q (.next t) := by
  rintro _ ⟨⟩
  exact h

theorem State.Contexts.with_result (h : s.Contexts P Q) (r : Option Result) :
    ({ s with result := r } : State).Contexts P Q := ⟨h.devices, h.pdc⟩

theorem NextContexts.refuse (h : s.Contexts P Q) (r : RefusalCode) : NextContexts P Q (.next (s.refuse r)) :=
  .next (h.with_result _)

theorem NextContexts.answer (h : s.Contexts P Q) (st : Status) (v : Value) :
    NextContexts P Q (.next (s.answer st v)) := .next (h.with_result _)

theorem State.Contexts.setDev (h : s.Contexts P Q) {a : DevId} {x : Option Device} (hx : ∀ d, x = some d → P d) :
    (s.setDev a x).Contexts P Q := by
  refine ⟨fun b d hb => ?_, h.pdc⟩
  rw [State.dev_setDev] at hb
  split at hb
  · exact hx d hb
  · exact h.devices b d hb

theorem State.Contexts.setDev_some (h : s.Contexts P Q) {a : DevId} {d : Device} (hd : P d) :
    (s.setDev a (some d)).Contexts P Q := h.setDev (by rintro _ ⟨⟩; exact hd)

theorem State.Contexts.setPdc (h : s.Contexts P Q) {p : Pdc} (hp : Q p) :
    ({ s with pdc := p } : State).Contexts P Q := ⟨h.devices, hp⟩

theorem State.Contexts.setDrawn (h : s.Contexts P Q) (a : DevId) (n : Nat) : (s.setDrawn a n).Contexts P Q :=
  ⟨h.devices, h.pdc⟩

theorem State.Contexts.with_mux (h : s.Contexts P Q) (m : Mux) : ({ s with mux := m } : State).Contexts P Q :=
  ⟨h.devices, h.pdc⟩

theorem NextContexts.finish (h : s.Contexts P Q) {s1 : State} {stop : Option Stop} (fs : List Bytes) (ns : List Note)
    (ov ev : Value)
    (h1 : (∀ r, stop ≠ some (.refuse r)) → (∀ f, stop ≠ some (.fault f)) → s1.Contexts P Q) :
    NextContexts P Q (finish s s1 stop fs ns ov ev) := by
  intro t ht
  obtain ⟨r, rfl⟩ | ⟨hr, hf, r, rfl⟩ := finish_next_writes ht
  · exact h.with_result _
  · exact (h1 hr hf).with_result r

theorem NextContexts.finishDev (h : s.Contexts P Q) (i : DevId) {r : Done Device} (hr : r.Leaves P) :
    NextContexts P Q (finishDev s i r) :=
  .finish h _ _ _ _ fun h1 h2 => (h.setDev_some (hr h1 h2)).setDrawn _ _

theorem NextContexts.onDevice (h : s.Contexts P Q) (a : Nat) {g : Env → Work Device → Done Device}
    (hg : ∀ e w, e.par = s.par → P w.ctx → (g e w).Leaves P) : NextContexts P Q (onDevice s a g) := by
  unfold Machine.onDevice
  split
  · exact .refuse h _
  · rename_i i d hd
    exact .finishDev h i (hg _ _ rfl (h.devices i d (cpDevice_ok hd).2.2))

theorem NextContexts.muxRoute (h : s.Contexts P Q) (a : Nat) {g : Env → Work Device → Done Device}
    (hg : ∀ e w, e.par = s.par → P w.ctx → (g e w).Leaves P) : NextContexts P Q (muxRoute s a g) := by
  unfold Machine.muxRoute
  split
  · exact .refuse h _
  · split
    · exact .answer h _ _
    · exact .finishDev h _ (hg _ _ rfl (h.devices _ _ ‹_›))

theorem NextContexts.serve (h : s.Contexts P Q) {a : DevId} {d : Device} (hd : P d) (q : DevId) (now : Time)
    (hg : ∀ e w, e.par = s.par → P w.ctx → (devTick e now w).Leaves P) : NextContexts P Q (serve s a d q now) := by
  have hr := hg (s.cpEnv a) (Work.start d (s.drawn a)) rfl hd
  exact .finish h _ _ _ _ fun h1 h2 => ((h.setDev_some (hr h1 h2)).setDrawn _ _).with_mux _

theorem NextContexts.muxTick (h : s.Contexts P Q) (now : Time)
    (hg : ∀ e w, e.par = s.par → P w.ctx → (devTick e now w).Leaves P) : NextContexts P Q (execMuxTick now s) := by
  unfold execMuxTick
  split
  · exact .refuse h _
  · split
    · unfold muxBusy
      split
      · split
        · exact .serve h (h.devices _ _ ‹_›) _ _ hg
        · exact .answer h _ _
      · exact .answer h _ _
    · unfold muxScan
      split
      · split
        · split
          · exact .serve h (h.devices _ _ ‹_›) _ _ hg
          · exact .answer h _ _
        · exact .answer h _ _
      · exact .answer h _ _

theorem NextContexts.onPd (h : s.Contexts P Q) {g : Env → Work Pdc → Done Pdc}
    (hg : ∀ e w, e.par = s.par → Q w.ctx → (g e w).Leaves Q) : NextContexts P Q (onPd s g) := by
  unfold Machine.onPd
  split
  · exact .refuse h _
  · have hr := hg s.pdEnv (Work.start s.pdc (s.drawn s.par.myAddr)) rfl h.pdc
    exact .finish h _ _ _ _ fun h1 h2 => (h.setPdc (hr h1 h2)).setDrawn _ _

theorem NextContexts.onCpChannel {α : Type} (h : s.Contexts P Q) (a : Nat) (f : α → Value) {g : Env → Sc → ScDone α}
    (hg : ∀ e d, P d → P { d with sc := (g e d.sc).sc }) : NextContexts P Q (onCpChannel s a f g) := by
  unfold Machine.onCpChannel
  split
  · exact .refuse h _
  · rename_i i d hd
    have hPd := hg (s.cpEnv i) d (h.devices i d (cpDevice_ok hd).2.2)
    exact .finish h _ _ _ _ fun _ _ => (h.setDev_some hPd).setDrawn _ _

theorem NextContexts.onPdChannel {α : Type} (h : s.Contexts P Q) (f : α → Value) {g : Env → Sc → ScDone α}
    (hg : ∀ e p, Q p → Q { p with sc := (g e p.sc).sc }) : NextContexts P Q (onPdChannel s f g) := by
  unfold Machine.onPdChannel
  split
  · exact .refuse h _
  · exact .finish h _ _ _ _ fun _ _ => (h.setPdc (hg s.pdEnv s.pdc h.pdc)).setDrawn _ _

theorem NextContexts.onChannel {α : Type} (h : s.Contexts P Q) (a : Nat) (f : α → Value) {g : Env → Sc → ScDone α}
    (hcp : ∀ e d, P d → P { d with sc := (g e d.sc).sc }) (hpd : ∀ e p, Q p → Q { p with sc := (g e p.sc).sc }) :
    NextContexts P Q (onChannel s a f g) := by
  unfold Machine.onChannel
  split
  · exact .onCpChannel h a f hcp
  · exact .onPdChannel h f hpd

end

/-- The state machine's own operations, those of R298 apart, keep `P` of a device context and `Q` of the PD context. -/
structure OperationsKeep (par : Params) (P : Device → Prop) (Q : Pdc → Prop) : Prop where
  create  : ∀ u, P (Device.create u)
  flush   : ∀ d, P d → P { d with rxbuf := [] }
  start   : ∀ e w, e.par = par → P w.ctx → (devStart e w).Leaves P
  submit  : ∀ c p d d', P d → devSubmit par c p d = .ok d' → P d'
  scStart : ∀ e w, e.par = par → P w.ctx → (devScStart e w).Leaves P
  tick    : ∀ now e w, e.par = par → P w.ctx → (devTick e now w).Leaves P
  rx      : ∀ c e w, e.par = par → P w.ctx → (devRx e c w).Leaves P
  packet  : ∀ m e w, e.par = par → P w.ctx → (cpPacket e m w).Leaves P
  pdFlush : ∀ p, Q p → Q { p with rxbuf := [] }
  pdRx    : ∀ c e w, e.par = par → Q w.ctx → (pdRx e c w).Leaves Q
  command : ∀ m e w, e.par = par → Q w.ctx → (acceptCommand e m w).Leaves Q
  reply   : ∀ t p e w, e.par = par → Q w.ctx → (pdReply e t p w).Leaves Q

section
variable {P : Device → Prop} {Q : Pdc → Prop} {s : State}

theorem OperationsKeep.deliver (hk : OperationsKeep s.par P Q) (h : s.Contexts P Q) (a : Nat) (b : Bytes) :
    NextContexts P Q (deliver a b s) := by
  unfold Machine.deliver
  split
  · exact .muxRoute h a (hk.rx b)
  · exact .onPd h (hk.pdRx b)

theorem OperationsKeep.deliverMessage (hk : OperationsKeep s.par P Q) (h : s.Contexts P Q) (a : Nat) (t : Byte)
    (m : Message) : NextContexts P Q (deliverMessage a t m s) := by
  unfold Machine.deliverMessage
  split
  · exact .muxRoute h a (hk.packet _)
  · exact .onPd h (hk.command _)

theorem OperationsKeep.wfFlush (hk : OperationsKeep s.par P Q) (h : s.Contexts P Q) (a : Nat) :
    NextContexts P Q (execWfFlush a s) := by
  unfold execWfFlush
  split
  · exact .answer (h.setPdc (hk.pdFlush _ h.pdc)) _ _
  · split
    · exact .refuse h _
    · exact .answer (h.setDev_some (hk.flush _ (h.devices _ _ (cpDevice_ok ‹_›).2.2))) _ _

theorem OperationsKeep.devRegister (hk : OperationsKeep s.par P Q) (h : s.Contexts P Q) (a u : Nat) :
    NextContexts P Q (execDevRegister a u s) := by
  unfold execDevRegister
  split
  · exact .refuse h _
  split
  · exact .refuse h _
  split
  · exact .refuse h _
  · exact .answer (h.setDev_some (hk.create _)) _ _

theorem NextContexts.devDeregister (h : s.Contexts P Q) (a : Nat) : NextContexts P Q (execDevDeregister a s) := by
  unfold execDevDeregister
  split
  · exact .refuse h _
  · exact .answer (h.setDev (by simp)) _ _

theorem OperationsKeep.devSubmit (hk : OperationsKeep s.par P Q) (h : s.Contexts P Q) (a t : Nat) (p : Bytes) :
    NextContexts P Q (execDevSubmit a t p s) := by
  unfold execDevSubmit
  split
  · exact .refuse h _
  split
  · exact .refuse h _
  · exact .refuse h _
  split
  · exact .refuse h _
  · rename_i c d _ hd _ d' hs
    exact .answer (h.setDev_some (hk.submit c p d d' (h.devices _ _ hd) hs)) _ _

theorem OperationsKeep.pdReply (hk : OperationsKeep s.par P Q) (h : s.Contexts P Q) (t : Nat) (p : Bytes) :
    NextContexts P Q (execPdReply t p s) := by
  refine .onPd h fun e w he hw => ?_
  split
  · exact (Work.refuse_keeps w _).leaves
  · exact hk.reply _ p e w he hw

theorem NextContexts.wfEncode (h : s.Contexts P Q) (p : RawPacket) : NextContexts P Q (execWfEncode p s) := by
  unfold execWfEncode
  split
  · exact .refuse h _
  split
  · exact .refuse h _
  · exact .answer h _ _

theorem NextContexts.wfDecode (h : s.Contexts P Q) (b : Bytes) : NextContexts P Q (execWfDecode b s) := by
  unfold execWfDecode
  split
  · exact .answer h _ _
  · exact .answer h _ _

theorem NextContexts.regLookupCmd (h : s.Contexts P Q) (t : Nat) : NextContexts P Q (execRegLookupCmd t s) := by
  unfold execRegLookupCmd
  split
  · exact .refuse h _
  · exact .answer h _ _

theorem NextContexts.regLookupRpl (h : s.Contexts P Q) (t : Nat) : NextContexts P Q (execRegLookupRpl t s) := by
  unfold execRegLookupRpl
  split
  · exact .refuse h _
  · exact .answer h _ _

/-- The state machine's own operations, RESET apart, keep what their procedures keep (R298). -/
theorem exec_keepsContexts (hk : OperationsKeep s.par P Q) (h : s.Contexts P Q) {i : Instr} (hi : i ≠ .reset)
    (hu : isUnitOp i = false) : NextContexts P Q (exec i s) := by
  cases i with
  | wfFeed _ _ | scReset _ | scCpBegin _ | scCpVerify _ _ | scCpConfirm _ | scCpFinish _ | scPdChallenge _
  | scPdVerify _ | scWrap _ _ | scUnwrap _ _ => cases hu
  | reset => exact absurd rfl hi
  | wfEncode p => exact .wfEncode h p
  | wfDecode b => exact .wfDecode h b
  | wfFlush a => exact hk.wfFlush h a
  | regLookupCmd t => exact .regLookupCmd h t
  | regLookupRpl t => exact .regLookupRpl h t
  | devRegister a u => exact hk.devRegister h a u
  | devDeregister a => exact .devDeregister h a
  | devStart a => exact .onDevice h a hk.start
  | devSubmit a t p => exact hk.devSubmit h a t p
  | devScStart a => exact .onDevice h a hk.scStart
  | devTick a now => exact .onDevice h a (hk.tick now)
  | devRx a c => exact .onDevice h a (hk.rx c)
  | pdRx c => exact .onPd h (hk.pdRx c)
  | pdReply t p => exact hk.pdReply h t p
  | muxTick now => exact .muxTick h now (hk.tick now)
  | muxRx a c => exact .muxRoute h a (hk.rx c)
  | frameSk a f k => exact hk.deliver h a _
  | frameSc a f k => exact hk.deliver h a _
  | frameLk a f k => exact hk.deliver h a _
  | frameLc a f k => exact hk.deliver h a _
  | tPoll a m => exact hk.deliverMessage h a _ m
  | tChlng a m => exact hk.deliverMessage h a _ m
  | tCcrypt a m => exact hk.deliverMessage h a _ m
  | tScrypt a m => exact hk.deliverMessage h a _ m
  | tScdone a m => exact hk.deliverMessage h a _ m
  | otherOp c => exact .refuse h _

end

/-! ### The machine's invariant -/

theorem operationsKeep_inv {par : Params} (hok : paramsOk par = true) :
    OperationsKeep par (DeviceInv par) (PdcInv par) := by
  obtain ⟨-, hretry, -, hpollChlng, hpollScrypt, -⟩ := paramsOk_facts hok
  exact
    { create  := deviceInv_create par
      flush   := fun d h => deviceInv_rxbuf h rfl
      start   := by rintro e w rfl h; exact (devStart_inv hretry h).leaves
      submit  := fun c p d d' h hs => devSubmit_inv h hs
      scStart := by rintro e w rfl h; exact (devScStart_inv h).leaves
      tick    := by rintro now e w rfl h; exact (devTick_inv ⟨hpollChlng, hpollScrypt⟩ h).leaves
      rx      := by rintro c e w rfl h; exact (devRx_inv h).leaves
      packet  := by rintro m e w rfl h; exact (cpPacket_inv h).leaves
      pdFlush := fun p h => pdcInv_rxbuf h rfl
      pdRx    := by rintro c e w rfl h; exact (pdRx_inv h).leaves
      command := by rintro m e w rfl h; exact (acceptCommand_inv h).leaves
      reply   := by rintro t p e w rfl h; exact (pdReply_inv h).leaves }

theorem DeviceInv.pending {par : Params} {d : Device} (h : DeviceInv par d) : Pending par d.rxbuf := by
  obtain ⟨-, -, -, -, -, -, -, -, -, -, hrx⟩ := h
  exact hrx

section
variable {s : State} (h : s.Contexts (DeviceInv s.par) (PdcInv s.par))
include h

theorem wfFeed_inv (a : Nat) (c : Bytes) :
    NextContexts (DeviceInv s.par) (PdcInv s.par) (execWfFeed a c s) := by
  unfold execWfFeed
  split
  · exact .answer (h.setPdc (pdcInv_rxbuf h.pdc (feed_pending _ _ _ h.pdc.2.2))) _ _
  · split
    · exact .refuse h _
    · rename_i i d hd
      have hinv := h.devices i d (cpDevice_ok hd).2.2
      exact .answer (h.setDev_some (deviceInv_rxbuf hinv (feed_pending _ _ _ hinv.pending))) _ _

/-- A channel operation of a CP whose procedure keeps the key material in step with the state. -/
theorem onCpChannel_inv {α : Type} (a : Nat) (f : α → Value) {g : Env → Sc → ScDone α}
    (hg : ∀ e sc, ScInvCp sc → ScInvCp (g e sc).sc) :
    NextContexts (DeviceInv s.par) (PdcInv s.par) (onCpChannel s a f g) :=
  .onCpChannel h a f fun e _ hd => deviceInv_sc hd (hg e _ hd.1)

theorem onPdChannel_inv {α : Type} (f : α → Value) {g : Env → Sc → ScDone α}
    (hg : ∀ e sc, ScInvPd sc → ScInvPd (g e sc).sc) :
    NextContexts (DeviceInv s.par) (PdcInv s.par) (onPdChannel s f g) :=
  .onPdChannel h f fun e _ hp => pdcInv_sc hp (hg e _ hp.1)

theorem onChannel_inv {α : Type} (a : Nat) (f : α → Value) {g : Env → Sc → ScDone α}
    (hcp : ∀ e sc, ScInvCp sc → ScInvCp (g e sc).sc) (hpd : ∀ e sc, ScInvPd sc → ScInvPd (g e sc).sc) :
    NextContexts (DeviceInv s.par) (PdcInv s.par) (onChannel s a f g) :=
  .onChannel h a f (fun e _ hd => deviceInv_sc hd (hcp e _ hd.1)) (fun e _ hp => pdcInv_sc hp (hpd e _ hp.1))

/-- The unit operations of R298 keep the invariant of every context. -/
theorem exec_unitOp_inv {i : Instr} (hu : isUnitOp i = true) :
    NextContexts (DeviceInv s.par) (PdcInv s.par) (exec i s) := by
  cases i with
  | wfFeed a c => exact wfFeed_inv h a c
  | scReset a => exact onChannel_inv h a _ (fun _ _ _ => scInvCp_init) (fun _ _ _ => scInvPd_init)
  | scCpBegin a =>
    show NextContexts _ _ (execScCpBegin a s)
    exact onCpChannel_inv h a _ fun _ _ hsc => (scCpBegin_keeps hsc).keeps
  | scCpVerify a p =>
    show NextContexts _ _ (execScCpVerify a p s)
    exact onCpChannel_inv h a _ fun _ _ hsc => (scCpVerify_keeps hsc).keeps
  | scCpConfirm a => exact onCpChannel_inv h a _ fun _ _ hsc => (scCpConfirm_keeps hsc).keeps
  | scCpFinish a => exact onCpChannel_inv h a _ fun _ _ hsc => (scCpFinish_keeps hsc).keeps
  | scPdChallenge p =>
    show NextContexts _ _ (execScPdChallenge p s)
    exact onPdChannel_inv h _ fun _ _ hsc => (scPdChallenge_keeps hsc).keeps
  | scPdVerify p =>
    show NextContexts _ _ (execScPdVerify p s)
    exact onPdChannel_inv h _ fun _ _ hsc => (scPdVerify_keeps hsc).keeps
  | scWrap a p => exact onChannel_inv h a _ (fun _ _ hsc => hsc) (fun _ _ hsc => hsc)
  | scUnwrap a w =>
    exact onChannel_inv h a _ (fun _ _ hsc => (scUnwrap_keeps hsc hsc.hasKeys scInvCp_broken).keeps)
      (fun _ _ hsc => (scUnwrap_keeps hsc hsc.hasKeys scInvPd_broken).keeps)
  | _ => cases hu

end

theorem State.Inv.contexts {s : State} (h : s.Inv) : s.Contexts (DeviceInv s.par) (PdcInv s.par) := ⟨h.1, h.2.1⟩

/-- Nothing is registered at reset. -/
theorem State.resetWith_dev (p : Params) (a : DevId) : (State.resetWith p).dev a = none := by
  simp [State.dev, State.resetWith]

theorem State.resetWith_inv (p : Params) : (State.resetWith p).Inv :=
  ⟨fun a d h => by simp [State.resetWith_dev] at h, pdcInv_init p, fun _ => rfl,
    fun _ => ⟨State.resetWith_dev p, rfl⟩⟩

/-- RESET leaves no device registered (R291). -/
theorem execReset_dev {s t : State} (h : execReset s = .next t) (a : DevId) : t.dev a = none := by
  cases h
  exact State.resetWith_dev s.straps a

/-- RESET leaves the registers of `resetWith` (R291), and the invariant speaks of no others. -/
theorem execReset_inv {s t : State} (h : execReset s = .next t) : t.Inv := by
  cases h
  exact State.resetWith_inv s.straps

/-- Every instruction keeps the invariant under parameters within R9's constraints. -/
theorem exec_inv {i : Instr} {s t : State} (hok : paramsOk (s.parFor i) = true) (hs : s.Inv)
    (h : exec i s = .next t) : t.Inv := by
  by_cases hi : i = .reset
  · subst hi
    exact execReset_inv h
  · rw [s.parFor_of_ne_reset hi] at hok
    have hctx : t.Contexts (DeviceInv s.par) (PdcInv s.par) := by
      cases hu : isUnitOp i with
      | true => exact exec_unitOp_inv hs.contexts hu t h
      | false => exact exec_keepsContexts (operationsKeep_inv hok) hs.contexts hi hu t h
    obtain ⟨hcp, hpd⟩ := rolesTouchOnlyTheirOwnHalf i s t hi h
    obtain ⟨-, -, hpdc, hdevs⟩ := hs
    unfold State.Inv
    rw [exec_par hi h]
    refine ⟨hctx.devices, hctx.pdc, fun hr => (hcp hr).trans (hpdc hr), fun hr => ?_⟩
    obtain ⟨hnone, hmux⟩ := hdevs hr
    obtain ⟨hdc, hm⟩ := hpd hr
    refine ⟨fun a => ?_, hm.trans hmux⟩
    rw [State.dev, hdc]
    exact hnone a

/-- What a step to a next state did: nothing, or the oldest presented instruction under a good configuration. -/
theorem step_next {s t : State} (h : step s = .next t) :
    t = s ∨ ∃ i rest, s.configOk (s.parFor i) = true ∧ exec i { s with inbox := rest } = .next t := by
  cases hb : s.inbox with
  | nil =>
    rw [step_of_inbox_nil hb] at h
    cases h
    exact .inl rfl
  | cons q rest =>
    cases hq : decode q with
    | error e => rw [step_of_decode_error hb hq] at h; cases h
    | ok i =>
      rw [step_of_decode_ok hb hq] at h
      split at h
      · exact .inr ⟨i, rest, ‹_›, h⟩
      · cases h

/-- Settles O57: the instruction a step performs keeps the invariant (`exec_inv`). -/
theorem stepKeepsTheInvariant : Obligations.StepKeepsTheInvariant := by
  intro s t hs h
  obtain rfl | ⟨i, rest, hok, hexec⟩ := step_next h
  · exact hs
  · have hpar : ({ s with inbox := rest } : State).parFor i = s.parFor i := by cases i <;> rfl
    refine exec_inv (s := { s with inbox := rest }) ?_ hs hexec
    rw [hpar]
    exact (configOk_iff.mp hok).1

/-! ### Coherent contexts, mode by mode

The clauses of `DeviceCoherent` speak of one `DSTATE` each. `CoherentMode` says the same as five cases, so that a
procedure is followed from the mode it begins in to the mode it leaves. -/

/-- What holds of a coherent context in every state but `Offline`. -/
structure Device.Running (par : Params) (d : Device) : Prop where
  retry   : d.retry < par.retryMax
  channel : ScInvCp d.sc
  queue   : ∀ c ∈ d.cmdq, c.type ≠ par.tChlng ∧ c.type ≠ par.tScrypt

/-- The modes of a coherent context (R33): in the handshake there is one without and one with a command in flight. -/
inductive CoherentMode (par : Params) (d : Device) : Prop where
  | offline (hd : d.dstate = .offline) (hslot : d.slot = none) (hretxp : d.retxp = false) (hq : d.cmdq = [])
      (hsc : d.sc = Sc.init) (hon : d.online = false) (hrx : d.rxbuf = []) (hdl : d.deadline = none)
  | polling (run : d.Running par) (hd : d.dstate = .polling) (hslot : d.slot = none) (hretxp : d.retxp = false)
      (hsc : d.sc.state = .idle ∨ d.sc.state = .established)
  | awaiting (run : d.Running par) (hd : d.dstate = .awaitingReply) (sl : Slot) (hslot : d.slot = some sl)
      (hdl : d.deadline.isSome = true) (hsc : d.sc.state = .idle ∨ d.sc.state = .established)
      (hord : sl.type ≠ par.tChlng ∧ sl.type ≠ par.tScrypt) (hsec : sl.sec = true → d.sc.state = .established)
  | paused (run : d.Running par) (hd : d.dstate = .secureHandshake) (hslot : d.slot = none) (hretxp : d.retxp = false)
      (hsc : d.sc.state = .idle ∨ d.sc.state = .broken ∨ d.sc.state = .challengeReceived)
  | handshake (run : d.Running par) (hd : d.dstate = .secureHandshake) (sl : Slot) (hslot : d.slot = some sl)
      (hsec : sl.sec = false) (hstage : (sl.type = par.tChlng ∧ d.sc.state = .challengeSent) ∨
        (sl.type = par.tScrypt ∧ d.sc.state = .challengeReceived))

theorem DeviceCoherent.mode {par : Params} {d : Device} (h : DeviceCoherent par d) : CoherentMode par d := by
  obtain ⟨hoff, hpoll, hawait, hord, hhs, hpause, hretxp, hretry, hsc, hsec, hq⟩ := h
  have noRetxp (hslot : d.slot = none) : d.retxp = false := by simpa [hslot] using hretxp
  cases hd : d.dstate with
  | offline =>
    obtain ⟨h1, h2, h3, h4, h5, h6, h7⟩ := hoff hd
    exact .offline hd h1 h2 h3 h4 h5 h6 h7
  | polling =>
    obtain ⟨h1, h2, h3⟩ := hpoll hd
    exact .polling ⟨hretry (by simp [hd]), hsc, hq⟩ hd h1 h2 h3
  | awaitingReply =>
    obtain ⟨h1, h2, h3⟩ := hawait hd
    obtain ⟨sl, hsl⟩ := Option.isSome_iff_exists.mp h1
    exact .awaiting ⟨hretry (by simp [hd]), hsc, hq⟩ hd sl hsl h2 h3 (hord hd sl hsl) (hsec sl hsl)
  | secureHandshake =>
    have run : d.Running par := ⟨hretry (by simp [hd]), hsc, hq⟩
    cases hslot : d.slot with
    | none => exact .paused run hd hslot (noRetxp hslot) (hpause hd hslot)
    | some sl =>
      obtain ⟨h1, h2⟩ := hhs hd sl hslot
      exact .handshake run hd sl hslot h1 h2

theorem CoherentMode.coherent {par : Params} {d : Device} (h : CoherentMode par d) : DeviceCoherent par d := by
  unfold DeviceCoherent
  cases h with
  | offline hd hslot hretxp hq hsc hon hrx hdl =>
    simp [hd, hslot, hretxp, hq, hsc, hon, hrx, hdl, scInvCp_init]
  | polling run hd hslot hretxp hsc => simpa [hd, hslot, hretxp, hsc, run.retry, run.channel] using run.queue
  | awaiting run hd sl hslot hdl hsc hord hsec =>
    simpa [hd, hslot, hdl, hsc, hord, run.retry, run.channel] using ⟨hsec, run.queue⟩
  | paused run hd hslot hretxp hsc => simpa [hd, hslot, hretxp, hsc, run.retry, run.channel] using run.queue
  | handshake run hd sl hslot hsec hstage =>
    simpa [hd, hslot, hsec, run.retry, run.channel] using ⟨hstage, run.queue⟩

/-! ### What a mode says of the slot and the channel -/

section
variable {par : Params} {d : Device} (h : CoherentMode par d)
include h

theorem CoherentMode.scInv : ScInvCp d.sc := by
  cases h with
  | offline _ _ _ _ hsc _ _ _ => exact hsc ▸ scInvCp_init
  | polling run => exact run.channel
  | awaiting run => exact run.channel
  | paused run => exact run.channel
  | handshake run => exact run.channel

theorem CoherentMode.running (ho : d.dstate ≠ .offline) : d.Running par := by
  cases h with
  | offline hd => exact absurd hd ho
  | polling run => exact run
  | awaiting run => exact run
  | paused run => exact run
  | handshake run => exact run

theorem CoherentMode.not_offline (hs : d.slot.isSome = true) : d.dstate ≠ .offline := by
  cases h with
  | offline _ hslot => simp [hslot] at hs
  | polling _ _ hslot => simp [hslot] at hs
  | awaiting _ hd => simp [hd]
  | paused _ _ hslot => simp [hslot] at hs
  | handshake _ hd => simp [hd]

/-- A secure command is in flight only on an established channel (R186). -/
theorem CoherentMode.established_of_sec {sl : Slot} (hs : d.slot = some sl) (hsec : sl.sec = true) :
    d.sc.state = .established := by
  obtain ⟨-, -, -, -, -, -, -, -, -, hest, -⟩ := h.coherent
  exact hest sl hs hsec

/-- An ordinary command is in flight in `AwaitingReply` only (R186, R187). -/
theorem CoherentMode.channel_of_ordinary {sl : Slot} (hs : d.slot = some sl) (h1 : sl.type ≠ par.tChlng)
    (h2 : sl.type ≠ par.tScrypt) : d.sc.state = .idle ∨ d.sc.state = .established := by
  cases h with
  | offline _ hslot => simp [hslot] at hs
  | polling _ _ hslot => simp [hslot] at hs
  | awaiting _ _ _ _ _ hsc => exact hsc
  | paused _ _ hslot => simp [hslot] at hs
  | handshake _ _ _ hslot _ hstage =>
    cases hslot.symm.trans hs
    rcases hstage with ⟨ht, -⟩ | ⟨ht, -⟩
    · exact absurd ht h1
    · exact absurd ht h2

/-- The challenge is in flight in the handshake only, while the channel waits for its answer (R187). -/
theorem CoherentMode.stage_of_challenge {sl : Slot} (hne : par.tChlng ≠ par.tScrypt) (hs : d.slot = some sl)
    (ht : sl.type = par.tChlng) : d.dstate = .secureHandshake ∧ d.sc.state = .challengeSent := by
  cases h with
  | offline _ hslot => simp [hslot] at hs
  | polling _ _ hslot => simp [hslot] at hs
  | awaiting _ _ _ hslot _ _ hord =>
    cases hslot.symm.trans hs
    exact absurd ht hord.1
  | paused _ _ hslot => simp [hslot] at hs
  | handshake _ hd _ hslot _ hstage =>
    cases hslot.symm.trans hs
    rcases hstage with ⟨-, hst⟩ | ⟨ht', -⟩
    · exact ⟨hd, hst⟩
    · exact absurd (ht.symm.trans ht') hne

/-- The confirmation is in flight in the handshake only, when the PD's answer has been verified (R187). -/
theorem CoherentMode.stage_of_confirm {sl : Slot} (hne : par.tChlng ≠ par.tScrypt) (hs : d.slot = some sl)
    (ht : sl.type = par.tScrypt) : d.sc.state = .challengeReceived := by
  cases h with
  | offline _ hslot => simp [hslot] at hs
  | polling _ _ hslot => simp [hslot] at hs
  | awaiting _ _ _ hslot _ _ hord =>
    cases hslot.symm.trans hs
    exact absurd ht hord.2
  | paused _ _ hslot => simp [hslot] at hs
  | handshake _ _ _ hslot _ hstage =>
    cases hslot.symm.trans hs
    rcases hstage with ⟨ht', -⟩ | ⟨-, hst⟩
    · exact absurd (ht'.symm.trans ht) hne
    · exact hst

/-! ### Writes that keep the mode -/

theorem CoherentMode.with_rxbuf {rx : Bytes} (hrx : d.dstate = .offline → rx = []) :
    CoherentMode par { d with rxbuf := rx } := by
  cases h with
  | offline hd hslot hretxp hq hsc hon _ hdl => exact .offline hd hslot hretxp hq hsc hon (hrx hd) hdl
  | polling run hd hslot hretxp hsc => exact .polling ⟨run.retry, run.channel, run.queue⟩ hd hslot hretxp hsc
  | awaiting run hd sl hslot hdl hsc hord hsec =>
    exact .awaiting ⟨run.retry, run.channel, run.queue⟩ hd sl hslot hdl hsc hord hsec
  | paused run hd hslot hretxp hsc => exact .paused ⟨run.retry, run.channel, run.queue⟩ hd hslot hretxp hsc
  | handshake run hd sl hslot hsec hstage =>
    exact .handshake ⟨run.retry, run.channel, run.queue⟩ hd sl hslot hsec hstage

/-- With a command in flight a write that leaves the state, the channel, the queue and the command's kind, takes away no
deadline and keeps the retry count below the threshold keeps the mode. -/
theorem CoherentMode.of_exchange {d' : Device} {sl sl' : Slot} (hs : d.slot = some sl) (hs' : d'.slot = some sl')
    (ht : sl'.type = sl.type) (hx : sl'.sec = sl.sec) (hds : d'.dstate = d.dstate) (hch : d'.sc = d.sc)
    (hq : d'.cmdq = d.cmdq) (hn : d'.retry < par.retryMax)
    (hdl' : d.deadline.isSome = true → d'.deadline.isSome = true) : CoherentMode par d' := by
  have ho := h.not_offline (by simp [hs])
  have run : d'.Running par := ⟨hn, hch ▸ h.scInv, hq ▸ (h.running ho).queue⟩
  cases h with
  | offline hd => exact absurd hd ho
  | polling _ _ hslot => simp [hslot] at hs
  | awaiting _ hd _ hslot hdl hsc hord hsec =>
    cases hslot.symm.trans hs
    exact .awaiting run (hds.trans hd) sl' hs' (hdl' hdl) (hch ▸ hsc) (ht ▸ hord) (hx ▸ hch ▸ hsec)
  | paused _ _ hslot => simp [hslot] at hs
  | handshake _ hd _ hslot hsec hstage =>
    cases hslot.symm.trans hs
    exact .handshake run (hds.trans hd) sl' hs' (hx.trans hsec) (ht ▸ hch ▸ hstage)

end

/-! ### What the channel procedures answer in the stages of the handshake -/

/-- Unwrapping opens the payload, finds no channel, or breaks it (R151). -/
theorem scUnwrap_cases (e : Env) (p : Bytes) {sc : Sc} (hk : HasKeys sc) :
    (∃ b, scUnwrap e p sc = { sc := sc, notes := [], drew := false, out := .ok b }) ∨
    scUnwrap e p sc = scStop sc (.raise .notEstablished) ∨ scUnwrap e p sc = scBreakRaise e.id sc .macInvalid := by
  unfold scUnwrap
  split
  · exact .inr (.inl rfl)
  · rename_i hs
    split
    · exact .inr (.inr rfl)
    · split
      · dsimp only
        split
        · exact .inr (.inr rfl)
        · exact .inl ⟨_, rfl⟩
      · rename_i hn
        obtain ⟨henc, hmac⟩ := hk (by simpa using hs)
        obtain ⟨ke, hke⟩ := Option.isSome_iff_exists.mp henc
        obtain ⟨km, hkm⟩ := Option.isSome_iff_exists.mp hmac
        exact absurd hkm (hn ke km hke)

/-- A fresh challenge from `Idle` (R143). -/
theorem scCpBegin_idle (e : Env) (rnd : Bytes) {sc : Sc} (hs : sc.state = .idle) :
    (scCpBegin e rnd sc).out = .ok (rnd ++ e.par.cpCaps) ∧ (scCpBegin e rnd sc).sc.state = .challengeSent := by
  simp [scCpBegin, hs]

/-- An answer to the challenge is verified, malformed, or breaks the channel (R144). -/
theorem scCpVerify_cases (e : Env) (p : Bytes) {sc : Sc} (h : ScInvCp sc) (hs : sc.state = .challengeSent) :
    ((scCpVerify e p sc).out = .ok () ∧ (scCpVerify e p sc).sc.state = .challengeReceived) ∨
    scCpVerify e p sc = scStop sc (.raise .malformedPayload) ∨
    ∃ c, c ≠ .malformedPayload ∧ scCpVerify e p sc = scBreakRaise e.id sc c := by
  unfold scCpVerify
  rw [if_neg (by simp [hs])]
  split
  · exact .inr (.inl rfl)
  · split
    · exact .inr (.inr ⟨.noKey, by simp, rfl⟩)
    · split
      · rename_i hn
        have := h.1.mpr (by simp [hs])
        simp [hn] at this
      · dsimp only
        split
        · exact .inr (.inr ⟨.cryptogramInvalid, by simp, rfl⟩)
        · exact .inl ⟨rfl, rfl⟩

/-- A confirmation is computed, or for want of a key breaks the channel (R145). -/
theorem scCpConfirm_cases (e : Env) {sc : Sc} (h : ScInvCp sc) (hs : sc.state = .challengeReceived) :
    (∃ b, scCpConfirm e sc = { sc := sc, notes := [], drew := false, out := .ok b }) ∨
    scCpConfirm e sc = scBreakRaise e.id sc .noKey := by
  have hk := (scCpConfirm_keeps (e := e) h).noFault
  unfold scCpConfirm at hk ⊢
  rw [if_neg (by simp [hs])] at hk ⊢
  split
  · exact .inr rfl
  · split
    · exact .inl ⟨_, rfl⟩
    · simp_all [scStop]

/-- The PD's acceptance establishes a verified channel (R146). -/
theorem scCpFinish_received (e : Env) {sc : Sc} (hs : sc.state = .challengeReceived) :
    (scCpFinish e sc).out = .ok () ∧ (scCpFinish e sc).sc.state = .established := by
  simp [scCpFinish, hs]

/-! ### The procedures keep coherence -/

theorem goOffline_coherent (par : Params) (e : Env) (r : OfflineReason) (w : Work Device) :
    CoherentMode par (goOffline e r w).ctx := .offline rfl rfl rfl rfl rfl rfl rfl rfl

/-- Giving up the exchange leaves the handshake with no command in flight (R197). -/
theorem channelBroken_coherent {par : Params} (e : Env) (c : ErrorCode) {w : Work Device} (run : w.ctx.Running par)
    (hsc : w.ctx.sc.state = .broken) : CoherentMode par (channelBroken e c w).ctx := by
  rw [channelBroken_ctx]
  exact .paused ⟨run.retry, run.channel, run.queue⟩ rfl rfl rfl (.inr (.inl hsc))

/-- A procedure that broke the channel gives up the exchange (R145, R151, R197). -/
theorem channelBroken_of_break {par : Params} (e : Env) (c x : ErrorCode) {α : Type} {w : Work Device}
    (run : w.ctx.Running par) :
    CoherentMode par
      (channelBroken e c ((absorbSc w (scBreakRaise (α := α) e.id w.ctx.sc x)).note (.error e.id c))).ctx :=
  channelBroken_coherent e c ⟨run.retry, scInvCp_broken, run.queue⟩ rfl

section
variable {e : Env} {w : Work Device} {sl : Slot}

/-- `unexpected` while a command is in flight (R193). -/
theorem unexpected_coherent (h : CoherentMode e.par w.ctx) (hs : w.ctx.slot = some sl) (c : ErrorCode) :
    CoherentMode e.par (unexpected e c w).ctx := by
  unfold unexpected
  by_cases hr : w.ctx.retry + 1 < e.par.retryMax
  · rw [boundedRetry_left (w := w.note _) hr]
    exact h.of_exchange hs hs rfl rfl rfl rfl rfl hr id
  · rw [boundedRetry_spent (w := w.note _) (Nat.not_lt.mp hr)]
    exact goOffline_coherent _ _ _ _

/-- `desync` while a command is in flight (R192). -/
theorem desync_coherent (h : CoherentMode e.par w.ctx) (hs : w.ctx.slot = some sl) :
    CoherentMode e.par (desync e w).ctx := by
  unfold desync
  dsimp only
  split
  · exact goOffline_coherent _ _ _ _
  · have run := h.running (h.not_offline (by simp [hs]))
    exact h.of_exchange (sl' := { sl with seq := 0 }) hs (by simp [hs]) rfl rfl rfl rfl rfl run.retry id

/-- A retransmission (R186). -/
theorem xmit_coherent (now : Time) (h : CoherentMode e.par w.ctx) (hs : w.ctx.slot = some sl) :
    (xmit e now w).Keeps (CoherentMode e.par) := by
  rcases xmit_cases (e := e) (now := now) hs with ⟨f, hx⟩ | ⟨st, hx, hst⟩
  · have run := h.running (h.not_offline (by simp [hs]))
    rw [hx]
    exact Work.done_keeps (h.of_exchange hs hs rfl rfl rfl rfl rfl run.retry fun _ => rfl)
  · rw [hx]
    rcases hst with rfl | ⟨hsec, hw⟩
    · exact Work.refuse_keeps _ _
    · cases st with
      | raise x => exact absurd (h.established_of_sec hs hsec) (scWrap_raise hw)
      | refuse r => exact Work.refuse_keeps _ _
      | fault f => exact absurd hw (scWrap_noFault h.scInv.hasKeys f)

/-- `awaiting` with a command in flight (R187). -/
theorem awaiting_coherent (now : Time) (h : CoherentMode e.par w.ctx) (hs : w.ctx.slot = some sl) :
    (awaiting e now w).Keeps (CoherentMode e.par) := by
  unfold awaiting
  split
  · exact xmit_coherent now h hs
  split
  · by_cases hr : w.ctx.retry + 1 < e.par.retryMax
    · rw [boundedRetry_left hr]
      exact xmit_coherent now (h.of_exchange hs hs rfl rfl rfl rfl rfl hr id) hs
    · rw [boundedRetry_spent (Nat.not_lt.mp hr)]
      exact Work.done_keeps (goOffline_coherent _ _ _ _)
  · exact Work.done_keeps h

/-- A tick in `Polling` sends an ordinary command and waits for its reply (R187). -/
theorem tickPolling_coherent (now : Time) (hpar : e.par.tPoll ≠ e.par.tChlng ∧ e.par.tPoll ≠ e.par.tScrypt)
    (run : w.ctx.Running e.par) (hsc : w.ctx.sc.state = .idle ∨ w.ctx.sc.state = .established) :
    (tickPolling e now w).Keeps (CoherentMode e.par) := by
  unfold tickPolling
  cases hp : pickCommand e w with
  | error st => exact absurd hp (pickCommand_noFault run.channel.hasKeys st)
  | ok r =>
    obtain ⟨w1, c⟩ := r
    obtain ⟨⟨q, hc, hq⟩, -, -, hm⟩ := pickCommand_cases hp
    have hch : w1.ctx.sc = w.ctx.sc := by rw [hc]
    have hord : c.type ≠ e.par.tChlng ∧ c.type ≠ e.par.tScrypt := by
      rcases hm with hm | rfl
      · exact run.queue c hm
      · exact hpar
    have run1 : w1.ctx.Running e.par := by
      rw [hc]
      exact ⟨run.retry, run.channel, fun x hx => run.queue x (hq.mem hx)⟩
    refine Done.andThen_keeps (P := fun d => CoherentMode e.par { d with dstate := .awaitingReply })
      (send_keeps run1.channel.hasKeys ?_) (fun w hw => Work.done_keeps hw) fun x hx _ => ?_
    · refine .awaiting ⟨run1.retry, run1.channel, run1.queue⟩ rfl _ rfl rfl (hch ▸ hsc) hord fun hsec => ?_
      simp only [slotFor, Bool.and_eq_true, decide_eq_true_eq] at hsec
      exact hsec.1.1
    · obtain ⟨r, hr⟩ := send_stop run1.channel.hasKeys hx
      cases hr

/-- A tick of the handshake that sends the challenge (R187). -/
theorem tickChallenge_coherent (now : Time) (run : w.ctx.Running e.par) (hd : w.ctx.dstate = .secureHandshake)
    (hsc : w.ctx.sc.state = .idle) : (tickChallenge e now w).Keeps (CoherentMode e.par) := by
  unfold tickChallenge
  dsimp only
  have hk := scCpBegin_keeps (e := e) (rnd := drawBytes e.id e.par.chalLen w.draws) run.channel
  obtain ⟨hout, hst⟩ := scCpBegin_idle e (drawBytes e.id e.par.chalLen w.draws) hsc
  rw [hout]
  refine send_keeps hk.keeps.hasKeys ?_
  exact .handshake ⟨run.retry, hk.keeps, run.queue⟩ hd _ rfl (by simp [slotFor, hst]) (.inl ⟨rfl, hst⟩)

/-- A tick of the handshake that sends the confirmation (R187). -/
theorem tickConfirm_coherent (now : Time) (run : w.ctx.Running e.par) (hd : w.ctx.dstate = .secureHandshake)
    (hsc : w.ctx.sc.state = .challengeReceived) : (tickConfirm e now w).Keeps (CoherentMode e.par) := by
  unfold tickConfirm
  dsimp only
  rcases scCpConfirm_cases e run.channel hsc with ⟨b, hx⟩ | hx
  · rw [hx]
    refine send_keeps run.channel.hasKeys ?_
    exact .handshake ⟨run.retry, run.channel, run.queue⟩ hd _ rfl (by simp [slotFor, hsc]) (.inr ⟨rfl, hsc⟩)
  · rw [hx]
    exact Work.done_keeps (channelBroken_of_break e .noKey .noKey run)

/-- A tick of the handshake with no command in flight (R187). -/
theorem tickPaused_coherent (now : Time) (run : w.ctx.Running e.par) (hd : w.ctx.dstate = .secureHandshake)
    (hslot : w.ctx.slot = none)
    (hsc : w.ctx.sc.state = .idle ∨ w.ctx.sc.state = .broken ∨ w.ctx.sc.state = .challengeReceived) :
    (tickHandshake e now w).Keeps (CoherentMode e.par) := by
  unfold tickHandshake
  rw [if_neg (by simp [hslot])]
  rcases hsc with hsc | hsc | hsc
  · simpa [hsc] using tickChallenge_coherent now run hd hsc
  · have run' : (cpScReset e w).ctx.Running e.par := ⟨run.retry, scInvCp_init, run.queue⟩
    simpa [hsc, cpScReset_eq, Sc.init] using tickChallenge_coherent now run' hd rfl
  · simpa [hsc] using tickConfirm_coherent now run hd hsc

/-- `DEV_TICK` (R187). -/
theorem devTick_coherent (now : Time) (hpar : e.par.tPoll ≠ e.par.tChlng ∧ e.par.tPoll ≠ e.par.tScrypt)
    (h : CoherentMode e.par w.ctx) : (devTick e now w).Keeps (CoherentMode e.par) := by
  unfold devTick
  cases h with
  | offline hd hslot hretxp hq hsc hon hrx hdl =>
    rw [hd]
    exact Work.done_keeps (.offline hd hslot hretxp hq hsc hon hrx hdl)
  | polling run hd hslot hretxp hsc =>
    rw [hd]
    exact tickPolling_coherent now hpar run hsc
  | awaiting run hd sl hslot hdl hsc hord hsec =>
    rw [hd]
    exact awaiting_coherent now (.awaiting run hd sl hslot hdl hsc hord hsec) hslot
  | paused run hd hslot hretxp hsc =>
    rw [hd]
    exact tickPaused_coherent now run hd hslot hsc
  | handshake run hd sl hslot hsec hstage =>
    rw [hd]
    dsimp only
    unfold tickHandshake
    rw [if_pos (by simp [hslot])]
    exact awaiting_coherent now (.handshake run hd sl hslot hsec hstage) hslot

/-- The answer to the challenge (R195). -/
theorem onCcrypt_coherent (p : Bytes) (hne : e.par.tChlng ≠ e.par.tScrypt) (h : CoherentMode e.par w.ctx)
    (hs : w.ctx.slot = some sl) (ht : sl.type = e.par.tChlng) : (onCcrypt e sl p w).Keeps (CoherentMode e.par) := by
  obtain ⟨hd, hst⟩ := h.stage_of_challenge hne hs ht
  have run := h.running (by simp [hd])
  unfold onCcrypt
  dsimp only
  rcases scCpVerify_cases e p run.channel hst with ⟨hout, hrec⟩ | hx | ⟨c, hc, hx⟩
  · rw [hout]
    refine Work.done_keeps ?_
    rw [complete_ctx]
    exact .paused ⟨Nat.zero_lt_of_lt run.retry, (scCpVerify_keeps run.channel).keeps, run.queue⟩ hd rfl rfl
      (.inr (.inr hrec))
  · rw [hx]
    exact Work.done_keeps (unexpected_coherent (w := absorbSc w _) h hs _)
  · rw [hx]
    cases c with
    | malformedPayload => exact absurd rfl hc
    | _ => exact Work.done_keeps (channelBroken_of_break e _ _ run)

/-- The PD's acceptance (R196). -/
theorem onScdone_coherent (hne : e.par.tChlng ≠ e.par.tScrypt) (h : CoherentMode e.par w.ctx)
    (hs : w.ctx.slot = some sl) (ht : sl.type = e.par.tScrypt) : (onScdone e sl w).Keeps (CoherentMode e.par) := by
  have run := h.running (h.not_offline (by simp [hs]))
  obtain ⟨hout, hest⟩ := scCpFinish_received e (h.stage_of_confirm hne hs ht)
  unfold onScdone
  dsimp only
  rw [hout]
  refine Work.done_keeps ?_
  rw [complete_ctx]
  exact .polling ⟨Nat.zero_lt_of_lt run.retry, (scCpFinish_keeps run.channel).keeps, run.queue⟩ rfl rfl rfl (.inr hest)

/-- The reply to an ordinary command (R194). -/
theorem success_coherent (r : Byte) (p : Bytes) (h : CoherentMode e.par w.ctx) (hs : w.ctx.slot = some sl)
    (h1 : sl.type ≠ e.par.tChlng) (h2 : sl.type ≠ e.par.tScrypt) : CoherentMode e.par (success e sl r p w).ctx := by
  have run := h.running (h.not_offline (by simp [hs]))
  rw [success_ctx]
  exact .polling ⟨Nat.zero_lt_of_lt run.retry, run.channel, run.queue⟩ rfl rfl rfl (h.channel_of_ordinary hs h1 h2)

/-- Steps 4 to 7 of `accept_reply` (R191). -/
theorem acceptPlain_coherent (p : Packet) (pay : Bytes) (hne : e.par.tChlng ≠ e.par.tScrypt)
    (h : CoherentMode e.par w.ctx) (hs : w.ctx.slot = some sl) :
    (acceptPlain e sl p pay w).Keeps (CoherentMode e.par) := by
  unfold acceptPlain
  split
  · exact Work.done_keeps (desync_coherent h hs)
  split
  · exact Work.done_keeps (unexpected_coherent h hs _)
  split
  · exact Work.done_keeps (unexpected_coherent h hs _)
  split
  · exact onCcrypt_coherent pay hne h hs ‹_›
  split
  · exact onScdone_coherent hne h hs ‹_›
  · exact Work.done_keeps (success_coherent _ _ h hs ‹_› ‹_›)

/-- `accept_reply`, whatever the packet (R191). -/
theorem acceptReply_coherent (p : Packet) (hne : e.par.tChlng ≠ e.par.tScrypt) (h : CoherentMode e.par w.ctx) :
    (acceptReply e p w).Keeps (CoherentMode e.par) := by
  unfold acceptReply
  split
  · exact Work.done_keeps h
  split
  · exact Work.done_keeps h
  · rename_i sl hs
    have run := h.running (h.not_offline (by simp [hs]))
    split
    · dsimp only
      rcases scUnwrap_cases e p.payload h.scInv.hasKeys with ⟨b, hx⟩ | hx | hx
      · rw [hx]
        exact acceptPlain_coherent (w := absorbSc w _) p b hne h hs
      · rw [hx]
        exact Work.done_keeps h
      · rw [hx]
        exact Work.done_keeps (channelBroken_of_break e _ _ run)
    · exact acceptPlain_coherent p _ hne h hs

theorem cpVerdict_coherent (v : Verdict) (hne : e.par.tChlng ≠ e.par.tScrypt) (h : CoherentMode e.par w.ctx) :
    (cpVerdict e v w).Keeps (CoherentMode e.par) := by
  cases v with
  | error err => exact Work.done_keeps h
  | packet p => exact acceptReply_coherent p hne h

/-- `DEV_RX`, whatever the bytes (R190). -/
theorem devRx_coherent (c : Bytes) (hne : e.par.tChlng ≠ e.par.tScrypt) (h : CoherentMode e.par w.ctx) :
    (devRx e c w).Keeps (CoherentMode e.par) := by
  unfold devRx
  split
  · exact Work.done_keeps h
  · rename_i ho
    exact eachVerdict_keeps (fun v _ hw => cpVerdict_coherent v hne hw) _ _ (h.with_rxbuf fun hd => absurd hd ho)

theorem cpPacket_coherent (p : Packet) (hne : e.par.tChlng ≠ e.par.tScrypt) (h : CoherentMode e.par w.ctx) :
    (cpPacket e p w).Keeps (CoherentMode e.par) := by
  unfold cpPacket
  split
  · exact Work.done_keeps h
  · exact acceptReply_coherent p hne h

/-- `DEV_START` (R183). -/
theorem devStart_coherent (hretry : 1 ≤ e.par.retryMax) (h : CoherentMode e.par w.ctx) :
    (devStart e w).Keeps (CoherentMode e.par) := by
  unfold devStart
  split
  · exact Work.refuse_keeps _ _
  · rename_i hd
    obtain ⟨hoff, -⟩ := h.coherent
    obtain ⟨-, -, hq, -⟩ := hoff (by simpa using hd)
    rw [cpScReset_eq]
    exact Work.done_keeps (.polling ⟨hretry, scInvCp_init, by simp [hq]⟩ rfl rfl rfl (.inl rfl))

/-- `DEV_SC_START` (R185). -/
theorem devScStart_coherent (h : CoherentMode e.par w.ctx) : (devScStart e w).Keeps (CoherentMode e.par) := by
  unfold devScStart
  split
  · exact Work.refuse_keeps _ _
  split
  · exact Work.raise_keeps _ h
  · have hd : w.ctx.dstate = .polling := by simpa using ‹¬ w.ctx.dstate ≠ .polling›
    have run := h.running (by simp [hd])
    obtain ⟨-, hpoll, -⟩ := h.coherent
    obtain ⟨hslot, hretxp, -⟩ := hpoll hd
    rw [cpScReset_eq]
    exact Work.done_keeps (.paused ⟨run.retry, scInvCp_init, run.queue⟩ rfl hslot hretxp (.inl rfl))

end

/-- What DEV_SUBMIT takes: an ordinary command for a device that is not offline, put at the end of the queue (R184). -/
theorem devSubmit_ok {par : Params} {t : Byte} {p : Bytes} {d d' : Device} (hs : devSubmit par t p d = .ok d') :
    d.dstate ≠ .offline ∧ t ≠ par.tChlng ∧ t ≠ par.tScrypt ∧
    d' = { d with cmdq := d.cmdq ++ [{ type := t, payload := p }] } := by
  unfold devSubmit at hs
  split at hs
  · cases hs
  split at hs
  · cases hs
  split at hs
  · cases hs
  split at hs
  · cases hs
  split at hs
  · cases hs
  split at hs
  · cases hs
  · cases hs
    rename_i ho ht _ _ _ _ _ _
    exact ⟨ho, fun h => ht (.inl h), fun h => ht (.inr h), rfl⟩

/-- `DEV_SUBMIT` (R184). -/
theorem devSubmit_coherent {par : Params} {t : Byte} {p : Bytes} {d d' : Device} (h : CoherentMode par d)
    (hs : devSubmit par t p d = .ok d') : CoherentMode par d' := by
  obtain ⟨ho, h1, h2, rfl⟩ := devSubmit_ok hs
  have run := h.running ho
  have run' : ({ d with cmdq := d.cmdq ++ [{ type := t, payload := p }] } : Device).Running par := by
    refine ⟨run.retry, run.channel, fun c hc => ?_⟩
    rcases List.mem_append.mp hc with hc | hc
    · exact run.queue c hc
    · rw [List.mem_singleton.mp hc]
      exact ⟨h1, h2⟩
  cases h with
  | offline hd => exact absurd hd ho
  | polling _ hd hslot hretxp hsc => exact .polling run' hd hslot hretxp hsc
  | awaiting _ hd sl hslot hdl hsc hord hsec => exact .awaiting run' hd sl hslot hdl hsc hord hsec
  | paused _ hd hslot hretxp hsc => exact .paused run' hd hslot hretxp hsc
  | handshake _ hd sl hslot hsec hstage => exact .handshake run' hd sl hslot hsec hstage

theorem create_coherent (par : Params) (u : Bool) : CoherentMode par (Device.create u) :=
  .offline rfl rfl rfl rfl rfl rfl rfl rfl

/-- The state machine's operations keep coherence; of the PD context nothing is asked. -/
theorem operationsKeep_coherent {par : Params} (hok : paramsOk par = true) :
    OperationsKeep par (CoherentMode par) (fun _ => True) := by
  obtain ⟨-, hretry, -, hpollChlng, hpollScrypt, hne, -⟩ := paramsOk_facts hok
  exact
    { create  := create_coherent par
      flush   := fun d h => h.with_rxbuf fun _ => rfl
      start   := by rintro e w rfl h; exact (devStart_coherent hretry h).leaves
      submit  := fun c p d d' h hs => devSubmit_coherent h hs
      scStart := by rintro e w rfl h; exact (devScStart_coherent h).leaves
      tick    := by rintro now e w rfl h; exact (devTick_coherent now ⟨hpollChlng, hpollScrypt⟩ h).leaves
      rx      := by rintro c e w rfl h; exact (devRx_coherent c hne h).leaves
      packet  := by rintro m e w rfl h; exact (cpPacket_coherent m hne h).leaves
      pdFlush := fun _ _ => trivial
      pdRx    := fun _ _ _ _ _ _ _ => trivial
      command := fun _ _ _ _ _ _ _ => trivial
      reply   := fun _ _ _ _ _ _ _ _ => trivial }

/-- Settles O59: the operations keep the modes of `CoherentMode`, which say what `DeviceCoherent` says; after RESET no
device is registered. -/
theorem stateMachineOperationsKeepCoherence : Obligations.StateMachineOperationsKeepCoherence := by
  intro i s t hok hu hs h a d hd
  by_cases hi : i = .reset
  · subst hi
    rw [execReset_dev h] at hd
    cases hd
  · have hctx : s.Contexts (CoherentMode s.par) (fun _ => True) := ⟨fun a d hd => (hs a d hd).mode, trivial⟩
    rw [exec_par hi h]
    exact ((exec_keepsContexts (operationsKeep_coherent hok) hctx hi hu t h).devices a d hd).coherent

/-! ### The model's stops -/

theorem onDevice_fault {s : State} {i : DevId} {d : Device} {f : Fault} {g : Env → Work Device → Done Device}
    (hr : s.par.role = .cp) (hd : s.dev i = some d)
    (hg : ∀ e w, w.ctx = d → (g e w).stop = some (.fault f)) : onDevice s i.toNat g = .fault f := by
  rw [onDevice_some hr hd, finishDev, hg _ _ (Work.start_ctx d _)]
  rfl

theorem onPd_fault {s : State} {f : Fault} {g : Env → Work Pdc → Done Pdc} (hr : s.par.role = .pd)
    (hg : ∀ e w, w.ctx = s.pdc → (g e w).stop = some (.fault f)) : onPd s g = .fault f := by
  rw [onPd_pd hr, finishPd, hg _ _ (Work.start_ctx s.pdc _)]
  rfl

theorem onCpChannel_fault {α : Type} {s : State} {i : DevId} {d : Device} {f : Fault} {v : α → Value}
    {g : Env → Sc → ScDone α} (hr : s.par.role = .cp) (hd : s.dev i = some d)
    (hg : (g (s.cpEnv i) d.sc).out = .error (.fault f)) : onCpChannel s i.toNat v g = .fault f := by
  simp only [onCpChannel, cpDevice_some hr hd, finishSc, hg]
  rfl

theorem onChannel_cp {α : Type} {s : State} (hr : s.par.role = .cp) (a : Nat) (v : α → Value)
    (g : Env → Sc → ScDone α) : onChannel s a v g = onCpChannel s a v g := by
  simp only [onChannel, hr]

/-- A retransmission without a command in the slot (R21, R186). -/
theorem devTick_slotUnspecified {e : Env} {now : Time} {w : Work Device} (hd : w.ctx.dstate = .awaitingReply)
    (hslot : w.ctx.slot = none) (hretxp : w.ctx.retxp = true) :
    (devTick e now w).stop = some (.fault .slotUnspecified) := by
  simp [devTick, hd, awaiting, hretxp, xmit, hslot]

/-- A reply without a command to answer (R22, R226). -/
theorem pdReply_curUnspecified {e : Env} {t : Byte} {p : Bytes} {w : Work Pdc}
    (hst : w.ctx.pdstate = .processingCommand) (hcur : w.ctx.cur = none) :
    (pdReply e t p w).stop = some (.fault .curUnspecified) := by
  simp [pdReply, hst, hcur]

/-- Verifying without the own challenge (R144). -/
theorem scCpVerify_noChallenge {e : Env} {p k : Bytes} {sc : Sc} (hs : sc.state = .challengeSent)
    (hlen : p.length = e.par.chalLen + e.par.cryptoLen) (hk : e.key = some k) (hrnd : sc.rndCp = none) :
    (scCpVerify e p sc).out = .error (.fault .keyMaterialNone) := by
  simp [scCpVerify, hs, hlen, hk, hrnd, scStop]

/-- Confirming without both challenges (R145). -/
theorem scCpConfirm_noChallenge {e : Env} {k : Bytes} {sc : Sc} (hs : sc.state = .challengeReceived)
    (hk : e.key = some k) (hrnd : sc.rndCp = none ∨ sc.rndPd = none) :
    (scCpConfirm e sc).out = .error (.fault .keyMaterialNone) := by
  unfold scCpConfirm
  rw [if_neg (by simp [hs]), hk]
  dsimp only
  split
  · rename_i hcp hpd
    simp [hcp, hpd] at hrnd
  · rfl

/-- Wrapping without both session keys (R150). -/
theorem scWrap_noKeys {par : Params} {p : Bytes} {sc : Sc} (hs : sc.state = .established)
    (hkeys : sc.sEnc = none ∨ sc.sMac = none) : scWrap par p sc = .error (.fault .keyMaterialNone) := by
  unfold scWrap
  rw [if_neg (by simp [hs])]
  split
  · rename_i henc hmac
    simp [henc, hmac] at hkeys
  · rfl

/-- Unwrapping without both session keys (R151). -/
theorem scUnwrap_noKeys {e : Env} {p : Bytes} {sc : Sc} (hs : sc.state = .established)
    (hlen : e.par.macLen ≤ p.length) (hkeys : sc.sEnc = none ∨ sc.sMac = none) :
    (scUnwrap e p sc).out = .error (.fault .keyMaterialNone) := by
  unfold scUnwrap
  rw [if_neg (by simp [hs]), if_neg (Nat.not_lt.mpr hlen)]
  split
  · rename_i henc hmac
    simp [henc, hmac] at hkeys
  · rfl

/-- Settles O55: each stop is that of the procedure the operation runs. -/
theorem unspecifiedFieldsStop : Obligations.UnspecifiedFieldsStop := by
  refine ⟨fun s i d now hr hd hst hslot hretxp => ?_, fun s t p hr hst hcur => ?_,
    fun s i d k hr hd hk => ⟨fun hst hrnd p hlen => ?_, fun hst hrnd => ?_, fun hst hkeys p => ⟨?_, fun hlen => ?_⟩⟩⟩
  · show execDevTick i.toNat now s = _
    refine onDevice_fault hr hd fun e w hw => ?_
    subst hw
    exact devTick_slotUnspecified hst hslot hretxp
  · show execPdReply t.toNat p s = _
    refine onPd_fault hr fun e w hw => ?_
    rw [codeOf_toNat]
    exact pdReply_curUnspecified (hw ▸ hst) (hw ▸ hcur)
  · show execScCpVerify i.toNat p s = _
    exact onCpChannel_fault hr hd (scCpVerify_noChallenge hst hlen hk hrnd)
  · exact onCpChannel_fault hr hd (scCpConfirm_noChallenge hst hk hrnd)
  · exact (onChannel_cp hr _ _ _).trans (onCpChannel_fault hr hd (scWrap_noKeys hst hkeys))
  · exact (onChannel_cp hr _ _ _).trans (onCpChannel_fault hr hd (scUnwrap_noKeys hst hlen hkeys))

end Sys2Proof.Machine
end

section
/-! Proofs of the family `30_encoding.md`: the decoder against the encoder (O1), words of the spec (O2) and unknown
codes (O3), the check functions (O9), the reserved bits (O8), delivered frames (O42) and packets (O43), and what an
operand check refuses (O54). -/

namespace Sys2Proof

/-! ### Decoding -/

/-- A code that is none of R96's selects the row of all other codes. -/
theorem decodeOp_of_not_opSelect {r : OpRequest} (h : opSelectCodes.contains r.code = false) :
    decodeOp r = .otherOp r.code := by
  have hcode : r.code ∉ opSelectCodes := by simpa using h
  unfold decodeOp
  split
  case h_28 => rfl
  all_goals
    rename_i hc
    exact absurd (hc ▸ hcode) (by decide)

/-- The instruction of a frame with these format bits, body and check bytes (R90). -/
def frameInstr (a : Nat) (mbl crc : Bool) (f : FrameBody) (k : Bytes) : Instr :=
  match mbl, crc with
  | false, false => .frameSk a f (k.getD 0 0)
  | false, true  => .frameSc a f (word16 (k.getD 0 0) (k.getD 1 0))
  | true,  false => .frameLk a f (k.getD 0 0)
  | true,  true  => .frameLc a f (word16 (k.getD 0 0) (k.getD 1 0))

/-- A whole frame decodes to the instruction of its format, every field as it was laid out (R80, R90). -/
theorem decodeFrame_frame (a : Nat) (m c : Bool) (f : FrameBody) (k : Bytes) (h : f.payload.length ≤ lenMax m)
    (hk : k.length = 1 + c.toNat) : decodeFrame a (frameBytes m c f ++ k) = .ok (frameInstr a m c f k) := by
  have hlen : (frameBytes m c f ++ k).length = 4 + m.toNat + f.payload.length + 1 + c.toNat := by
    simp only [List.length_append, frameBytes_length, hk]; omega
  have hcheck : ∀ j, (frameBytes m c f ++ k).getD (4 + m.toNat + f.payload.length + j) 0 = k.getD j 0 := fun j => by
    rw [← frameBytes_length m c f, List.getD_append_right _ _ _ _ (Nat.le_add_right _ _), Nat.add_sub_cancel_left]
  have hlo : 4 + m.toNat + f.payload.length + 1 + c.toNat - 1 - c.toNat = 4 + m.toNat + f.payload.length + 0 := by omega
  have hhi : 4 + m.toNat + f.payload.length + 1 + c.toNat - 1 = 4 + m.toNat + f.payload.length + c.toNat := by omega
  unfold decodeFrame
  rw [mblOf_frame, crcOf_frame, totalOf_frame m c f k h, frameBodyOf_frame m c f k h, hlen, if_neg (by omega),
    if_neg (by omega), if_neg (by omega), hlo, hhi, hcheck, hcheck]
  cases m <;> cases c <;> rfl

theorem frameInstr_crc (a : Nat) (m : Bool) (f : FrameBody) (c : BitVec 16) :
    frameInstr a m true f (le16 c) = if m then .frameLc a f c else .frameSc a f c := by
  cases m <;> simp [frameInstr, le16, word16_le16]

/-- Settles O1: operations by their ports, frames by `decodeFrame_frame`. -/
theorem decodeOfEncodeIsIdentity : Obligations.DecodeOfEncodeIsIdentity := by
  intro i hwf
  cases i with
  | frameSk a f k => exact decodeFrame_frame a false false f [k] (of_decide_eq_true hwf) rfl
  | frameSc a f c =>
    exact (decodeFrame_frame a false true f (le16 c) (of_decide_eq_true hwf) rfl).trans
      (congrArg _ (frameInstr_crc a false f c))
  | frameLk a f k => exact decodeFrame_frame a true false f [k] (of_decide_eq_true hwf) rfl
  | frameLc a f c =>
    exact (decodeFrame_frame a true true f (le16 c) (of_decide_eq_true hwf) rfl).trans
      (congrArg _ (frameInstr_crc a true f c))
  | otherOp code =>
    have hcode : opSelectCodes.contains code = false := by simpa [Instr.wf] using hwf
    exact congrArg _ (decodeOp_of_not_opSelect (r := OpRequest.ofCode code) hcode)
  | _ => rfl

/-- Settles O2: the decoder run on each word. -/
theorem specWordsDecode : Obligations.SpecWordsDecode :=
  ⟨rfl, rfl, rfl, rfl, rfl, rfl⟩

/-- Settles O3: such a code selects the row of all other codes, and that row's meaning is the refusal. -/
theorem unknownOpSelectIsRefused : Obligations.UnknownOpSelectIsRefused :=
  fun _ _ h => ⟨congrArg _ (decodeOp_of_not_opSelect h), rfl⟩

end Sys2Proof

namespace Sys2Proof.Machine

/-! ### The check functions -/

theorem sum8_concat (b : Bytes) (c : Byte) : sum8 (b ++ [c]) = sum8 b + c := by simp [sum8]

/-- The checksum's sum is the sum of the bytes modulo 256 (R87). -/
theorem sum8_toNat (b : Bytes) : (sum8 b).toNat = (b.map BitVec.toNat).sum % 256 := by
  induction b using List.reverseRecOn with
  | nil => rfl
  | append_singleton b c ih =>
    rw [sum8_concat, BitVec.toNat_add, ih, List.map_append, List.sum_append]
    simp

/-- One more byte: into the upper half, then eight shifts (R88). -/
theorem crc16_concat (poly init : BitVec 16) (b : Bytes) (c : Byte) :
    crc16 poly init (b ++ [c]) = crcShifts poly 8 (crc16 poly init b ^^^ (c.setWidth 16 <<< 8)) := by
  rw [crc16, List.foldl_append]
  rfl

/-- Settles O9: sums and shift registers by their equations for one more byte, R87's and R88's check values by running
both functions. -/
theorem checkFunctionsFollowTheirDefinitions : Obligations.CheckFunctionsFollowTheirDefinitions := by
  refine ⟨fun b => ⟨sum8_toNat b, ?_, ?_⟩, by decide, fun poly init b c => ⟨rfl, crc16_concat poly init b c⟩,
    by decide +kernel⟩
  · rw [← sum8_toNat b]
    exact BitVec.toNat_neg (sum8 b)
  · have hzero : sum8 (b ++ [- sum8 b]) = 0 := (sum8_concat b _).trans (BitVec.add_right_neg _)
    exact congrArg BitVec.toNat hzero

/-! ### The framer on a whole frame -/

section
variable {par : Params} {m c : Bool} {f : FrameBody} (h : f.payload.length ≤ lenMax m)
  (hp : f.payload.length ≤ par.maxPayload)
include h hp

/-- Bytes that are exactly one frame under the right check hold the packet of its fields (R111). -/
theorem verdict_rightCheck :
    verdict par (frameBytes m c f ++ checkBytes par c (frameBytes m c f)) true = .packet (packetOfBody m c f) := by
  have hv := verdict_frame par m c f (checkBytes par c (frameBytes m c f)) [] true h hp (by simp) fun _ => rfl
  rwa [List.append_nil, if_pos rfl] at hv

/-- Such a frame fed to an empty accumulator gives that packet and leaves the accumulator empty (R113). -/
theorem feed_rightCheck : feed par [] (frameBytes m c f ++ checkBytes par c (frameBytes m c f)) =
    ([.packet (packetOfBody m c f)], []) := by
  rw [feed_frame par m c f _ h hp (by simp), if_pos rfl]

end

/-- WF_ENCODE of a valid packet answers its frame (R110). -/
theorem execWfEncode_valid {s : State} {p : RawPacket} {q : Packet} (hp : toPacket? p = some q)
    (hq : packetValid s.par q = true) : execWfEncode p s = .next (s.answer .ok (.bytes (frameOf s.par q))) := by
  simp [execWfEncode, hp, encodePacket, hq]

/-- WF_DECODE answers the packet the verdict finds (R112). -/
theorem execWfDecode_packet {s : State} {b : Bytes} {q : Packet} (hv : verdict s.par b true = .packet q) :
    execWfDecode b s = .next (s.answer .ok (.packet q)) := by
  simp [execWfDecode, hv]

/-- The encoder writes the reserved bits 0 (R91). -/
theorem ctrlOf_frameOf_rsv (par : Params) (q : Packet) : (ctrlOf (frameOf par q)).extractLsb' 4 4 = 0 := by
  rw [frameOf, ctrlOf_frame, ctrlByte_rsv]
  rfl

/-- Settles O8: the packet of a frame has no reserved bits, so any of them gives the same. -/
theorem reservedBitsAreWrittenZeroAndIgnored : Obligations.ReservedBitsAreWrittenZeroAndIgnored := by
  intro s p q rsv hmax hp hq
  obtain ⟨hpay, hlen⟩ := (packetValid_iff hmax).mp hq
  exact ⟨⟨_, execWfEncode_valid hp hq, ctrlOf_frameOf_rsv s.par q⟩,
    execWfDecode_packet (verdict_rightCheck (f := { packetBody q with rsv := rsv }) hlen hpay)⟩

/-! ### Delivered frames and packets -/

/-- Bytes that make one packet on an empty accumulator are handled as that packet (R221). -/
theorem pdRx_packet {e : Env} {b : Bytes} {q : Packet} {w : Work Pdc} (hrx : w.ctx.rxbuf = [])
    (hf : feed e.par [] b = ([.packet q], [])) : pdRx e b w = acceptCommand e q w := by
  have hw : { w with ctx := { w.ctx with rxbuf := [] } } = w := by rw [← hrx]
  simp only [pdRx, hrx, hf, eachVerdict_one, hw, pdVerdict]

/-- The same on a CP's device (R190). -/
theorem devRx_packet {e : Env} {b : Bytes} {q : Packet} {w : Work Device} (hrx : w.ctx.rxbuf = [])
    (hf : feed e.par [] b = ([.packet q], [])) : devRx e b w = cpPacket e q w := by
  have hw : { w with ctx := { w.ctx with rxbuf := [] } } = w := by rw [← hrx]
  simp only [devRx, cpPacket, hrx, hf, eachVerdict_one, hw, cpVerdict]

/-- A plain command for this PD goes on to the sequence check (R222). -/
theorem acceptCommand_plain {e : Env} {q : Packet} {w : Work Pdc} (hid : q.devid = e.id)
    (hs : w.ctx.pdstate ≠ .processingCommand) (hsec : q.sec = false) :
    acceptCommand e q w = commandPlain e q q.payload w := by
  simp [acceptCommand, hid, hs, hsec]

/-- A command with a valid number that is no handshake command is handed to the application (R222, R223). -/
theorem commandPlain_application {e : Env} {q : Packet} {w : Work Pdc} (pay : Bytes)
    (hsqn : q.sqn = 0 ∨ q.sqn = w.ctx.pseq) (hchlng : q.type ≠ e.par.tChlng) (hscrypt : q.type ≠ e.par.tScrypt) :
    commandPlain e q pay w =
      ({ w with ctx := { w.ctx with
          pdstate := .processingCommand,
          cur := some { type := q.type, seq := q.sqn, sec := q.sec, crc := q.crc } } }.note
        (.command q.type pay)).done := by
  have hvalid : seqValid q.sqn w.ctx.pseq = true := by simpa [seqValid] using hsqn
  simp [commandPlain, hvalid, hchlng, hscrypt]

/-- An operation of a PD that comes down to such a command ends with it handed to the application. -/
theorem onPd_application {s : State} {q : Packet} {pay : Bytes} {g : Env → Work Pdc → Done Pdc}
    (hr : s.par.role = .pd) (hg : ∀ w, w.ctx = s.pdc → g s.pdEnv w = commandPlain s.pdEnv q pay w)
    (hsqn : q.sqn = 0 ∨ q.sqn = s.pdc.pseq) (hchlng : q.type ≠ s.par.tChlng) (hscrypt : q.type ≠ s.par.tScrypt) :
    onPd s g = .next ({ s with pdc := { s.pdc with
        pdstate := .processingCommand,
        cur := some { type := q.type, seq := q.sqn, sec := q.sec, crc := q.crc } } }.finished []
      [.command q.type pay]) := by
  rw [onPd_pd hr, hg _ (Work.start_ctx _ _), commandPlain_application pay hsqn hchlng hscrypt, finishPd_done]
  simp

section
variable {s : State} (a : Nat) (b : Bytes)

theorem deliver_cp (hr : s.par.role = .cp) : deliver a b s = execMuxRx a b s := by
  simp only [deliver, hr, execMuxRx]

theorem deliver_pd (hr : s.par.role = .pd) : deliver a b s = execPdRx b s := by
  simp only [deliver, hr, execPdRx]

end

/-- A delivered frame with the right check that holds a plain application command hands it to a PD's application
(R91, R222). -/
theorem deliver_application {s : State} {f : FrameBody} (a : Nat) (m c : Bool) (hr : s.par.role = .pd)
    (hlen : f.payload.length ≤ lenMax m) (hpay : f.payload.length ≤ s.par.maxPayload) (hrx : s.pdc.rxbuf = [])
    (hst : s.pdc.pdstate ≠ .processingCommand) (hid : f.devid = s.par.myAddr) (hsec : f.sec = false)
    (hsqn : f.sqn = 0 ∨ f.sqn = s.pdc.pseq) (hchlng : f.type ≠ s.par.tChlng) (hscrypt : f.type ≠ s.par.tScrypt) :
    deliver a (frameBytes m c f ++ checkBytes s.par c (frameBytes m c f)) s =
      .next ({ s with pdc := { s.pdc with
          pdstate := .processingCommand,
          cur := some { type := f.type, seq := f.sqn, sec := false, crc := c } } }.finished []
        [.command f.type f.payload]) := by
  rw [deliver_pd a _ hr, ← hsec]
  refine onPd_application (q := packetOfBody m c f) hr (fun w hw => ?_) hsqn hchlng hscrypt
  exact (pdRx_packet (hw ▸ hrx) (feed_rightCheck hlen hpay)).trans (acceptCommand_plain hid (hw ▸ hst) hsec)

/-- Settles O42: both roles' receive entry by `deliver_cp` and `deliver_pd`, the command by `deliver_application`. -/
theorem framesActAsTheirBytes : Obligations.FramesActAsTheirBytes := by
  refine ⟨fun s a f k c => ⟨fun hr => ?_, fun hr => ?_⟩,
    fun s a f hr hmax hpay hrx hst hid hsec hsqn hchlng hscrypt => ?_⟩
  · exact ⟨deliver_cp a _ hr, deliver_cp a _ hr, deliver_cp a _ hr, deliver_cp a _ hr⟩
  · exact ⟨deliver_pd a _ hr, deliver_pd a _ hr, deliver_pd a _ hr, deliver_pd a _ hr⟩
  · have handed := fun m c hlen => deliver_application a m c hr hlen hpay hrx hst hid hsec hsqn hchlng hscrypt
    have hlong : f.payload.length ≤ lenMax true := Nat.le_trans hpay hmax
    exact ⟨fun hshort => ⟨handed false false hshort, handed false true hshort⟩, handed true false hlong,
      handed true true hlong⟩

/-- A message that fits is a valid packet: its format follows its length (R14, R99). -/
theorem messagePacket_valid {par : Params} {m : Message} (t : Byte) (h : m.payload.length ≤ par.maxPayload) :
    packetValid par (messagePacket t m) = true := by
  rcases Nat.lt_or_ge 255 m.payload.length with hl | hl <;> simp [packetValid, messagePacket, mkPacket, h, hl]

section
variable {s : State} {m : Message} (hok : paramsOk s.par = true) (hpay : m.payload.length ≤ s.par.maxPayload)
include hok hpay

theorem feed_message (t : Byte) :
    feed s.par [] (frameOf s.par (messagePacket t m)) = ([.packet (messagePacket t m)], []) :=
  feed_frameOf (paramsOk_facts hok).1 (messagePacket_valid t hpay)

/-- A packet delivered to a registered device of a CP is received as its frame (R190). -/
theorem deliverMessage_cp {i : DevId} {d : Device} (hr : s.par.role = .cp) (hd : s.dev i = some d) (hrx : d.rxbuf = [])
    (t : Byte) : deliverMessage i.toNat t m s = execDevRx i.toNat (frameOf s.par (messagePacket t m)) s := by
  simp only [deliverMessage, hr, muxRoute_some hr hd, execDevRx, onDevice_some hr hd]
  rw [devRx_packet hrx (feed_message hok hpay t)]

/-- A packet delivered to a PD is received as its frame (R221). -/
theorem deliverMessage_pd (a : Nat) (hr : s.par.role = .pd) (hrx : s.pdc.rxbuf = []) (t : Byte) :
    deliverMessage a t m s = execPdRx (frameOf s.par (messagePacket t m)) s := by
  simp only [deliverMessage, hr, execPdRx, onPd_pd hr]
  rw [pdRx_packet hrx (feed_message hok hpay t)]

end

/-- A delivered packet that opens to an application command is handed to a PD's application (R222). -/
theorem deliverMessage_application {s : State} {m : Message} {t : Byte} {pay : Bytes} (a : Nat)
    (hok : paramsOk s.par = true) (hr : s.par.role = .pd) (hst : s.pdc.pdstate ≠ .processingCommand)
    (hid : m.devid = s.par.myAddr) (hsqn : m.sqn = 0 ∨ m.sqn = s.pdc.pseq)
    (hopen : Opens s.par s.pdc.sc m.sec m.payload pay) (hchlng : t ≠ s.par.tChlng) (hscrypt : t ≠ s.par.tScrypt) :
    deliverMessage a t m s =
      .next ({ s with pdc := { s.pdc with
          pdstate := .processingCommand,
          cur := some { type := t, seq := m.sqn, sec := m.sec, crc := m.crc } } }.finished [] [.command t pay]) := by
  simp only [deliverMessage, hr]
  refine onPd_application (q := messagePacket t m) hr (fun w hw => ?_) hsqn hchlng hscrypt
  exact acceptCommand_opens hok hid (hw ▸ hst) (hw ▸ hopen)

/-- Settles O43: each of the five types is one case of `deliverMessage_cp` and `deliverMessage_pd`. -/
theorem messagesActAsTheirFrames : Obligations.MessagesActAsTheirFrames := by
  intro s m hok hpay
  refine ⟨fun i d hr hd hrx => ?_, fun a hr hrx => ?_, fun a pay hr hst hid hsqn hopen => ?_⟩
  · have received := deliverMessage_cp hok hpay hr hd hrx
    exact ⟨received _, received _, received _, received _, received _⟩
  · have received := deliverMessage_pd hok hpay a hr hrx
    exact ⟨received _, received _, received _, received _, received _⟩
  · obtain ⟨-, -, -, hchlng, hscrypt, -⟩ := paramsOk_facts hok
    exact deliverMessage_application a hok hr hst hid hsqn hopen hchlng hscrypt

/-! ### Refused operands -/

section
variable {s : State} {a : Nat} {x : RefusalCode} (h : cpDevice s a = .error x)
include h

theorem onDevice_refused (g : Env → Work Device → Done Device) : onDevice s a g = .next (s.refuse x) := by
  simp only [onDevice, h]

theorem onCpChannel_refused {α : Type} (v : α → Value) (g : Env → Sc → ScDone α) :
    onCpChannel s a v g = .next (s.refuse x) := by
  simp only [onCpChannel, h]

theorem onChannel_refused {α : Type} (hr : s.par.role = .cp) (v : α → Value) (g : Env → Sc → ScDone α) :
    onChannel s a v g = .next (s.refuse x) :=
  (onChannel_cp hr a v g).trans (onCpChannel_refused h v g)

theorem execWfFeed_refused (hr : s.par.role = .cp) (b : Bytes) : execWfFeed a b s = .next (s.refuse x) := by
  simp only [execWfFeed, hr, h]

theorem execWfFlush_refused (hr : s.par.role = .cp) : execWfFlush a s = .next (s.refuse x) := by
  simp only [execWfFlush, hr, h]

theorem execDevDeregister_refused : execDevDeregister a s = .next (s.refuse x) := by
  simp only [execDevDeregister, h]

/-- On a CP an operation on a device is refused as the check of its operand is (R252). -/
theorem exec_namedDevice_refused {i : Instr} (hr : s.par.role = .cp) (hi : namedDevice i = some a) :
    exec i s = .next (s.refuse x) := by
  cases i with
  | wfFeed => cases hi; exact execWfFeed_refused h hr _
  | wfFlush => cases hi; exact execWfFlush_refused h hr
  | scReset | scWrap | scUnwrap => cases hi; exact onChannel_refused h hr _ _
  | scCpBegin | scCpVerify | scCpConfirm | scCpFinish =>
    cases hi
    simp only [exec, execScCpBegin, execScCpVerify, execScCpConfirm, execScCpFinish, onCpChannel_refused h]
  | devDeregister => cases hi; exact execDevDeregister_refused h
  | devStart | devScStart | devTick | devRx =>
    cases hi
    simp only [exec, execDevStart, execDevScStart, execDevTick, execDevRx, onDevice_refused h]
  | _ => cases hi

end

section
variable {s : State} {a : Nat} {x : RefusalCode} (h : cpId s a = .error x)
include h

theorem execDevRegister_refused (u : Nat) : execDevRegister a u s = .next (s.refuse x) := by
  simp only [execDevRegister, h]

theorem execDevSubmit_refused (t : Nat) (p : Bytes) : execDevSubmit a t p s = .next (s.refuse x) := by
  simp only [execDevSubmit, h]

theorem execMuxRx_refused (b : Bytes) : execMuxRx a b s = .next (s.refuse x) := by
  simp only [execMuxRx, muxRoute, h]

end

/-- A PD refuses the operations of a CP (R96, R252). -/
theorem exec_cpOnly_of_pd {s : State} {i : Instr} (hr : s.par.role = .pd) (hi : cpOnly i = true) :
    exec i s = .next (s.refuse .wrongRole) := by
  cases i with
  | scCpBegin | scCpVerify | scCpConfirm | scCpFinish =>
    simp only [exec, execScCpBegin, execScCpVerify, execScCpConfirm, execScCpFinish,
      onCpChannel_refused (cpDevice_pd hr _)]
  | devRegister => exact execDevRegister_refused (cpId_pd hr _) _
  | devDeregister => exact execDevDeregister_refused (cpDevice_pd hr _)
  | devSubmit => exact execDevSubmit_refused (cpId_pd hr _) _ _
  | devStart | devScStart | devTick | devRx =>
    simp only [exec, execDevStart, execDevScStart, execDevTick, execDevRx, onDevice_refused (cpDevice_pd hr _)]
  | muxTick => simp only [exec, execMuxTick, requireCp_pd hr]
  | muxRx => exact execMuxRx_refused (cpId_pd hr _) _
  | _ => cases hi

/-- A CP refuses the operations of a PD (R96, R252). -/
theorem exec_pdOnly_of_cp {s : State} {i : Instr} (hr : s.par.role = .cp) (hi : pdOnly i = true) :
    exec i s = .next (s.refuse .wrongRole) := by
  cases i with
  | scPdChallenge | scPdVerify => simp only [exec, execScPdChallenge, execScPdVerify, onPdChannel, requirePd_cp hr]
  | pdRx | pdReply => simp only [exec, execPdRx, execPdReply, onPd, requirePd_cp hr]
  | _ => cases hi

theorem codeOf_eq_none {t : Nat} : codeOf t = none ↔ 255 < t := by simp [codeOf]

/-- DEV_SUBMIT checks the range of the type code after that of the device id, whatever is registered (log entry 14). -/
theorem execDevSubmit_badCode {s : State} {i : DevId} {t : Nat} (hr : s.par.role = .cp) (ht : 255 < t) (p : Bytes) :
    execDevSubmit i.toNat t p s = .next (s.refuse .badOperand) := by
  simp only [execDevSubmit, cpId_toNat hr, codeOf_eq_none.mpr ht]

theorem execDevSubmit_outOfRange {s : State} {a t : Nat} (hr : s.par.role = .cp) (h : 127 < a ∨ 255 < t) (p : Bytes) :
    execDevSubmit a t p s = .next (s.refuse .badOperand) := by
  by_cases ha : 127 < a
  · exact execDevSubmit_refused (cpId_big hr ha) t p
  · obtain ⟨i, rfl⟩ : ∃ i : DevId, a = i.toNat := ⟨BitVec.ofNatLT a (by omega), rfl⟩
    exact execDevSubmit_badCode hr (h.resolve_left ha) p

theorem execDevSubmit_unregistered {s : State} {i : DevId} (hr : s.par.role = .cp) (hd : s.dev i = none) (t : Byte)
    (p : Bytes) : execDevSubmit i.toNat t.toNat p s = .next (s.refuse .noSuchDevice) := by
  simp only [execDevSubmit, cpId_toNat hr, codeOf_toNat, hd]

theorem execPdReply_badCode {s : State} {t : Nat} (hr : s.par.role = .pd) (ht : 255 < t) (p : Bytes) :
    execPdReply t p s = .next (s.refuse .badOperand) := by
  simp only [execPdReply, onPd_pd hr, codeOf_eq_none.mpr ht]
  rfl

/-- A registry lookup of a code out of range is refused on either role (R252; log entry 14). -/
theorem execRegLookup_badCode (s : State) {t : Nat} (ht : 255 < t) :
    execRegLookupCmd t s = .next (s.refuse .badOperand) ∧ execRegLookupRpl t s = .next (s.refuse .badOperand) := by
  simp only [execRegLookupCmd, execRegLookupRpl, codeOf_eq_none.mpr ht, and_self]

/-- Settles O54: each clause is the refusal of one operand check. -/
theorem wrongRoleAndUnknownDevicesAreRefused : Obligations.WrongRoleAndUnknownDevicesAreRefused := fun s =>
  ⟨fun _ hr hi => exec_cpOnly_of_pd hr hi,
   fun _ hr hi => exec_pdOnly_of_cp hr hi,
   fun _ _ hr hi ha => exec_namedDevice_refused (cpDevice_big hr ha) hr hi,
   fun _ _ hr hi hd => exec_namedDevice_refused (cpDevice_none hr hd) hr hi,
   fun _ _ p hr h => execDevSubmit_outOfRange hr h p,
   fun _ t p hr hd => execDevSubmit_unregistered hr hd t p,
   fun _ p hr ht => execPdReply_badCode hr ht p,
   fun _ ht => execRegLookup_badCode s ht⟩

end Sys2Proof.Machine
end

section
/-! Proofs of the family `40_wire_codec.md`: the layout of an encoded frame (O5), the round trip of a packet (O6), frames
that are cut, lengthened or corrupted (O7), chunking (O10), and the accumulator under WF_FEED (O11) and WF_FLUSH (O12). -/

namespace Sys2Proof.Machine

/-- An operation decodes by its op-select code, its operands read from the ports beside it (R96). -/
theorem decode_op {r : OpRequest} {code : Byte} (h : r.code = code) :
    decode (.op r) = .ok (decodeOp { r with code := code }) := by
  rw [← h]
  rfl

/-! ### Feeding in chunks -/

/-- Bytes fed together act as the same bytes fed one part after the other (R66, R113). -/
theorem feed_append (par : Params) : ∀ (a b rx : Bytes), feed par rx (a ++ b) =
    ((feed par rx a).1 ++ (feed par (feed par rx a).2 b).1, (feed par (feed par rx a).2 b).2)
  | [], _, _ => rfl
  | c :: a, b, rx => by
    by_cases hv : verdict par (rx ++ [c]) false = .error .truncated
    · simp only [List.cons_append, feed, hv, if_true]
      exact feed_append par a b (rx ++ [c])
    · simp only [List.cons_append, feed, hv, if_false, feed_append par a b []]

/-- Settles O10, by induction on the chunks: the first and the rest are fed together (`feed_append`). -/
theorem feedingIsIndependentOfChunking : Obligations.FeedingIsIndependentOfChunking := by
  intro par rx chunks
  induction chunks generalizing rx with
  | nil => rfl
  | cons c cs ih => rw [feedAll, ih, List.flatten_cons, feed_append]

/-! ### Whole and broken frames -/

/-- WF_DECODE answers the error the verdict finds (R112). -/
theorem execWfDecode_error {s : State} {b : Bytes} {e : ErrorCode} (hv : verdict s.par b true = .error e) :
    execWfDecode b s = .next (s.answer (.error e) .none) := by
  simp only [execWfDecode, hv]

section
variable {par : Params} {q : Packet} (hmax : par.maxPayload ≤ 65535) (hq : packetValid par q = true)
include hmax hq

/-- The frame of a valid packet holds exactly that packet (R115). -/
theorem verdict_frameOf : verdict par (frameOf par q) true = .packet q := by
  obtain ⟨hpay, hlen⟩ := (packetValid_iff hmax).mp hq
  exact verdict_rightCheck (f := packetBody q) hlen hpay

/-- A proper beginning of it is `Truncated` (R111). -/
theorem verdict_frameOf_take {n : Nat} (hn : n < (frameOf par q).length) :
    verdict par ((frameOf par q).take n) true = .error .truncated := by
  obtain ⟨hpay, hlen⟩ := (packetValid_iff hmax).mp hq
  rw [frameOf, List.length_append, frameBytes_length, checkBytes_length, ← Nat.add_assoc] at hn
  exact verdict_take par q.mbl q.crc (packetBody q) _ true n hlen hpay (checkBytes_length ..) hn

/-- With bytes after it, it is too long (R111 step 6). -/
theorem verdict_frameOf_append {extra : Bytes} (hx : extra ≠ []) :
    verdict par (frameOf par q ++ extra) true = .error .lengthMismatch := by
  obtain ⟨hpay, hlen⟩ := (packetValid_iff hmax).mp hq
  exact verdict_overlong par q.mbl q.crc (packetBody q) _ extra hlen hpay (checkBytes_length ..) hx

/-- Under any other check bytes of the right length it is `ChecksumInvalid` (R111 step 7). -/
theorem verdict_wrongCheck {k : Bytes} (hk : k.length = 1 + q.crc.toNat)
    (hne : k ≠ checkBytes par q.crc (frameBytes q.mbl q.crc (packetBody q))) :
    verdict par (frameBytes q.mbl q.crc (packetBody q) ++ k) true = .error .checksumInvalid := by
  obtain ⟨hpay, hlen⟩ := (packetValid_iff hmax).mp hq
  have hv := verdict_frame par q.mbl q.crc (packetBody q) k [] true hlen hpay hk fun _ => rfl
  rwa [List.append_nil, if_neg hne] at hv

end

/-- Settles O6: the frame is `frameOf`'s; in any split it is fed as one chunk (O10), which gives the packet. -/
theorem frameRoundTrip : Obligations.FrameRoundTrip := by
  intro s p q hmax hp hq
  refine ⟨frameOf s.par q, execWfEncode_valid hp hq, fun t ht => ?_, fun chunks hc => ?_⟩
  · rw [← ht] at hmax hq ⊢
    exact execWfDecode_packet (verdict_frameOf hmax hq)
  · rw [feedingIsIndependentOfChunking, hc, feed_frameOf hmax hq]

/-- Settles O7: WF_DECODE answers each of the three verdicts. -/
theorem brokenFramesAreRejected : Obligations.BrokenFramesAreRejected := by
  intro s q hmax hq
  exact ⟨fun n hn => execWfDecode_error (verdict_frameOf_take hmax hq hn),
    fun extra hx => execWfDecode_error (verdict_frameOf_append hmax hq hx),
    fun k hk hne => execWfDecode_error (verdict_wrongCheck hmax hq (hk.trans (checkBytes_length ..)) hne)⟩

/-! ### The frame byte by byte -/

/-- The operand of WF_ENCODE that constructs this packet. -/
def rawOf (q : Packet) : RawPacket :=
  { devid := q.devid.toNat, mbl := q.mbl.toNat, sqn := q.sqn.toNat, crc := q.crc.toNat, sec := q.sec.toNat,
    type := q.type.toNat, payload := q.payload }

/-- The fields of a packet are in range (R110, first line). -/
theorem rawOf_inRange (q : Packet) : (rawOf q).devid ≤ 127 ∧ (rawOf q).sqn ≤ 3 ∧ (rawOf q).crc ≤ 1 ∧
    (rawOf q).sec ≤ 1 ∧ (rawOf q).mbl ≤ 1 ∧ (rawOf q).type ≤ 255 :=
  ⟨Nat.le_of_lt_succ q.devid.isLt, Nat.le_of_lt_succ q.sqn.isLt, q.crc.toNat_le, q.sec.toNat_le, q.mbl.toNat_le,
    Nat.le_of_lt_succ q.type.isLt⟩

theorem toNat_beq_one {n : Nat} (h : n ≤ 1) : (n == 1).toNat = n := by
  interval_cases n <;> rfl

/-- An operand constructs a packet exactly when it is that packet's. -/
theorem toPacket?_eq_some {p : RawPacket} {q : Packet} : toPacket? p = some q ↔ p = rawOf q := by
  constructor
  · intro h
    unfold toPacket? at h
    split at h
    · next hrange =>
      obtain ⟨hdev, hsqn, hcrc, hsec, hmbl, htype⟩ := hrange
      cases h
      simp only [rawOf, toNat_beq_one hcrc, toNat_beq_one hsec, toNat_beq_one hmbl, BitVec.toNat_ofNat]
      rw [Nat.mod_eq_of_lt (by omega), Nat.mod_eq_of_lt (by omega), Nat.mod_eq_of_lt (by omega)]
    · cases h
  · rintro rfl
    rw [toPacket?, if_pos (rawOf_inRange q)]
    simp [rawOf]

theorem toPacket?_eq_none {p : RawPacket} : toPacket? p = none ↔
    ¬(p.devid ≤ 127 ∧ p.sqn ≤ 3 ∧ p.crc ≤ 1 ∧ p.sec ≤ 1 ∧ p.mbl ≤ 1 ∧ p.type ≤ 255) := by
  simp [toPacket?]

/-- `valid` of R14 in the operand's own numbers. -/
theorem packetValid_rawOf {par : Params} {q : Packet} : packetValid par q = true ↔
    (rawOf q).payload.length ≤ par.maxPayload ∧ ((rawOf q).mbl = 0 → (rawOf q).payload.length ≤ 255) := by
  cases hm : q.mbl <;> simp [packetValid, rawOf, hm]

theorem addrByte_eq_ofNat (m : Bool) (d : DevId) : addrByte m d = BitVec.ofNat 8 (m.toNat * 128 + d.toNat) := by
  revert d; cases m <;> decide +kernel

theorem ctrlByte_eq_ofNat (s c : Bool) (q : Seq) :
    ctrlByte 0 s c q = BitVec.ofNat 8 (s.toNat * 8 + c.toNat * 4 + q.toNat) := by
  revert s c q; decide +kernel

/-- `le16` by division (R12, R61). -/
theorem le16_eq_ofNat (v : BitVec 16) : le16 v = [BitVec.ofNat 8 (v.toNat % 256), BitVec.ofNat 8 (v.toNat / 256)] := by
  have hlow : v.extractLsb' 0 8 = BitVec.ofNat 8 (v.toNat % 256) := BitVec.eq_of_toNat_eq (by simp)
  have hhigh : v.extractLsb' 8 8 = BitVec.ofNat 8 (v.toNat / 256) :=
    BitVec.eq_of_toNat_eq (by simp [Nat.shiftRight_eq_div_pow])
  rw [le16, hlow, hhigh]

/-- The length field of a length that fits it (R82). -/
theorem lenField_eq_ofNat (m : Bool) {n : Nat} (h : n ≤ 65535) : lenField m n =
    if m.toNat = 0 then [BitVec.ofNat 8 n] else [BitVec.ofNat 8 (n % 256), BitVec.ofNat 8 (n / 256)] := by
  cases m
  · rfl
  · have hn : (BitVec.ofNat 16 n).toNat = n := Nat.mod_eq_of_lt (by omega)
    exact (le16_eq_ofNat _).trans (by rw [hn]; rfl)

theorem checkBytes_eq_ofNat (par : Params) (c : Bool) (b : Bytes) : checkBytes par c b =
    if c.toNat = 0 then [cksum8 par.cksumMode b] else
      [BitVec.ofNat 8 ((crc16 par.crcPoly par.crcInit b).toNat % 256),
       BitVec.ofNat 8 ((crc16 par.crcPoly par.crcInit b).toNat / 256)] := by
  cases c
  · rfl
  · exact le16_eq_ofNat _

/-- The bytes of a packet's frame before its check, field by field (R80 to R85). -/
theorem frameBytes_packetBody {q : Packet} (h : q.payload.length ≤ 65535) :
    frameBytes q.mbl q.crc (packetBody q) =
      [BitVec.ofNat 8 (q.mbl.toNat * 128 + q.devid.toNat)]
      ++ (if q.mbl.toNat = 0 then [BitVec.ofNat 8 q.payload.length]
          else [BitVec.ofNat 8 (q.payload.length % 256), BitVec.ofNat 8 (q.payload.length / 256)])
      ++ [BitVec.ofNat 8 (q.sec.toNat * 8 + q.crc.toNat * 4 + q.sqn.toNat), BitVec.ofNat 8 q.type.toNat]
      ++ q.payload := by
  rw [← addrByte_eq_ofNat, ← lenField_eq_ofNat q.mbl h, ← ctrlByte_eq_ofNat, BitVec.ofNat_toNat, BitVec.setWidth_eq]
  rfl

/-- WF_ENCODE refuses fields out of range (R110, first line). -/
theorem execWfEncode_outOfRange {s : State} {p : RawPacket} (hp : toPacket? p = none) :
    execWfEncode p s = .next (s.refuse .invalidPacket) := by
  simp only [execWfEncode, hp]

/-- WF_ENCODE refuses a packet that is not valid (R110, R14). -/
theorem execWfEncode_notValid {s : State} {p : RawPacket} {q : Packet} (hp : toPacket? p = some q)
    (hq : ¬ packetValid s.par q = true) : execWfEncode p s = .next (s.refuse .invalidPacket) := by
  simp only [execWfEncode, hp, encodePacket, if_neg hq]

/-- Settles O5: an operand is out of range, or a packet's that is or is not valid; a valid packet's frame is laid out
field by field. -/
theorem encodeLaysOutTheFrame : Obligations.EncodeLaysOutTheFrame := by
  refine ⟨fun r hr => decode_op hr, fun s p hmax => ?_⟩
  intro n body c check
  cases hp : toPacket? p with
  | none =>
    have hrange := toPacket?_eq_none.mp hp
    rw [if_neg (by tauto)]
    exact execWfEncode_outOfRange hp
  | some q =>
    obtain rfl := toPacket?_eq_some.mp hp
    by_cases hq : packetValid s.par q = true
    · obtain ⟨hpay, hlen⟩ := packetValid_rawOf.mp hq
      have hbody : frameBytes q.mbl q.crc (packetBody q) = body := frameBytes_packetBody (hpay.trans hmax)
      have hframe : frameOf s.par q = body ++ check := by
        rw [frameOf, hbody, checkBytes_eq_ofNat]
        rfl
      have hrange := rawOf_inRange q
      rw [if_pos (by tauto), ← hframe]
      exact execWfEncode_valid hp hq
    · have hnot := mt packetValid_rawOf.mpr hq
      rw [if_neg (by tauto)]
      exact execWfEncode_notValid hp hq

/-! ### The accumulator under WF_FEED and WF_FLUSH -/

theorem flushStatus_eq (n : Nat) : flushStatus n = if n > 0 then .error .truncated else .ok := by
  cases n <;> rfl

section
variable {s : State}

theorem execWfFeed_cp {i : DevId} {d : Device} (hr : s.par.role = .cp) (hd : s.dev i = some d) (b : Bytes) :
    execWfFeed i.toNat b s =
      .next ((s.setDev i (some { d with rxbuf := (feed s.par d.rxbuf b).2 })).answer .ok
        (.verdicts (feed s.par d.rxbuf b).1)) := by
  simp only [execWfFeed, hr, cpDevice_some hr hd]

theorem execWfFeed_pd (hr : s.par.role = .pd) (a : Nat) (b : Bytes) :
    execWfFeed a b s =
      .next ({ s with pdc := { s.pdc with rxbuf := (feed s.par s.pdc.rxbuf b).2 } }.answer .ok
        (.verdicts (feed s.par s.pdc.rxbuf b).1)) := by
  simp only [execWfFeed, hr]

theorem execWfFlush_cp {i : DevId} {d : Device} (hr : s.par.role = .cp) (hd : s.dev i = some d) :
    execWfFlush i.toNat s =
      .next ((s.setDev i (some { d with rxbuf := [] })).answer
        (if d.rxbuf.length > 0 then .error .truncated else .ok) (.count d.rxbuf.length)) := by
  simp only [execWfFlush, hr, cpDevice_some hr hd, flushStatus_eq]

theorem execWfFlush_pd (hr : s.par.role = .pd) (a : Nat) :
    execWfFlush a s =
      .next ({ s with pdc := { s.pdc with rxbuf := [] } }.answer
        (if s.pdc.rxbuf.length > 0 then .error .truncated else .ok) (.count s.pdc.rxbuf.length)) := by
  simp only [execWfFlush, hr, flushStatus_eq]

end

/-- Settles O11: WF_FEED on either role. -/
theorem feedFillsTheAccumulator : Obligations.FeedFillsTheAccumulator :=
  ⟨fun _ _ _ chunk hr hd => execWfFeed_cp hr hd chunk, fun _ a chunk hr => execWfFeed_pd hr a chunk⟩

/-- Settles O12: WF_FLUSH on either role, and the refusal of an unregistered device. -/
theorem flushEmptiesTheAccumulator : Obligations.FlushEmptiesTheAccumulator :=
  ⟨fun _ hc => decode_op hc,
   fun _ _ _ hr hd => execWfFlush_cp hr hd,
   fun _ _ hr hd => execWfFlush_refused (cpDevice_none hr hd) hr,
   fun _ a hr => execWfFlush_pd hr a⟩

end Sys2Proof.Machine
end

section
/-! Proofs of the family `41_secure_channel.md`: each operation of the secure channel (O13 to O20), unwrapping what was
wrapped (O21) or tampered with (O22, O38), each by equations of its procedure, and that a channel is established only
behind a verified cryptogram (O23), by the steps a channel can take in one instruction. -/

namespace Sys2Proof.Machine

/-! ### Parts of a payload -/

theorem slice_zero (b : Bytes) (n : Nat) : slice b 0 n = b.take n := by simp [slice]

theorem slice_to_end {b : Bytes} {m : Nat} (n : Nat) (h : b.length ≤ m) : slice b n m = b.drop n := by
  rw [slice, List.take_of_length_le (by simp; omega)]

/-! ### How an operation on a channel ends -/

section
variable {α : Type} {s : State} {f : α → Value} {g : Env → Sc → ScDone α} {out : Except Stop α} {v : α} {sc : Sc}
  {ns : List Note} {b : Bool} {x : ErrorCode} {o : Host.Outcome State Fault Refusal}

section
variable {i : DevId} {d : Device} (hr : s.par.role = .cp) (hd : s.dev i = some d)
include hr hd

/-- A channel operation of a CP whose procedure writes nothing. -/
theorem onCpChannel_kept (hg : g (s.cpEnv i) d.sc = { sc := d.sc, notes := [], drew := false, out := out })
    (ho : finish s s (stopOf out) [] [] (valueOf f out) .none = o) : onCpChannel s i.toNat f g = o := by
  have hself : (s.setDev i (some d)).setDrawn i ((s.setDev i (some d)).drawn i + 0) = s := by
    rw [State.setDev_self s hd, Nat.add_zero, State.setDrawn_self]
  simp only [onCpChannel, cpDevice_some hr hd, finishSc, hg, Bool.toNat_false, hself, ho]

/-- A channel operation of a CP whose procedure comes to its last line. -/
theorem onCpChannel_ok (hg : g (s.cpEnv i) d.sc = { sc := sc, notes := ns, drew := b, out := .ok v }) :
    onCpChannel s i.toNat f g =
      .next { (s.setDev i (some { d with sc := sc })).setDrawn i (s.drawn i + b.toNat) with
        result := some { status := .ok, frames := [], notes := ns, value := f v } } := by
  simp only [onCpChannel, cpDevice_some hr hd, finishSc, hg]
  rfl

/-- The same without a draw and without a value. -/
theorem onCpChannel_finished (hg : g (s.cpEnv i) d.sc = { sc := sc, notes := ns, drew := false, out := .ok v })
    (hv : f v = .none) :
    onCpChannel s i.toNat f g = .next ((s.setDev i (some { d with sc := sc })).finished [] ns) := by
  rw [onCpChannel_ok hr hd hg, Bool.toNat_false, Nat.add_zero, State.setDrawn_self_setDev, hv]
  rfl

/-- A channel operation of a CP whose procedure breaks a channel that was not broken (R149). -/
theorem onCpChannel_broken (hs : d.sc.state ≠ .broken) (hg : g (s.cpEnv i) d.sc = scBreakRaise i d.sc x) :
    onCpChannel s i.toNat f g =
      .next { s.setDev i (some { d with sc := { Sc.init with state := .broken } }) with
        result := some { status := .error x, frames := [], notes := [.scStatus i .broken], value := .none } } := by
  simp [onCpChannel, cpDevice_some hr hd, finishSc, hg, scBreakRaise, hs, stopOf, finish]

end

section
variable (hr : s.par.role = .pd)
include hr

/-- A channel operation of a PD whose procedure writes nothing. -/
theorem onPdChannel_kept (hg : g s.pdEnv s.pdc.sc = { sc := s.pdc.sc, notes := [], drew := false, out := out })
    (ho : finish s s (stopOf out) [] [] (valueOf f out) .none = o) : onPdChannel s f g = o := by
  simp only [onPdChannel, requirePd_pd hr, finishSc, hg, Bool.toNat_false, Nat.add_zero, State.setDrawn_self, ho]

/-- A channel operation of a PD whose procedure comes to its last line. -/
theorem onPdChannel_ok (hg : g s.pdEnv s.pdc.sc = { sc := sc, notes := ns, drew := b, out := .ok v }) :
    onPdChannel s f g =
      .next { s.setDrawn s.par.myAddr (s.drawn s.par.myAddr + b.toNat) with
        pdc := { s.pdc with sc := sc }
        result := some { status := .ok, frames := [], notes := ns, value := f v } } := by
  simp only [onPdChannel, requirePd_pd hr, finishSc, hg]
  rfl

/-- The same without a draw and without a value. -/
theorem onPdChannel_finished (hg : g s.pdEnv s.pdc.sc = { sc := sc, notes := ns, drew := false, out := .ok v })
    (hv : f v = .none) :
    onPdChannel s f g = .next ({ s with pdc := { s.pdc with sc := sc } }.finished [] ns) := by
  rw [onPdChannel_ok hr hg, Bool.toNat_false, Nat.add_zero, State.setDrawn_self, hv]
  rfl

/-- A channel operation of a PD whose procedure breaks a channel that was not broken (R149). -/
theorem onPdChannel_broken (hs : s.pdc.sc.state ≠ .broken)
    (hg : g s.pdEnv s.pdc.sc = scBreakRaise s.par.myAddr s.pdc.sc x) :
    onPdChannel s f g =
      .next { s with
        pdc := { s.pdc with sc := { Sc.init with state := .broken } }
        result := some { status := .error x, frames := [], notes := [.scStatus s.par.myAddr .broken],
                         value := .none } } := by
  simp [onPdChannel, requirePd_pd hr, finishSc, hg, scBreakRaise, hs, stopOf, finish]

theorem onChannel_pd (a : Nat) : onChannel s a f g = onPdChannel s f g := by
  simp only [onChannel, hr]

end

section
variable {i : DevId} {d : Device}
  (hsc : (s.par.role = .cp ∧ s.dev i = some d ∧ sc = d.sc) ∨ (s.par.role = .pd ∧ sc = s.pdc.sc))
include hsc

/-- A channel operation of either role whose procedure writes nothing. -/
theorem onChannel_kept (hg : ∀ id key, g ⟨s.par, id, key⟩ sc = { sc := sc, notes := [], drew := false, out := out })
    (ho : finish s s (stopOf out) [] [] (valueOf f out) .none = o) : onChannel s i.toNat f g = o := by
  obtain ⟨hr, hd, rfl⟩ | ⟨hr, rfl⟩ := hsc
  · exact (onChannel_cp hr _ _ _).trans (onCpChannel_kept hr hd (hg _ _) ho)
  · exact (onChannel_pd hr _).trans (onPdChannel_kept hr (hg _ _) ho)

/-- A channel operation of either role whose procedure breaks a channel that was not broken (R149). -/
theorem onChannel_broken (hs : sc.state ≠ .broken) (hg : ∀ id key, g ⟨s.par, id, key⟩ sc = scBreakRaise id sc x) :
    onChannel s i.toNat f g =
      if s.par.role = .cp then
        .next { s.setDev i (some { d with sc := { Sc.init with state := .broken } }) with
          result := some { status := .error x, frames := [], notes := [.scStatus i .broken], value := .none } }
      else
        .next { s with
          pdc := { s.pdc with sc := { Sc.init with state := .broken } }
          result := some { status := .error x, frames := [], notes := [.scStatus s.par.myAddr .broken],
                           value := .none } } := by
  obtain ⟨hr, hd, rfl⟩ | ⟨hr, rfl⟩ := hsc
  · rw [if_pos hr]
    exact (onChannel_cp hr _ _ _).trans (onCpChannel_broken hr hd hs (hg _ _))
  · rw [if_neg (by simp [hr])]
    exact (onChannel_pd hr _).trans (onPdChannel_broken hr hs (hg _ _))

end
end

/-! ### SC_RESET -/

theorem scResetDone_eq (e : Env) (sc : Sc) : scResetDone e sc =
    { sc := Sc.init, notes := if sc.state = .idle then [] else [.scStatus e.id .none], drew := false,
      out := .ok () } := by
  rw [scResetDone, scReset_sc, scReset_notes]

/-- Settles O13, by `scResetDone_eq` on either role. -/
theorem channelResetReturnsToIdle : Obligations.ChannelResetReturnsToIdle :=
  ⟨fun _ hc => decode_op hc,
   fun _ _ hr hd => onChannel_refused (cpDevice_none hr hd) hr _ _,
   fun _ _ _ hr hd => (onChannel_cp hr _ _ _).trans (onCpChannel_finished hr hd (scResetDone_eq _ _) rfl),
   fun _ _ hr => (onChannel_pd hr _).trans (onPdChannel_finished hr (scResetDone_eq _ _) rfl)⟩

/-! ### The CP's half of the handshake -/

theorem scCpBegin_eq (e : Env) (rnd : Bytes) {sc : Sc} (hs : sc.state = .idle) : scCpBegin e rnd sc =
    { sc := { sc with state := .challengeSent, rndCp := some rnd }, notes := [.scStatus e.id .pending], drew := true,
      out := .ok (rnd ++ e.par.cpCaps) } := by
  simp [scCpBegin, hs, setSc, proj]

theorem scCpBegin_wrongState (e : Env) (rnd : Bytes) {sc : Sc} (hs : sc.state ≠ .idle) :
    scCpBegin e rnd sc = scStop sc (.refuse .wrongState) := if_pos hs

/-- Settles O14, the draw being the device's next one (`drawBytes`). -/
theorem cpBeginDrawsAChallenge : Obligations.CpBeginDrawsAChallenge := by
  intro s i d hr hd
  refine ⟨fun hs => ⟨drawBytes i s.par.chalLen (s.drawn i), drawBytes_length _ _ _, ?_⟩, fun hs => ?_⟩
  · show execScCpBegin i.toNat s = _
    exact Eq.trans (onCpChannel_ok hr hd (scCpBegin_eq _ _ hs)) rfl
  · show execScCpBegin i.toNat s = _
    exact onCpChannel_kept hr hd (scCpBegin_wrongState _ _ hs) rfl

section
variable {e : Env} {p : Bytes} {sc : Sc}

theorem scCpVerify_wrongState (hs : sc.state ≠ .challengeSent) : scCpVerify e p sc = scStop sc (.refuse .wrongState) :=
  if_pos hs

theorem scCpVerify_malformed (hs : sc.state = .challengeSent) (hl : p.length ≠ e.par.chalLen + e.par.cryptoLen) :
    scCpVerify e p sc = scStop sc (.raise .malformedPayload) := by
  simp [scCpVerify, hs, hl]

theorem scCpVerify_noKey (hs : sc.state = .challengeSent) (hl : p.length = e.par.chalLen + e.par.cryptoLen)
    (hk : e.key = none) : scCpVerify e p sc = scBreakRaise e.id sc .noKey := by
  simp [scCpVerify, hs, hl, hk]

/-- Verifying with a key compares the rest of the payload with the cryptogram over its first `CHAL_LEN` bytes (R144). -/
theorem scCpVerify_compares {k rcp : Bytes} (hs : sc.state = .challengeSent)
    (hl : p.length = e.par.chalLen + e.par.cryptoLen) (hk : e.key = some k) (hrcp : sc.rndCp = some rcp) :
    scCpVerify e p sc =
      if p.drop e.par.chalLen = cgramPd e.par k rcp (p.take e.par.chalLen) then
        { sc := { state := .challengeReceived, rndCp := some rcp, rndPd := some (p.take e.par.chalLen),
                  sEnc := some (kdfEnc e.par k rcp (p.take e.par.chalLen)),
                  sMac := some (kdfMac e.par k rcp (p.take e.par.chalLen)) },
          notes := [], drew := false, out := .ok () }
      else scBreakRaise e.id sc .cryptogramInvalid := by
  simp only [scCpVerify, hs, hl, hk, hrcp, slice_zero, slice_to_end _ hl.le, ne_eq, not_true_eq_false, if_false,
    ite_not]
  rfl

end

/-- Settles O15, a case of `scCpVerify` at a time. -/
theorem cpVerifyDerivesTheKeysOrBreaks : Obligations.CpVerifyDerivesTheKeysOrBreaks := by
  refine ⟨fun _ hc => decode_op hc, fun s i d p hr hd => ?_⟩
  refine ⟨fun hs => ?_, fun hs => ⟨fun hl => ?_, fun hl => ⟨fun hk => ?_,
    fun k rcp hk hrcp => ⟨fun hcg => ?_, fun hcg => ?_⟩⟩⟩⟩
  · show execScCpVerify i.toNat p s = _
    exact onCpChannel_kept hr hd (scCpVerify_wrongState hs) rfl
  · show execScCpVerify i.toNat p s = _
    exact onCpChannel_kept hr hd (scCpVerify_malformed hs hl) rfl
  · show execScCpVerify i.toNat p s = _
    exact onCpChannel_broken hr hd (by simp [hs]) (scCpVerify_noKey hs hl hk)
  · show execScCpVerify i.toNat p s = _
    exact onCpChannel_finished hr hd ((scCpVerify_compares hs hl hk hrcp).trans (if_pos hcg)) rfl
  · show execScCpVerify i.toNat p s = _
    exact onCpChannel_broken hr hd (by simp [hs]) ((scCpVerify_compares hs hl hk hrcp).trans (if_neg hcg))

section
variable {e : Env} {sc : Sc}

theorem scCpConfirm_wrongState (hs : sc.state ≠ .challengeReceived) :
    scCpConfirm e sc = scStop sc (.refuse .wrongState) := if_pos hs

theorem scCpConfirm_noKey (hs : sc.state = .challengeReceived) (hk : e.key = none) :
    scCpConfirm e sc = scBreakRaise e.id sc .noKey := by
  simp [scCpConfirm, hs, hk]

theorem scCpConfirm_eq {k rcp rpd : Bytes} (hs : sc.state = .challengeReceived) (hk : e.key = some k)
    (hrcp : sc.rndCp = some rcp) (hrpd : sc.rndPd = some rpd) :
    scCpConfirm e sc = { sc := sc, notes := [], drew := false, out := .ok (cgramCp e.par k rcp rpd) } := by
  simp [scCpConfirm, hs, hk, hrcp, hrpd]

theorem scCpFinish_wrongState (hs : sc.state ≠ .challengeReceived) :
    scCpFinish e sc = scStop sc (.refuse .wrongState) := if_pos hs

theorem scCpFinish_eq (hs : sc.state = .challengeReceived) : scCpFinish e sc =
    { sc := { sc with state := .established }, notes := [.scStatus e.id .established], drew := false,
      out := .ok () } := by
  simp [scCpFinish, hs, setSc, proj]

end

/-- Settles O16, a case of `scCpConfirm` and of `scCpFinish` at a time. -/
theorem cpConfirmThenFinish : Obligations.CpConfirmThenFinish := by
  refine ⟨fun _ => ⟨decode_op, decode_op⟩, fun s i d hr hd => ⟨fun hs => ⟨?_, ?_⟩,
    fun hs => ⟨fun k rcp rpd hk hrcp hrpd => ?_, fun hk => ?_, ?_⟩⟩⟩
  · exact onCpChannel_kept hr hd (scCpConfirm_wrongState hs) rfl
  · exact onCpChannel_kept hr hd (scCpFinish_wrongState hs) rfl
  · exact onCpChannel_kept hr hd (scCpConfirm_eq hs hk hrcp hrpd) rfl
  · exact onCpChannel_broken hr hd (by simp [hs]) (scCpConfirm_noKey hs hk)
  · exact onCpChannel_finished hr hd (scCpFinish_eq hs) rfl

/-! ### The PD's half of the handshake -/

section
variable {e : Env} {rnd p : Bytes} {sc : Sc}

theorem scPdChallenge_malformed (hl : p.length ≠ e.par.chalLen + e.par.capsLen) :
    scPdChallenge e rnd p sc = scStop sc (.raise .malformedPayload) := if_pos hl

theorem scPdChallenge_noKey (hl : p.length = e.par.chalLen + e.par.capsLen) (hk : e.key = none) :
    scPdChallenge e rnd p sc = scStop sc (.raise .noKey) := by
  simp [scPdChallenge, hl, hk]

theorem scPdChallenge_eq {k rcp caps : Bytes} (hk : e.key = some k) (hrcp : rcp.length = e.par.chalLen)
    (hcaps : caps.length = e.par.capsLen) : scPdChallenge e rnd (rcp ++ caps) sc =
      { sc := { state := .challengeSent, rndCp := some rcp, rndPd := some rnd, sEnc := some (kdfEnc e.par k rcp rnd),
                sMac := some (kdfMac e.par k rcp rnd) },
        notes := (if sc.state = .idle then [] else [.scStatus e.id .none]) ++ [.scStatus e.id .pending],
        drew := true, out := .ok (rnd ++ cgramPd e.par k rcp rnd) } := by
  have htake : (rcp ++ caps).take e.par.chalLen = rcp := List.take_left' hrcp
  simp [scPdChallenge, hrcp, hcaps, hk, slice_zero, htake, setSc, proj, Sc.init]

theorem scPdVerify_notSent (hs : sc.state ≠ .challengeSent) :
    scPdVerify e p sc = scStop sc (.raise .notEstablished) := if_pos hs

theorem scPdVerify_malformed (hs : sc.state = .challengeSent) (hl : p.length ≠ e.par.cryptoLen) :
    scPdVerify e p sc = scStop sc (.raise .malformedPayload) := by
  simp [scPdVerify, hs, hl]

theorem scPdVerify_noKey (hs : sc.state = .challengeSent) (hl : p.length = e.par.cryptoLen) (hk : e.key = none) :
    scPdVerify e p sc = scBreakRaise e.id sc .noKey := by
  simp [scPdVerify, hs, hl, hk]

/-- Verifying with a key compares the payload with the cryptogram over both challenges (R148). -/
theorem scPdVerify_compares {k rcp rpd : Bytes} (hs : sc.state = .challengeSent) (hl : p.length = e.par.cryptoLen)
    (hk : e.key = some k) (hrcp : sc.rndCp = some rcp) (hrpd : sc.rndPd = some rpd) :
    scPdVerify e p sc =
      if p = cgramCp e.par k rcp rpd then
        { sc := { sc with state := .established }, notes := [.scStatus e.id .established], drew := false,
          out := .ok () }
      else scBreakRaise e.id sc .cryptogramInvalid := by
  simp [scPdVerify, hs, hl, hk, hrcp, hrpd, setSc, proj]

end

/-- Settles O17, a case of `scPdChallenge` at a time, the draw being the PD's next one. -/
theorem pdChallengeAnswersInEveryState : Obligations.PdChallengeAnswersInEveryState := by
  refine fun s hr => ⟨fun p hl => ?_, fun p hl hk => ?_, fun k rcp caps hk hrcp hcaps =>
    ⟨drawBytes s.par.myAddr s.par.chalLen (s.drawn s.par.myAddr), drawBytes_length _ _ _, ?_⟩⟩
  · show execScPdChallenge _ s = _
    exact onPdChannel_kept hr (scPdChallenge_malformed hl) rfl
  · show execScPdChallenge _ s = _
    exact onPdChannel_kept hr (scPdChallenge_noKey hl hk) rfl
  · show execScPdChallenge _ s = _
    exact Eq.trans (onPdChannel_ok hr (scPdChallenge_eq hk hrcp hcaps)) rfl

/-- Settles O18, a case of `scPdVerify` at a time. -/
theorem pdVerifyEstablishesOrBreaks : Obligations.PdVerifyEstablishesOrBreaks := by
  refine ⟨fun _ hc => decode_op hc, fun s p hr => ⟨fun hs => ?_, fun hs hl => ?_,
    fun k rcp rpd hs hl hk hrcp hrpd => ⟨fun hcg => ?_, fun hcg => ?_⟩, fun hs hl hk => ?_⟩⟩
  · show execScPdVerify p s = _
    exact onPdChannel_kept hr (scPdVerify_notSent hs) rfl
  · show execScPdVerify p s = _
    exact onPdChannel_kept hr (scPdVerify_malformed hs hl) rfl
  · show execScPdVerify p s = _
    exact onPdChannel_finished hr ((scPdVerify_compares hs hl hk hrcp hrpd).trans (if_pos hcg)) rfl
  · show execScPdVerify p s = _
    exact onPdChannel_broken hr (by simp [hs]) ((scPdVerify_compares hs hl hk hrcp hrpd).trans (if_neg hcg))
  · show execScPdVerify p s = _
    exact onPdChannel_broken hr (by simp [hs]) (scPdVerify_noKey hs hl hk)

/-! ### Wrapping and unwrapping -/

section
variable {e : Env} {par : Params} {sc : Sc} {p ke km : Bytes}

theorem scWrap_notEstablished (hs : sc.state ≠ .established) : scWrap par p sc = .error (.raise .notEstablished) :=
  if_pos hs

theorem scWrapDone_eq {out : Except Stop Bytes} (h : scWrap e.par p sc = out) :
    scWrapDone p e sc = { sc := sc, notes := [], drew := false, out := out } := by rw [scWrapDone, h]

theorem seals_of_keys (hs : sc.state = .established) (he : sc.sEnc = some ke) (hm : sc.sMac = some km) :
    Seals par sc true p (enc par ke p ++ mac par km (enc par ke p)) := .inr ⟨rfl, hs, ke, km, he, hm, rfl⟩

theorem scUnwrap_notEstablished (hs : sc.state ≠ .established) :
    scUnwrap e p sc = scStop sc (.raise .notEstablished) := if_pos hs

theorem scUnwrap_short (hs : sc.state = .established) (hl : p.length < e.par.macLen) :
    scUnwrap e p sc = scBreakRaise e.id sc .macInvalid := by
  simp [scUnwrap, hs, hl]

/-- A payload whose last `MAC_LEN` bytes are the tag of the rest opens (R151). -/
theorem scUnwrap_rightTag (hs : sc.state = .established) (he : sc.sEnc = some ke) (hm : sc.sMac = some km)
    (hl : e.par.macLen ≤ p.length)
    (ht : p.drop (p.length - e.par.macLen) = mac e.par km (p.take (p.length - e.par.macLen))) :
    scUnwrap e p sc = { sc := sc, notes := [], drew := false,
                        out := .ok (dec e.par ke (p.take (p.length - e.par.macLen))) } := by
  simp only [scUnwrap, hs, he, hm, Nat.not_lt.mpr hl, slice_zero, slice_to_end _ le_rfl, ht, ne_eq, not_true_eq_false,
    if_false]

end

/-- Settles O19, a case of `scWrap` at a time. -/
theorem wrapSealsThePayload : Obligations.WrapSealsThePayload := by
  refine ⟨fun _ hc => decode_op hc, fun s i d sc p hsc => ⟨fun hs => ?_,
    fun ke km hs he hm => ⟨fun hl => ?_, fun hl => ?_⟩⟩⟩
  · exact onChannel_kept hsc (fun _ _ => scWrapDone_eq (scWrap_notEstablished hs)) rfl
  · exact onChannel_kept hsc (fun _ _ => scWrapDone_eq (scWrap_seals (seals_of_keys hs he hm) hl)) rfl
  · exact onChannel_kept hsc (fun _ _ => scWrapDone_eq (scWrap_seals_long (seals_of_keys hs he hm) hl)) rfl

/-- Settles O20, a case of `scUnwrap` at a time. -/
theorem unwrapVerifiesThenDecrypts : Obligations.UnwrapVerifiesThenDecrypts := by
  refine ⟨fun _ hc => decode_op hc, fun s i d sc w hsc => ⟨fun hs => ?_, fun hs hl => ?_,
    fun ke km hs he hm hl => ⟨fun ht => ?_, fun ht => ?_⟩⟩⟩
  · show execScUnwrap i.toNat w s = _
    exact onChannel_kept hsc (fun _ _ => scUnwrap_notEstablished hs) rfl
  · show execScUnwrap i.toNat w s = _
    exact onChannel_broken hsc (by simp [hs]) fun _ _ => scUnwrap_short hs hl
  · show execScUnwrap i.toNat w s = _
    exact onChannel_kept hsc (out := .ok (dec s.par ke _)) (fun _ _ => scUnwrap_rightTag hs he hm hl ht) rfl
  · show execScUnwrap i.toNat w s = _
    exact onChannel_broken hsc (by simp [hs]) fun _ _ => scUnwrap_bad hs he hm (.inr ht)

/-- Settles O21: what `Seals` describes `Opens` describes too, and decrypting gives back the plaintext (`PDecEnc`). -/
theorem unwrapRecoversWhatWasWrapped : Obligations.UnwrapRecoversWhatWasWrapped := by
  intro s i d sc ke km p hok hdec hsc hs he hm
  have hopens : Opens s.par sc true (enc s.par ke p ++ mac s.par km (enc s.par ke p)) p :=
    .inr ⟨rfl, hs, ke, km, _, he, hm, rfl, (hdec ke p).symm⟩
  show execScUnwrap i.toNat _ s = _
  exact onChannel_kept hsc (fun _ _ => scUnwrap_opens hok hopens) rfl

/-! ### Tampering -/

/-- A change of one byte of a wrapped payload makes its tag wrong: one of the ciphertext by `P_MAC_1BYTE`, one of the
tag since the ciphertext stays (R156). -/
theorem tag_wrong_of_changed_byte {par : Params} {km c pre suf : Bytes} {b b' : Byte} (hok : paramsOk par = true)
    (hw : c ++ mac par km c = pre ++ [b] ++ suf) (hne : b ≠ b') (hmac : pre.length < c.length → PMac1Byte par) :
    let w := pre ++ [b'] ++ suf
    w.drop (w.length - par.macLen) ≠ mac par km (w.take (w.length - par.macLen)) := by
  have htag : (mac par km c).length = par.macLen := mac_length hok km c
  have hlen : (pre ++ [b'] ++ suf).length - par.macLen = c.length := by
    have := congrArg List.length hw
    simp only [List.length_append, List.length_singleton] at this ⊢
    omega
  dsimp only
  rw [hlen]
  have intag {rest : Bytes} (hpre : pre = c ++ rest) (hm : mac par km c = rest ++ [b] ++ suf) :
      (pre ++ [b'] ++ suf).drop c.length ≠ mac par km ((pre ++ [b'] ++ suf).take c.length) := by
    simpa [hpre, hm] using hne.symm
  rw [List.append_assoc] at hw
  obtain ⟨rest, hpre, hm⟩ | ⟨rest, hc, hrest⟩ := List.append_eq_append_iff.mp hw
  · exact intag hpre (by simpa using hm)
  · obtain ⟨rfl, hm⟩ | ⟨rest, rfl, hsuf⟩ := List.append_eq_cons_iff.mp hrest.symm
    · exact intag (rest := []) (by simpa using hc.symm) (by simpa using hm)
    · have hdiff := hmac (by simp [hc]) km pre rest b b' hne
      have hsuf : suf = rest ++ mac par km c := hsuf
      have hsplit : pre ++ [b'] ++ suf = (pre ++ [b'] ++ rest) ++ mac par km c := by simp [hsuf]
      have hclen : c.length = (pre ++ [b'] ++ rest).length := by simp [hc]
      rw [hsplit, hclen, List.drop_left, List.take_left]
      simpa [hc] using hdiff

/-- Settles O22, by `tag_wrong_of_changed_byte`. -/
theorem tamperingBreaksTheChannel : Obligations.TamperingBreaksTheChannel := by
  intro s i sc ke km p pre suf b b' hok hs he hm hw hne hmac
  have hbad id key : scUnwrap ⟨s.par, id, key⟩ (pre ++ [b'] ++ suf) sc = scBreakRaise id sc .macInvalid :=
    scUnwrap_bad hs he hm (.inr (tag_wrong_of_changed_byte hok hw hne hmac))
  refine ⟨fun d hr hd hsc => ?_, fun hr hsc => ?_⟩
  · show execScUnwrap i.toNat _ s = _
    subst hsc
    exact (onChannel_cp hr _ _ _).trans (onCpChannel_broken hr hd (by simp [hs]) (hbad _ _))
  · show execScUnwrap i.toNat _ s = _
    subst hsc
    exact (onChannel_pd hr _).trans (onPdChannel_broken hr (by simp [hs]) (hbad _ _))

/-! ### A bad tag on receipt -/

/-- A secure reply without an established channel is only reported (R191, R197). -/
theorem acceptReply_notEstablished {e : Env} {w : Work Device} {sl : Slot} {q : Packet} (hid : q.devid = e.id)
    (hslot : w.ctx.slot = some sl) (hsec : q.sec = true) (hs : w.ctx.sc.state ≠ .established) :
    acceptReply e q w = (w.note (.error e.id .notEstablished)).done := by
  simp only [acceptReply, hid, hslot, hsec, scUnwrap_notEstablished hs, scStop, absorbSc, ne_eq, not_true_eq_false,
    if_false, if_true, Bool.toNat_false, Nat.add_zero, List.append_nil]
  rw [← hslot]

/-- A secure reply with a wrong tag breaks the channel and drops the command in flight (R191, R197). -/
theorem acceptReply_badTag {e : Env} {w : Work Device} {sl : Slot} {q : Packet} (hid : q.devid = e.id)
    (hslot : w.ctx.slot = some sl) (hsec : q.sec = true)
    (hbad : scUnwrap e q.payload w.ctx.sc = scBreakRaise e.id w.ctx.sc .macInvalid) (hs : w.ctx.sc.state ≠ .broken) :
    acceptReply e q w = Work.done { w with
      ctx := { w.ctx with
        sc := { Sc.init with state := .broken }, dstate := .secureHandshake, seq := 0, slot := none, retxp := false,
        resync := false, deadline := none }
      notes := w.notes ++ [.scStatus e.id .broken, .error e.id .macInvalid,
        .commandFailed e.id sl.type (.error .macInvalid)] } := by
  simp [acceptReply, hid, hslot, hsec, hbad, scBreakRaise, absorbSc, hs, channelBroken, Work.note]

/-- A frame that holds a valid packet, received by a device that is not offline, is handled as that packet (R190). -/
theorem execDevRx_frameOf {s : State} {i : DevId} {d : Device} {q : Packet} (hr : s.par.role = .cp)
    (hd : s.dev i = some d) (hmax : s.par.maxPayload ≤ 65535) (hq : packetValid s.par q = true)
    (hon : d.dstate ≠ .offline) (hrx : d.rxbuf = []) : execDevRx i.toNat (frameOf s.par q) s =
      finishDev s i (acceptReply (s.cpEnv i) q (Work.start d (s.drawn i))) := by
  have hrun : devRx (s.cpEnv i) (frameOf s.par q) (Work.start d (s.drawn i)) =
      acceptReply (s.cpEnv i) q (Work.start d (s.drawn i)) :=
    (devRx_packet hrx (feed_frameOf hmax hq)).trans (if_neg hon)
  rw [execDevRx, onDevice_some hr hd, hrun]

/-- Settles O38, by the two cases of `acceptReply` on a packet that does not open. -/
theorem badTagBreaksTheChannelOnReceipt : Obligations.BadTagBreaksTheChannelOnReceipt := by
  intro s i d sl q hr hd hmax hq hon hrx hslot hid hsec
  have hrun := execDevRx_frameOf hr hd hmax hq hon hrx
  refine ⟨fun hs => ?_, fun ke km hs he hm hbad => ?_⟩
  · refine hrun.trans ?_
    rw [acceptReply_notEstablished hid hslot hsec hs, finishDev_done]
    simp [State.setDev_self s hd]
  · refine hrun.trans ?_
    rw [acceptReply_badTag hid hslot hsec (scUnwrap_bad hs he hm hbad) (by simp [hs]), finishDev_done]
    simp

/-! ### What can happen to the channel of a CP's device -/

/-- From `sc` to `sc'` while the payloads `brought` arrive: nothing; the PD's cryptogram verified (R144); the handshake
finished (R146); or any end in which the channel is neither established nor verified. -/
inductive CpScStep (e : Env) (brought : List Bytes) (sc sc' : Sc) : Prop where
  | kept (h : sc' = sc)
  | verified (hs : sc.state = .challengeSent) (k rcp rpd : Bytes) (hk : e.key = some k) (hrcp : sc.rndCp = some rcp)
      (hlen : rpd.length = e.par.chalLen) (hb : rpd ++ cgramPd e.par k rcp rpd ∈ brought)
      (h : sc' = { state := .challengeReceived, rndCp := some rcp, rndPd := some rpd,
                   sEnc := some (kdfEnc e.par k rcp rpd), sMac := some (kdfMac e.par k rcp rpd) })
  | finished (hs : sc.state = .challengeReceived) (h : sc' = { sc with state := .established })
  | down (hest : sc'.state ≠ .established) (hrec : sc'.state ≠ .challengeReceived)

section
variable {e : Env} {brought : List Bytes} {sc : Sc}

theorem CpScStep.init : CpScStep e brought sc Sc.init := .down (by simp [Sc.init]) (by simp [Sc.init])

theorem CpScStep.broken : CpScStep e brought sc { Sc.init with state := .broken } := .down (by simp) (by simp)

theorem CpScStep.of_kept_or_broken {sc' : Sc} (h : sc' = sc ∨ sc' = { Sc.init with state := .broken }) :
    CpScStep e brought sc sc' := by
  obtain rfl | rfl := h
  · exact .kept rfl
  · exact .broken

/-- What unwrapping does: on an established channel it opens the payload and writes nothing, it stops with nothing
written, raising no error but `NotEstablished`, or it breaks the channel (R151). -/
theorem scUnwrap_ends (e : Env) (p : Bytes) (sc : Sc) :
    (∃ pay, sc.state = .established ∧ scUnwrap e p sc = { sc := sc, notes := [], drew := false, out := .ok pay }) ∨
    (∃ st, (∀ c, st = .raise c → c = .notEstablished) ∧ scUnwrap e p sc = scStop sc st) ∨
    scUnwrap e p sc = scBreakRaise e.id sc .macInvalid := by
  unfold scUnwrap
  split
  · exact .inr (.inl ⟨_, by simp, rfl⟩)
  rename_i hs
  split
  · exact .inr (.inr rfl)
  split
  · dsimp only
    split
    · exact .inr (.inr rfl)
    · exact .inl ⟨_, by simpa using hs, rfl⟩
  · exact .inr (.inl ⟨_, by simp, rfl⟩)

/-- Unwrapping writes nothing unless it breaks the channel (R151). -/
theorem scUnwrap_sc (e : Env) (p : Bytes) (sc : Sc) :
    (scUnwrap e p sc).sc = sc ∨ (scUnwrap e p sc).sc = { Sc.init with state := .broken } := by
  obtain ⟨pay, -, h⟩ | ⟨st, -, h⟩ | h := scUnwrap_ends e p sc
  · exact .inl (by rw [h])
  · exact .inl (by rw [h]; rfl)
  · exact .inr (by rw [h]; rfl)

/-- Confirming writes nothing unless it breaks the channel (R145). -/
theorem scCpConfirm_sc (e : Env) (sc : Sc) :
    (scCpConfirm e sc).sc = sc ∨ (scCpConfirm e sc).sc = { Sc.init with state := .broken } := by
  unfold scCpConfirm
  split
  · exact .inl rfl
  split
  · exact .inr rfl
  split
  · exact .inl rfl
  · exact .inl rfl

theorem scCpBegin_step (rnd : Bytes) : CpScStep e brought sc (scCpBegin e rnd sc).sc := by
  unfold scCpBegin
  split
  · exact .kept rfl
  · exact .down (by simp) (by simp)

theorem scCpFinish_step : CpScStep e brought sc (scCpFinish e sc).sc := by
  unfold scCpFinish
  split
  · exact .kept rfl
  · rename_i hs
    exact .finished (by simpa using hs) rfl

/-- What verifying a payload does: it stops with nothing written, raising no error but `MalformedPayload`, it breaks the
channel, or it found the right cryptogram (R144). -/
theorem scCpVerify_ends {p : Bytes} (hp : p ∈ brought ∨ sc.state ≠ .challengeSent) :
    (∃ st, (∀ c, st = .raise c → c = .malformedPayload) ∧ scCpVerify e p sc = scStop sc st) ∨
    (∃ c, c ≠ .malformedPayload ∧ scCpVerify e p sc = scBreakRaise e.id sc c) ∨
    (CpScStep e brought sc (scCpVerify e p sc).sc ∧ (scCpVerify e p sc).out = .ok ()) := by
  unfold scCpVerify
  split
  · exact .inl ⟨_, by simp, rfl⟩
  rename_i hs
  have hs : sc.state = .challengeSent := by simpa using hs
  split
  · exact .inl ⟨_, by simp, rfl⟩
  rename_i hl
  split
  · exact .inr (.inl ⟨.noKey, by simp, rfl⟩)
  rename_i k hk
  split
  · exact .inl ⟨_, by simp, rfl⟩
  rename_i rcp hrcp
  dsimp only
  split
  · exact .inr (.inl ⟨.cryptogramInvalid, by simp, rfl⟩)
  rename_i hcg
  have hpay : slice p 0 e.par.chalLen ++ cgramPd e.par k rcp (slice p 0 e.par.chalLen) = p := by
    rw [← not_not.mp hcg, slice_zero, slice_to_end _ (not_not.mp hl).le, List.take_append_drop]
  refine .inr (.inr ⟨.verified hs k rcp _ hk hrcp ?_ (hpay.symm ▸ hp.resolve_right (by simp [hs])) ?_, rfl⟩)
  · rw [slice_zero, List.length_take]
    omega
  · simp [hrcp]

end

/-! ### The CP's device procedures -/

section
variable {e : Env} {brought : List Bytes} {sc : Sc} {w : Work Device}

@[simp] theorem xmit_sc (e : Env) (now : Time) (w : Work Device) : (xmit e now w).work.ctx.sc = w.ctx.sc := by
  cases hs : w.ctx.slot with
  | none => simp [xmit, hs]
  | some sl =>
    obtain ⟨f, hx⟩ | ⟨st, hx, -⟩ := xmit_cases (e := e) (now := now) hs
    · simp [hx]
    · simp [hx]

@[simp] theorem send_sc (e : Env) (now : Time) (t : Byte) (p : Bytes) (w : Work Device) :
    (send e now t p w).work.ctx.sc = w.ctx.sc := xmit_sc _ _ _

theorem awaiting_step (now : Time) : CpScStep e brought w.ctx.sc (awaiting e now w).work.ctx.sc := by
  unfold awaiting
  split
  · exact .kept (xmit_sc _ _ _)
  split
  · by_cases hr : w.ctx.retry + 1 < e.par.retryMax
    · rw [boundedRetry_left hr]
      exact .kept (xmit_sc _ _ _)
    · rw [boundedRetry_spent (Nat.not_lt.mp hr)]
      exact .init
  · exact .kept rfl

theorem tickPolling_sc (e : Env) (now : Time) (w : Work Device) :
    (tickPolling e now w).work.ctx.sc = w.ctx.sc := by
  unfold tickPolling
  split
  · rfl
  · rename_i w1 c hp
    obtain ⟨⟨q, hctx, -⟩, -⟩ := pickCommand_cases hp
    refine Done.andThen_work (P := fun w' : Work Device => w'.ctx.sc = w.ctx.sc) ?_ fun _ h => h
    rw [send_sc, hctx]

theorem tickChallenge_sc (e : Env) (now : Time) (w : Work Device) : (tickChallenge e now w).work.ctx.sc =
    (scCpBegin e (drawBytes e.id e.par.chalLen w.draws) w.ctx.sc).sc := by
  unfold tickChallenge
  dsimp only
  split
  · rw [send_sc]; rfl
  · rfl

theorem tickConfirm_sc (e : Env) (now : Time) (w : Work Device) :
    (tickConfirm e now w).work.ctx.sc = (scCpConfirm e w.ctx.sc).sc := by
  unfold tickConfirm
  dsimp only
  split
  · rw [send_sc]; rfl
  · simp
  · rfl

theorem tickHandshake_step (now : Time) : CpScStep e brought w.ctx.sc (tickHandshake e now w).work.ctx.sc := by
  unfold tickHandshake
  split
  · exact awaiting_step now
  by_cases hb : w.ctx.sc.state = .broken
  · have hstate : (cpScReset e w).ctx.sc.state = .idle := by rw [cpScReset_eq]; rfl
    simp only [hb, if_true, hstate, tickChallenge_sc]
    rw [show (cpScReset e w).ctx.sc = Sc.init by rw [cpScReset_eq]]
    exact .down (by simp [scCpBegin, Sc.init]) (by simp [scCpBegin, Sc.init])
  · rw [if_neg hb]
    dsimp only
    split
    · rw [tickChallenge_sc]
      exact scCpBegin_step _
    · rw [tickConfirm_sc]
      exact .of_kept_or_broken (scCpConfirm_sc _ _)
    · exact .kept rfl
    · exact .kept rfl
    · exact .kept rfl

theorem devTick_step (now : Time) : CpScStep e brought w.ctx.sc (devTick e now w).work.ctx.sc := by
  unfold devTick
  split
  · exact .kept rfl
  · exact .kept (tickPolling_sc _ _ _)
  · exact awaiting_step now
  · exact tickHandshake_step now

theorem devStart_step : CpScStep e brought w.ctx.sc (devStart e w).work.ctx.sc := by
  unfold devStart
  split
  · exact .kept rfl
  · exact .init

theorem devScStart_step : CpScStep e brought w.ctx.sc (devScStart e w).work.ctx.sc := by
  unfold devScStart
  split
  · exact .kept rfl
  split
  · exact .kept rfl
  · exact .init

/-! ### Replies

A reply that changes the channel takes the command out of the slot, and without a command in flight no further reply is
looked at (R191): of several replies in one chunk at most one moves the handshake on. -/

/-- The channel is still `sc`, or has taken its one step and no command is in flight. -/
def Device.AfterReplies (e : Env) (brought : List Bytes) (sc : Sc) (d : Device) : Prop :=
  d.sc = sc ∨ d.slot = none ∧ CpScStep e brought sc d.sc

theorem Device.AfterReplies.step {d : Device} (h : d.AfterReplies e brought sc) : CpScStep e brought sc d.sc := by
  obtain h | ⟨-, h⟩ := h
  · exact .kept h
  · exact h

theorem unexpected_afterReplies (c : ErrorCode) : (unexpected e c w).ctx.AfterReplies e brought w.ctx.sc := by
  unfold unexpected
  by_cases hr : w.ctx.retry + 1 < e.par.retryMax
  · rw [boundedRetry_left (w := w.note _) hr]
    exact .inl rfl
  · rw [boundedRetry_spent (w := w.note _) (Nat.not_lt.mp hr)]
    exact .inr ⟨rfl, .init⟩

theorem desync_afterReplies : (desync e w).ctx.AfterReplies e brought w.ctx.sc := by
  unfold desync
  dsimp only
  split
  · exact .inr ⟨rfl, .init⟩
  · exact .inl rfl

/-- The channel broken by a procedure, and the exchange given up (R197). -/
theorem channelBroken_afterReplies {α : Type} (c x : ErrorCode) :
    (channelBroken e c ((absorbSc w (scBreakRaise (α := α) e.id w.ctx.sc x)).note (.error e.id c))).ctx.AfterReplies e
      brought w.ctx.sc :=
  .inr ⟨by simp, by simpa [scBreakRaise] using .broken⟩

theorem onCcrypt_afterReplies (sl : Slot) {pay : Bytes} (hp : pay ∈ brought ∨ w.ctx.sc.state ≠ .challengeSent) :
    (onCcrypt e sl pay w).work.ctx.AfterReplies e brought w.ctx.sc := by
  unfold onCcrypt
  dsimp only
  obtain ⟨st, hst, hx⟩ | ⟨c, hc, hx⟩ | ⟨hstep, hout⟩ := scCpVerify_ends (e := e) hp
  · rw [hx]
    cases st with
    | raise c =>
      obtain rfl := hst c rfl
      exact unexpected_afterReplies (w := absorbSc w _) _
    | refuse r => exact .inl rfl
    | fault f => exact .inl rfl
  · rw [hx]
    cases c with
    | malformedPayload => exact absurd rfl hc
    | _ => exact channelBroken_afterReplies _ _
  · rw [hout]
    exact .inr ⟨by simp, by simpa using hstep⟩

theorem onScdone_afterReplies (sl : Slot) : (onScdone e sl w).work.ctx.AfterReplies e brought w.ctx.sc := by
  have hstep : CpScStep e brought w.ctx.sc (scCpFinish e w.ctx.sc).sc := scCpFinish_step
  unfold onScdone
  dsimp only
  by_cases hs : w.ctx.sc.state = .challengeReceived
  · rw [scCpFinish_eq hs] at hstep ⊢
    exact .inr ⟨by simp, by simpa using hstep⟩
  · rw [scCpFinish_wrongState hs]
    exact .inl rfl

theorem acceptPlain_afterReplies (sl : Slot) (q : Packet) {pay : Bytes}
    (hp : pay ∈ brought ∨ w.ctx.sc.state ≠ .challengeSent) :
    (acceptPlain e sl q pay w).work.ctx.AfterReplies e brought w.ctx.sc := by
  unfold acceptPlain
  split
  · exact desync_afterReplies
  split
  · exact unexpected_afterReplies _
  split
  · exact unexpected_afterReplies _
  split
  · exact onCcrypt_afterReplies sl hp
  split
  · exact onScdone_afterReplies sl
  · exact .inl (by simp)

/-- A secure reply cannot verify a cryptogram: it opens on an established channel only (R151, R144). -/
theorem acceptReply_afterReplies {q : Packet} (hq : q.payload ∈ brought) (h : w.ctx.AfterReplies e brought sc) :
    (acceptReply e q w).work.ctx.AfterReplies e brought sc := by
  unfold acceptReply
  split
  · exact h
  split
  · exact h
  rename_i sl hslot
  obtain rfl : w.ctx.sc = sc := h.resolve_right (by simp [hslot])
  split
  · obtain ⟨pay, hest, hx⟩ | ⟨st, hst, hx⟩ | hx := scUnwrap_ends e q.payload w.ctx.sc
    · rw [hx]
      exact acceptPlain_afterReplies (w := absorbSc w _) sl q (.inr (by simp [hest]))
    · rw [hx]
      cases st with
      | raise c =>
        obtain rfl := hst c rfl
        exact .inl rfl
      | refuse r => exact .inl rfl
      | fault f => exact .inl rfl
    · rw [hx]
      exact channelBroken_afterReplies _ _
  · exact acceptPlain_afterReplies sl q (.inl hq)

/-- Verifying a payload that was brought is one step (R144). -/
theorem scCpVerify_step {p : Bytes} (hp : p ∈ brought) : CpScStep e brought sc (scCpVerify e p sc).sc := by
  obtain ⟨st, -, hx⟩ | ⟨c, -, hx⟩ | ⟨hstep, -⟩ := scCpVerify_ends (e := e) (sc := sc) (.inl hp)
  · exact .kept (by rw [hx]; rfl)
  · rw [hx]
    exact .broken
  · exact hstep

theorem mem_payloadsOf {q : Packet} {vs : List Verdict} (h : .packet q ∈ vs) : q.payload ∈ payloadsOf vs :=
  List.mem_filterMap.mpr ⟨_, h, rfl⟩

/-- A property that handling each verdict of a list keeps is kept by handling the list. -/
theorem eachVerdict_work_of_mem {σ : Type} {P : Work σ → Prop} {f : Verdict → Work σ → Done σ} :
    ∀ (vs : List Verdict) (_ : ∀ v ∈ vs, ∀ w, P w → P (f v w).work) (w : Work σ), P w → P (eachVerdict f vs w).work
  | [], _, _, hw => hw
  | v :: vs, hf, w, hw =>
    Done.andThen_work (hf v List.mem_cons_self w hw)
      (eachVerdict_work_of_mem vs fun u hu => hf u (List.mem_cons_of_mem v hu))

theorem devRx_step (c : Bytes) :
    CpScStep e (payloadsOf (feed e.par w.ctx.rxbuf c).1) w.ctx.sc (devRx e c w).work.ctx.sc := by
  unfold devRx
  split
  · exact .kept rfl
  · refine Device.AfterReplies.step ?_
    refine eachVerdict_work_of_mem (P := fun u : Work Device => u.ctx.AfterReplies e _ w.ctx.sc) _
      (fun v hv u hu => ?_) _ (.inl rfl)
    cases v with
    | error err => exact hu
    | packet q => exact acceptReply_afterReplies (mem_payloadsOf hv) hu

theorem cpPacket_step (q : Packet) : CpScStep e [q.payload] w.ctx.sc (cpPacket e q w).work.ctx.sc := by
  unfold cpPacket
  split
  · exact .kept rfl
  · exact (acceptReply_afterReplies (List.mem_singleton_self _) (.inl rfl)).step

end

/-! ### The CP's instructions -/

/-- Every next state's context of device `j` holds a fresh channel, or the one it held, one step on. -/
def NextChannel (i : Instr) (s : State) (j : DevId) (o : Host.Outcome State Fault Refusal) : Prop :=
  ∀ t, o = .next t → ∀ d', t.dev j = some d' →
    d'.sc = Sc.init ∨ ∃ d, s.dev j = some d ∧ CpScStep (s.cpEnv j) (presented s.par d.rxbuf i) d.sc d'.sc

section
variable {i : Instr} {s : State} {j : DevId}

theorem NextChannel.unwritten {t : State} (h : t.dev j = s.dev j) : NextChannel i s j (.next t) := by
  rintro _ ⟨⟩ d' hd'
  exact .inr ⟨d', h.symm.trans hd', .kept rfl⟩

theorem NextChannel.refuse (r : RefusalCode) : NextChannel i s j (.next (s.refuse r)) := .unwritten rfl

theorem NextChannel.answer (st : Status) (v : Value) : NextChannel i s j (.next (s.answer st v)) := .unwritten rfl

theorem NextChannel.fresh {t : State} {d : Device} (h : t.dev j = some d) (hsc : d.sc = Sc.init) :
    NextChannel i s j (.next t) := by
  rintro _ ⟨⟩ d' hd'
  obtain rfl := Option.some.inj (h.symm.trans hd')
  exact .inl hsc

section
variable {d : Device} (hd : s.dev j = some d)
include hd

theorem NextChannel.written {t : State} {d' : Device} (h : t.dev j = some d')
    (hstep : CpScStep (s.cpEnv j) (presented s.par d.rxbuf i) d.sc d'.sc) : NextChannel i s j (.next t) := by
  rintro _ ⟨⟩ x hx
  obtain rfl := Option.some.inj (h.symm.trans hx)
  exact .inr ⟨d, hd, hstep⟩

theorem NextChannel.finish {s1 : State} {d' : Device} {stop : Option Stop} {fs : List Bytes} {ns : List Note}
    {ov ev : Value} (h : s1.dev j = some d')
    (hstep : CpScStep (s.cpEnv j) (presented s.par d.rxbuf i) d.sc d'.sc) :
    NextChannel i s j (finish s s1 stop fs ns ov ev) := by
  intro t ht
  obtain ⟨r, -, rfl⟩ | ⟨r, -, -, -, rfl, -⟩ := finish_next ht
  · exact NextChannel.refuse r _ rfl
  · exact NextChannel.written (t := { s1 with result := some r }) hd h hstep _ rfl

theorem NextChannel.finishDev {r : Done Device}
    (hstep : CpScStep (s.cpEnv j) (presented s.par d.rxbuf i) d.sc r.work.ctx.sc) :
    NextChannel i s j (finishDev s j r) := .finish hd (by simp [State.putWork_dev]) hstep

end

theorem NextChannel.onDevice (hr : s.par.role = .cp) {g : Env → Work Device → Done Device}
    (hg : ∀ w, CpScStep (s.cpEnv j) (presented s.par w.ctx.rxbuf i) w.ctx.sc (g (s.cpEnv j) w).work.ctx.sc) :
    NextChannel i s j (onDevice s j.toNat g) := by
  cases hd : s.dev j with
  | none =>
    rw [onDevice_refused (cpDevice_none hr hd)]
    exact .refuse _
  | some d =>
    rw [onDevice_some hr hd]
    exact .finishDev hd (hg (Work.start d _))

theorem NextChannel.muxRoute (hr : s.par.role = .cp) {g : Env → Work Device → Done Device}
    (hg : ∀ w, CpScStep (s.cpEnv j) (presented s.par w.ctx.rxbuf i) w.ctx.sc (g (s.cpEnv j) w).work.ctx.sc) :
    NextChannel i s j (muxRoute s j.toNat g) := by
  cases hd : s.dev j with
  | none =>
    simp only [Machine.muxRoute, cpId_toNat hr, hd]
    exact .answer _ _
  | some d =>
    rw [muxRoute_some hr hd]
    exact .finishDev hd (hg (Work.start d _))

theorem NextChannel.onCpChannel {α : Type} (hr : s.par.role = .cp) {f : α → Value} {g : Env → Sc → ScDone α}
    (hg : ∀ rx sc, CpScStep (s.cpEnv j) (presented s.par rx i) sc (g (s.cpEnv j) sc).sc) :
    NextChannel i s j (onCpChannel s j.toNat f g) := by
  cases hd : s.dev j with
  | none =>
    rw [onCpChannel_refused (cpDevice_none hr hd)]
    exact .refuse _
  | some d =>
    simp only [Machine.onCpChannel, cpDevice_some hr hd]
    exact .finish hd (State.dev_setDev_same _ _ _) (hg d.rxbuf d.sc)

theorem NextChannel.onChannel {α : Type} (hr : s.par.role = .cp) {f : α → Value} {g : Env → Sc → ScDone α}
    (hg : ∀ rx sc, CpScStep (s.cpEnv j) (presented s.par rx i) sc (g (s.cpEnv j) sc).sc) :
    NextChannel i s j (onChannel s j.toNat f g) := by
  rw [onChannel_cp hr]
  exact .onCpChannel hr hg

/-- A MUX_TICK serves the device it touches or nobody (R241). -/
theorem execMuxTick_serves {now : Time} (hr : s.par.role = .cp) (ht : touched s (.muxTick now) = some j) :
    execMuxTick now s = serveNone s ∨ ∃ d q, s.dev j = some d ∧ execMuxTick now s = serve s j d q now := by
  cases hb : lowestBusy s with
  | some b =>
    obtain rfl : b = j := by simpa only [touched, hb, Option.some.injEq] using ht
    simp only [execMuxTick, requireCp_cp hr, hb, muxBusy]
    cases hd : s.dev b with
    | none => exact .inl rfl
    | some d =>
      dsimp only
      split
      · exact .inr ⟨d, s.mux.rrptr, rfl, rfl⟩
      · exact .inl rfl
  | none =>
    have hnext : nextEligible s now = some j := by simpa only [touched, hb] using ht
    simp only [execMuxTick, requireCp_cp hr, hb, muxScan, hnext]
    cases hd : s.dev j with
    | none => exact .inl (ite_self _)
    | some d =>
      dsimp only
      split
      · exact .inr ⟨d, j, rfl, rfl⟩
      · exact .inl rfl

theorem NextChannel.muxTick (now : Time) (hr : s.par.role = .cp) (ht : touched s (.muxTick now) = some j) :
    NextChannel (.muxTick now) s j (execMuxTick now s) := by
  obtain h | ⟨d, q, hd, h⟩ := execMuxTick_serves hr ht
  · rw [h]
    exact .answer _ _
  · rw [h]
    exact .finish (d' := (devTick (s.cpEnv j) now (Work.start d (s.drawn j))).work.ctx) hd
      (State.putWork_dev s j j _ |>.trans (if_pos rfl)) (devTick_step (w := Work.start d _) now)

theorem NextChannel.deliver (hr : s.par.role = .cp) {b : Bytes}
    (hi : ∀ rx, presented s.par rx i = payloadsOf (feed s.par rx b).1) : NextChannel i s j (deliver j.toNat b s) := by
  rw [deliver_cp _ _ hr]
  exact .muxRoute hr fun w => hi w.ctx.rxbuf ▸ devRx_step b

theorem NextChannel.deliverMessage (hr : s.par.role = .cp) {t : Byte} {m : Message}
    (hi : ∀ rx, presented s.par rx i = [m.payload]) : NextChannel i s j (deliverMessage j.toNat t m s) := by
  simp only [Machine.deliverMessage, hr]
  exact .muxRoute hr fun w => hi w.ctx.rxbuf ▸ cpPacket_step (messagePacket t m)

theorem NextChannel.wfFeed (hr : s.par.role = .cp) (c : Bytes) : NextChannel i s j (execWfFeed j.toNat c s) := by
  cases hd : s.dev j with
  | none =>
    rw [execWfFeed_refused (cpDevice_none hr hd) hr]
    exact .refuse _
  | some d =>
    rw [execWfFeed_cp hr hd]
    exact .written hd (State.dev_setDev_same _ _ _) (.kept rfl)

theorem NextChannel.wfFlush (hr : s.par.role = .cp) : NextChannel i s j (execWfFlush j.toNat s) := by
  cases hd : s.dev j with
  | none =>
    rw [execWfFlush_refused (cpDevice_none hr hd) hr]
    exact .refuse _
  | some d =>
    rw [execWfFlush_cp hr hd]
    exact .written hd (State.dev_setDev_same _ _ _) (.kept rfl)

theorem NextChannel.devRegister (hr : s.par.role = .cp) (u : Nat) :
    NextChannel i s j (execDevRegister j.toNat u s) := by
  simp only [execDevRegister, cpId_toNat hr]
  split
  · exact .refuse _
  split
  · exact .refuse _
  · exact .fresh (State.dev_setDev_same _ _ _) rfl

theorem NextChannel.devDeregister (hr : s.par.role = .cp) : NextChannel i s j (execDevDeregister j.toNat s) := by
  cases hd : s.dev j with
  | none =>
    rw [execDevDeregister_refused (cpDevice_none hr hd)]
    exact .refuse _
  | some d =>
    simp only [execDevDeregister, cpDevice_some hr hd]
    rintro _ ⟨⟩ d' hd'
    simp at hd'

theorem NextChannel.devSubmit (hr : s.par.role = .cp) (t : Nat) (p : Bytes) :
    NextChannel i s j (execDevSubmit j.toNat t p s) := by
  simp only [execDevSubmit, cpId_toNat hr]
  split
  · exact .refuse _
  · exact .refuse _
  · rename_i c d _ hd
    split
    · exact .refuse _
    · rename_i d' hs
      obtain ⟨-, -, -, rfl⟩ := devSubmit_ok hs
      exact .written hd (State.dev_setDev_same _ _ _) (.kept rfl)

/-- What an instruction does to the channel of the device it touches. -/
theorem exec_nextChannel (hr : s.par.role = .cp) (ht : touched s i = some j) : NextChannel i s j (exec i s) := by
  cases i with
  | wfEncode | wfDecode | scPdChallenge | scPdVerify | regLookupCmd | regLookupRpl | pdRx | pdReply | reset
  | otherOp => cases ht
  | muxTick now => exact .muxTick now hr ht
  | wfFeed a c => obtain rfl := devIdOf_eq_some.mp ht; exact .wfFeed hr c
  | wfFlush a => obtain rfl := devIdOf_eq_some.mp ht; exact .wfFlush hr
  | devRegister a u => obtain rfl := devIdOf_eq_some.mp ht; exact .devRegister hr u
  | devDeregister a => obtain rfl := devIdOf_eq_some.mp ht; exact .devDeregister hr
  | devSubmit a t p => obtain rfl := devIdOf_eq_some.mp ht; exact .devSubmit hr t p
  | scReset a => obtain rfl := devIdOf_eq_some.mp ht; exact .onChannel hr fun _ _ => .init
  | scCpBegin a =>
    obtain rfl := devIdOf_eq_some.mp ht
    show NextChannel _ s j (execScCpBegin j.toNat s)
    exact .onCpChannel hr fun _ _ => scCpBegin_step _
  | scCpVerify a p =>
    obtain rfl := devIdOf_eq_some.mp ht
    show NextChannel _ s j (execScCpVerify j.toNat p s)
    exact .onCpChannel hr fun _ _ => scCpVerify_step (List.mem_singleton_self p)
  | scCpConfirm a =>
    obtain rfl := devIdOf_eq_some.mp ht
    exact .onCpChannel hr fun _ _ => .of_kept_or_broken (scCpConfirm_sc _ _)
  | scCpFinish a => obtain rfl := devIdOf_eq_some.mp ht; exact .onCpChannel hr fun _ _ => scCpFinish_step
  | scWrap a p => obtain rfl := devIdOf_eq_some.mp ht; exact .onChannel hr fun _ _ => .kept rfl
  | scUnwrap a p =>
    obtain rfl := devIdOf_eq_some.mp ht
    exact .onChannel hr fun _ _ => .of_kept_or_broken (scUnwrap_sc _ _ _)
  | devStart a => obtain rfl := devIdOf_eq_some.mp ht; exact .onDevice hr fun _ => devStart_step
  | devScStart a => obtain rfl := devIdOf_eq_some.mp ht; exact .onDevice hr fun _ => devScStart_step
  | devTick a now =>
    obtain rfl := devIdOf_eq_some.mp ht
    show NextChannel _ s j (execDevTick j.toNat now s)
    exact .onDevice hr fun _ => devTick_step now
  | devRx a c =>
    obtain rfl := devIdOf_eq_some.mp ht
    show NextChannel _ s j (execDevRx j.toNat c s)
    exact .onDevice hr fun _ => devRx_step c
  | muxRx a c =>
    obtain rfl := devIdOf_eq_some.mp ht
    show NextChannel _ s j (execMuxRx j.toNat c s)
    exact .muxRoute hr fun _ => devRx_step c
  | frameSk a f k | frameSc a f k | frameLk a f k | frameLc a f k =>
    obtain rfl := devIdOf_eq_some.mp ht
    exact .deliver hr fun _ => rfl
  | tPoll a m | tChlng a m | tCcrypt a m | tScrypt a m | tScdone a m =>
    obtain rfl := devIdOf_eq_some.mp ht
    exact .deliverMessage hr fun _ => rfl

end

/-- What an instruction does to the channel of any device. -/
theorem exec_channel_cases {i : Instr} {s t : State} {a : DevId} {d' : Device} (h : exec i s = .next t)
    (hd' : t.dev a = some d') : d'.sc = Sc.init ∨
      ∃ d, s.dev a = some d ∧ CpScStep (s.cpEnv a) (presented s.par d.rxbuf i) d.sc d'.sc := by
  have unwritten (hdev : t.dev a = s.dev a) : d'.sc = Sc.init ∨
      ∃ d, s.dev a = some d ∧ CpScStep (s.cpEnv a) (presented s.par d.rxbuf i) d.sc d'.sc :=
    .inr ⟨d', hdev.symm.trans hd', .kept rfl⟩
  by_cases hi : i = .reset
  · subst hi
    rw [execReset_dev h] at hd'
    cases hd'
  by_cases ht : touched s i = some a
  · cases hr : s.par.role with
    | cp => exact exec_nextChannel hr ht t h d' hd'
    | pd =>
      obtain ⟨hdc, -⟩ := (rolesTouchOnlyTheirOwnHalf i s t hi h).2 hr
      exact unwritten (by rw [State.dev, hdc]; rfl)
  · exact unwritten (atMostOneContextChanges.1 i s t hi h a ht)

theorem cpEstablished_of_verified {i : Instr} {s t : State} {a : DevId} {d' : Device} (h : exec i s = .next t)
    (hd' : t.dev a = some d') :
    (d'.sc.state = .established → ∃ d, s.dev a = some d ∧
      (d.sc.state = .established ∨ d.sc.state = .challengeReceived) ∧ d'.sc = { d.sc with state := .established }) ∧
    (d'.sc.state = .challengeReceived → ∃ d, s.dev a = some d ∧
      (d'.sc = d.sc ∨
       (d.sc.state = .challengeSent ∧ ∃ k rcp rpd, s.key a = some k ∧ d.sc.rndCp = some rcp ∧
         rpd.length = s.par.chalLen ∧ rpd ++ cgramPd s.par k rcp rpd ∈ presented s.par d.rxbuf i ∧
         d'.sc = { state := .challengeReceived, rndCp := some rcp, rndPd := some rpd,
                   sEnc := some (kdfEnc s.par k rcp rpd), sMac := some (kdfMac s.par k rcp rpd) }))) := by
  obtain hsc | ⟨d, hd, hstep⟩ := exec_channel_cases h hd'
  · simp [hsc, Sc.init]
  cases hstep with
  | kept hsc =>
    rw [hsc]
    refine ⟨fun hs => ⟨d, hd, .inl hs, by rw [← hs]⟩, fun _ => ⟨d, hd, .inl rfl⟩⟩
  | verified hs k rcp rpd hk hrcp hlen hb hsc =>
    refine ⟨fun hs' => ?_, fun _ => ⟨d, hd, .inr ⟨hs, k, rcp, rpd, hk, hrcp, hlen, hb, hsc⟩⟩⟩
    rw [hsc] at hs'
    cases hs'
  | finished hs hsc =>
    refine ⟨fun _ => ⟨d, hd, .inr hs, hsc⟩, fun hs' => ?_⟩
    rw [hsc] at hs'
    cases hs'
  | down hest hrec => exact ⟨fun hs => absurd hs hest, fun hs => absurd hs hrec⟩

/-! ### What can happen to a PD's channel -/

/-- From `sc` to `sc'` while the payloads `brought` arrive, in any number of steps: nothing; a handshake begun afresh,
its keys derived from its challenges (R147); the CP's cryptogram over the challenges verified (R148), in the handshake
that ran in `sc` or in a fresh one; or any end in which no handshake runs and no channel is established. -/
inductive PdScStep (e : Env) (brought : List Bytes) (sc sc' : Sc) : Prop where
  | kept (h : sc' = sc)
  | fresh (k rcp rpd : Bytes) (hk : e.key = some k)
      (h : sc' = { state := .challengeSent, rndCp := some rcp, rndPd := some rpd,
                   sEnc := some (kdfEnc e.par k rcp rpd), sMac := some (kdfMac e.par k rcp rpd) })
  | verified (hs : sc'.state = .established) (k rcp rpd : Bytes) (hk : e.key = some k) (hrcp : sc'.rndCp = some rcp)
      (hrpd : sc'.rndPd = some rpd) (hb : cgramCp e.par k rcp rpd ∈ brought)
      (hkeys : (sc'.sEnc = sc.sEnc ∧ sc'.sMac = sc.sMac) ∨
        (sc'.sEnc = some (kdfEnc e.par k rcp rpd) ∧ sc'.sMac = some (kdfMac e.par k rcp rpd)))
  | down (hest : sc'.state ≠ .established) (hsent : sc'.state ≠ .challengeSent)

section
variable {e : Env} {brought : List Bytes} {sc0 sc : Sc}

theorem PdScStep.init : PdScStep e brought sc0 Sc.init := .down (by simp [Sc.init]) (by simp [Sc.init])

theorem PdScStep.broken : PdScStep e brought sc0 { Sc.init with state := .broken } := .down (by simp) (by simp)

theorem PdScStep.unwrap (h : PdScStep e brought sc0 sc) (p : Bytes) :
    PdScStep e brought sc0 (scUnwrap e p sc).sc := by
  obtain hsc | hsc := scUnwrap_sc e p sc
  · rwa [hsc]
  · rw [hsc]
    exact .broken

theorem PdScStep.challenge (h : PdScStep e brought sc0 sc) (rnd p : Bytes) :
    PdScStep e brought sc0 (scPdChallenge e rnd p sc).sc := by
  unfold scPdChallenge
  split
  · exact h
  split
  · exact h
  · exact .fresh _ _ _ ‹_› rfl

/-- A channel that waits for the CP's cryptogram holds the keys it held, or those of its challenges. -/
theorem PdScStep.keys_of_challengeSent {k rcp rpd : Bytes} (h : PdScStep e brought sc0 sc)
    (hs : sc.state = .challengeSent) (hk : e.key = some k) (hrcp : sc.rndCp = some rcp) (hrpd : sc.rndPd = some rpd) :
    (sc.sEnc = sc0.sEnc ∧ sc.sMac = sc0.sMac) ∨
      (sc.sEnc = some (kdfEnc e.par k rcp rpd) ∧ sc.sMac = some (kdfMac e.par k rcp rpd)) := by
  cases h with
  | kept hsc => exact .inl (by simp [hsc])
  | fresh k' rcp' rpd' hk' hsc =>
    subst hsc
    cases hk.symm.trans hk'
    cases hrcp
    cases hrpd
    exact .inr ⟨rfl, rfl⟩
  | verified hest => exact absurd (hest.symm.trans hs) (by simp)
  | down _ hsent => exact absurd hs hsent

theorem PdScStep.verify {p : Bytes} (h : PdScStep e brought sc0 sc) (hp : p ∈ brought ∨ sc.state ≠ .challengeSent) :
    PdScStep e brought sc0 (scPdVerify e p sc).sc := by
  unfold scPdVerify
  split
  · exact h
  rename_i hs
  have hs : sc.state = .challengeSent := by simpa using hs
  split
  · exact h
  split
  · exact .broken
  split
  · split
    · exact .broken
    · rename_i k hk _ _ rcp rpd hrcp hrpd hcg
      have hmem : cgramCp e.par k rcp rpd ∈ brought := not_not.mp hcg ▸ hp.resolve_right (by simp [hs])
      exact .verified rfl k rcp rpd hk hrcp hrpd hmem (h.keys_of_challengeSent hs hk hrcp hrpd)
  · exact h

end

/-! ### The PD's procedures -/

section
variable {e : Env} {brought : List Bytes} {sc0 : Sc} {w : Work Pdc}

@[simp] theorem pdSend_sc (e : Env) (n : Seq) (c x : Bool) (t : Byte) (p : Bytes) (w : Work Pdc) :
    (pdSend e n c x t p w).work.ctx.sc = w.ctx.sc := by
  obtain ⟨f, h⟩ | ⟨r, h⟩ := pdSend_cases e n c x t p w <;> rw [h] <;> rfl

theorem onChlng_sc (e : Env) (q : Packet) (pay : Bytes) (w : Work Pdc) : (onChlng e q pay w).work.ctx.sc =
    (scPdChallenge e (drawBytes e.id e.par.chalLen w.draws) pay w.ctx.sc).sc := by
  unfold onChlng
  dsimp only
  split
  · rw [pdSend_sc]; rfl
  · rfl
  · rfl

theorem onScrypt_sc (e : Env) (q : Packet) (pay : Bytes) (w : Work Pdc) :
    (onScrypt e q pay w).work.ctx.sc = (scPdVerify e pay w.ctx.sc).sc := by
  unfold onScrypt
  dsimp only
  split
  · rw [pdSend_sc]; rfl
  · rfl
  · rfl

theorem commandPlain_step (q : Packet) {pay : Bytes} (h : PdScStep e brought sc0 w.ctx.sc)
    (hp : pay ∈ brought ∨ w.ctx.sc.state ≠ .challengeSent) :
    PdScStep e brought sc0 (commandPlain e q pay w).work.ctx.sc := by
  unfold commandPlain
  split
  · exact h
  split
  · rw [onChlng_sc]
    exact h.challenge _ _
  split
  · rw [onScrypt_sc]
    exact h.verify hp
  · exact h

/-- A secure command cannot verify a cryptogram: it opens on an established channel only (R151, R148). -/
theorem acceptCommand_step {q : Packet} (hq : q.payload ∈ brought) (h : PdScStep e brought sc0 w.ctx.sc) :
    PdScStep e brought sc0 (acceptCommand e q w).work.ctx.sc := by
  unfold acceptCommand
  split
  · exact h
  split
  · exact h
  split
  · obtain ⟨pay, hest, hx⟩ | ⟨st, -, hx⟩ | hx := scUnwrap_ends e q.payload w.ctx.sc
    · rw [hx]
      exact commandPlain_step (w := absorbPdSc w _) q h (.inr (by simp [hest]))
    · rw [hx]
      cases st <;> exact h
    · rw [hx]
      exact .broken
  · exact commandPlain_step q h (.inl hq)

theorem pdRx_step (c : Bytes) :
    PdScStep e (payloadsOf (feed e.par w.ctx.rxbuf c).1) w.ctx.sc (pdRx e c w).work.ctx.sc := by
  unfold pdRx
  refine eachVerdict_work_of_mem (P := fun u : Work Pdc => PdScStep e _ w.ctx.sc u.ctx.sc) _ (fun v hv u hu => ?_) _
    (.kept rfl)
  cases v with
  | error err => exact hu
  | packet q => exact acceptCommand_step (mem_payloadsOf hv) hu

theorem pdReply_sc (e : Env) (t : Byte) (p : Bytes) (w : Work Pdc) : (pdReply e t p w).work.ctx.sc = w.ctx.sc := by
  unfold pdReply
  split
  · rfl
  split
  · rfl
  split
  · rfl
  split
  · rfl
  split
  · rw [Work.stoppedNoting_ctx]
  · exact Done.andThen_work (P := fun u : Work Pdc => u.ctx.sc = w.ctx.sc) (pdSend_sc _ _ _ _ _ _ _) fun _ h => h

end

/-! ### The PD's instructions -/

section
variable {P : Device → Prop} {Q : Pdc → Prop} {s : State}

/-- `NextContexts.onPd` for a property that speaks of the PD's own environment. -/
theorem NextContexts.onPd_start (h : s.Contexts P Q) {g : Env → Work Pdc → Done Pdc}
    (hg : ∀ w, w.ctx = s.pdc → Q (g s.pdEnv w).work.ctx) : NextContexts P Q (Machine.onPd s g) := by
  unfold Machine.onPd
  split
  · exact .refuse h _
  · exact .finish h _ _ _ _ fun _ _ => (h.setPdc (hg (Work.start s.pdc _) rfl)).setDrawn _ _

/-- `NextContexts.onPdChannel` for a property that speaks of the PD's own environment. -/
theorem NextContexts.onPdChannel_start {α : Type} (h : s.Contexts P Q) (f : α → Value) {g : Env → Sc → ScDone α}
    (hg : Q { s.pdc with sc := (g s.pdEnv s.pdc.sc).sc }) : NextContexts P Q (Machine.onPdChannel s f g) := by
  unfold Machine.onPdChannel
  split
  · exact .refuse h _
  · exact .finish h _ _ _ _ fun _ _ => (h.setPdc hg).setDrawn _ _

end

/-- The PD's channel is a step on from what it was in `s`, given what instruction `i` brings. -/
def PdcAfter (i : Instr) (s : State) (p : Pdc) : Prop :=
  PdScStep s.pdEnv (presented s.par s.pdc.rxbuf i) s.pdc.sc p.sc

section
variable {i : Instr} {s : State}

theorem contexts_pdcAfter_self : s.Contexts (fun _ => True) (PdcAfter i s) := ⟨fun _ _ _ => trivial, .kept rfl⟩

/-- A channel operation of either role on a PD. -/
theorem onChannel_pdcAfter {α : Type} (hr : s.par.role = .pd) (a : Nat) (f : α → Value) {g : Env → Sc → ScDone α}
    (hg : PdScStep s.pdEnv (presented s.par s.pdc.rxbuf i) s.pdc.sc (g s.pdEnv s.pdc.sc).sc) :
    NextContexts (fun _ => True) (PdcAfter i s) (onChannel s a f g) := by
  simp only [onChannel, hr]
  exact .onPdChannel_start contexts_pdcAfter_self f hg

theorem deliver_pdcAfter (hr : s.par.role = .pd) (a : Nat) {b : Bytes}
    (hi : ∀ rx, presented s.par rx i = payloadsOf (feed s.par rx b).1) :
    NextContexts (fun _ => True) (PdcAfter i s) (deliver a b s) := by
  rw [deliver_pd _ _ hr]
  refine .onPd_start contexts_pdcAfter_self fun w hw => ?_
  rw [PdcAfter, hi, ← hw]
  exact pdRx_step b

theorem deliverMessage_pdcAfter (hr : s.par.role = .pd) (a : Nat) {t : Byte} {m : Message}
    (hi : ∀ rx, presented s.par rx i = [m.payload]) :
    NextContexts (fun _ => True) (PdcAfter i s) (deliverMessage a t m s) := by
  simp only [deliverMessage, hr]
  refine .onPd_start contexts_pdcAfter_self fun w hw => ?_
  rw [PdcAfter, hi, ← hw]
  exact acceptCommand_step (q := messagePacket t m) (List.mem_singleton_self m.payload) (.kept rfl)

/-- What an instruction does to the channel of a PD. -/
theorem exec_pdcAfter (hr : s.par.role = .pd) (hi : i ≠ .reset) :
    NextContexts (fun _ => True) (PdcAfter i s) (exec i s) := by
  have h : s.Contexts (fun _ => True) (PdcAfter i s) := contexts_pdcAfter_self
  cases hcp : cpOnly i with
  | true =>
    rw [exec_cpOnly_of_pd hr hcp]
    exact .refuse h _
  | false =>
    cases i with
    | reset => exact absurd rfl hi
    | wfEncode p => exact .wfEncode h p
    | wfDecode b => exact .wfDecode h b
    | wfFeed a c =>
      show NextContexts _ _ (execWfFeed a c s)
      rw [execWfFeed_pd hr]
      refine .answer (h.setPdc ?_) _ _
      exact .kept rfl
    | wfFlush a =>
      show NextContexts _ _ (execWfFlush a s)
      rw [execWfFlush_pd hr]
      refine .answer (h.setPdc ?_) _ _
      exact .kept rfl
    | scReset a => exact onChannel_pdcAfter hr a _ .init
    | scWrap a p => exact onChannel_pdcAfter hr a _ (.kept rfl)
    | scUnwrap a p => exact onChannel_pdcAfter hr a _ (PdScStep.unwrap (.kept rfl) p)
    | scPdChallenge p =>
      show NextContexts _ _ (execScPdChallenge p s)
      refine .onPdChannel_start h _ ?_
      exact PdScStep.challenge (.kept rfl) _ p
    | scPdVerify p =>
      show NextContexts _ _ (execScPdVerify p s)
      refine .onPdChannel_start h _ ?_
      exact PdScStep.verify (.kept rfl) (.inl (List.mem_singleton_self p))
    | regLookupCmd t => exact .regLookupCmd h t
    | regLookupRpl t => exact .regLookupRpl h t
    | pdRx c =>
      show NextContexts _ _ (execPdRx c s)
      refine .onPd_start h fun w hw => ?_
      rw [PdcAfter, ← hw]
      exact pdRx_step c
    | pdReply t p =>
      show NextContexts _ _ (execPdReply t p s)
      refine .onPd_start h fun w hw => .kept ?_
      rw [← hw]
      split
      · rfl
      · exact pdReply_sc _ _ _ _
    | frameSk a f k | frameSc a f k | frameLk a f k | frameLc a f k => exact deliver_pdcAfter hr a fun _ => rfl
    | tPoll a m | tChlng a m | tCcrypt a m | tScrypt a m | tScdone a m =>
      exact deliverMessage_pdcAfter hr a fun _ => rfl
    | otherOp c => exact .refuse h _
    | _ => cases hcp

end

theorem pdEstablished_of_verified {i : Instr} {s t : State} (h : exec i s = .next t)
    (hs : t.pdc.sc.state = .established) : t.pdc.sc = s.pdc.sc ∨
    ∃ k rcp rpd, s.key s.par.myAddr = some k ∧ t.pdc.sc.rndCp = some rcp ∧ t.pdc.sc.rndPd = some rpd ∧
      cgramCp s.par k rcp rpd ∈ presented s.par s.pdc.rxbuf i ∧
      ((t.pdc.sc.sEnc = s.pdc.sc.sEnc ∧ t.pdc.sc.sMac = s.pdc.sc.sMac) ∨
       (t.pdc.sc.sEnc = some (kdfEnc s.par k rcp rpd) ∧ t.pdc.sc.sMac = some (kdfMac s.par k rcp rpd))) := by
  by_cases hi : i = .reset
  · subst hi
    cases h
    cases hs
  cases hr : s.par.role with
  | cp => exact .inl (by rw [(rolesTouchOnlyTheirOwnHalf i s t hi h).1 hr])
  | pd =>
    have hstep : PdScStep s.pdEnv (presented s.par s.pdc.rxbuf i) s.pdc.sc t.pdc.sc := (exec_pdcAfter hr hi t h).pdc
    cases hstep with
    | kept hsc => exact .inl hsc
    | fresh k rcp rpd hk hsc =>
      rw [hsc] at hs
      cases hs
    | verified _ k rcp rpd hk hrcp hrpd hb hkeys => exact .inr ⟨k, rcp, rpd, hk, hrcp, hrpd, hb, hkeys⟩
    | down hest => exact absurd hs hest

/-- Settles O23: the steps a channel can take in one instruction, `CpScStep` on a CP (`exec_channel_cases`) and
`PdScStep` on a PD (`exec_pdcAfter`). -/
theorem establishedOnlyByVerifiedCryptograms : Obligations.EstablishedOnlyByVerifiedCryptograms :=
  ⟨fun _ _ _ _ _ h hd' => cpEstablished_of_verified h hd', fun _ _ _ h hs => pdEstablished_of_verified h hs⟩

end Sys2Proof.Machine
end

section
/-! Proofs of the family `42_registry.md`: what the lookups answer (O24). -/

namespace Sys2Proof.Machine

/-- A lookup of a code in range answers what the table holds, entry or none (R171, R172). -/
theorem execRegLookup_toNat (s : State) (t : Byte) :
    execRegLookupCmd t.toNat s = .next (s.answer .ok (.cmdEntry (regCmd s.par t))) ∧
    execRegLookupRpl t.toNat s = .next (s.answer .ok (.rplEntry (regRpl s.par t))) := by
  simp only [execRegLookupCmd, execRegLookupRpl, codeOf_toNat, and_self]

/-- Settles O24: the codes by `decode_op`, the lookups by `execRegLookup_toNat`. -/
theorem registryLookups : Obligations.RegistryLookups :=
  ⟨fun _ => ⟨decode_op, decode_op⟩, execRegLookup_toNat⟩

end Sys2Proof.Machine
end

section
/-! Proofs of the family `43_dsm_cp.md`: the CP's device state machine. Each procedure has an equation per case, and an
operation on a device ends as its procedure does. -/

namespace Sys2Proof.Machine

/-! ### How an operation on a device ends -/

section
variable {s : State} {i : DevId} {d d' : Device} {fs : List Bytes} {ns : List Note}
  {g : Env → Work Device → Done Device} (hr : s.par.role = .cp) (hd : s.dev i = some d)
include hr hd

/-- An operation on a device whose procedure comes to its last line without a draw. -/
theorem onDevice_finished
    (hg : g (s.cpEnv i) (Work.start d (s.drawn i)) =
      Work.done { ctx := d', draws := s.drawn i, frames := fs, notes := ns }) :
    onDevice s i.toNat g = .next ((s.setDev i (some d')).finished fs ns) := by
  rw [onDevice_some hr hd, hg, finishDev_done, State.setDrawn_self_setDev]

/-- The same, the context left as it was. -/
theorem onDevice_kept
    (hg : g (s.cpEnv i) (Work.start d (s.drawn i)) =
      Work.done { ctx := d, draws := s.drawn i, frames := fs, notes := ns }) :
    onDevice s i.toNat g = .next (s.finished fs ns) := by
  rw [onDevice_finished hr hd hg, State.setDev_self s hd]

/-- An operation on a device whose procedure raises an error without a draw. -/
theorem onDevice_raised {x : ErrorCode}
    (hg : g (s.cpEnv i) (Work.start d (s.drawn i)) =
      Work.stopped { ctx := d', draws := s.drawn i, frames := fs, notes := ns } (.raise x)) :
    onDevice s i.toNat g =
      .next { s.setDev i (some d') with
        result := some { status := .error x, frames := fs, notes := ns, value := .none } } := by
  rw [onDevice_some hr hd, hg]
  simp only [finishDev, finish, Work.stopped_work, Work.stopped_stop, State.putWork, State.setDrawn_self_setDev]

/-- An operation on a device whose procedure refuses. -/
theorem onDevice_refuses {w : Work Device} {x : RefusalCode}
    (hg : g (s.cpEnv i) (Work.start d (s.drawn i)) = w.stopped (.refuse x)) :
    onDevice s i.toNat g = .next (s.refuse x) := by
  rw [onDevice_some hr hd, hg]
  rfl

end

/-! ### DEV_REGISTER to DEV_SC_START -/

/-- Settles O25, a branch of `execDevRegister` at a time. -/
theorem registerCreatesTheContext : Obligations.RegisterCreatesTheContext := by
  refine ⟨fun _ hc => decode_op hc, fun s a u hr ha => execDevRegister_refused (cpId_big hr ha) u,
    fun s i u hr => ⟨fun hu hd => ?_, fun hu hd => ?_, fun hu => ?_⟩⟩
  · have hu : ¬ 1 < u := Nat.not_lt.mpr hu
    simp only [exec, execDevRegister, cpId_toNat hr, hu, hd, if_false]
    rfl
  · obtain ⟨d, hd⟩ := Option.ne_none_iff_exists'.mp hd
    have hu : ¬ 1 < u := Nat.not_lt.mpr hu
    simp only [exec, execDevRegister, cpId_toNat hr, hu, hd, if_false]
    rfl
  · simp only [exec, execDevRegister, cpId_toNat hr, hu, if_true]
    rfl

/-- Settles O26: once removed, the operand check of a tick finds no such device. -/
theorem deregisterIsSilent : Obligations.DeregisterIsSilent := by
  refine ⟨fun _ hc => decode_op hc, fun s i d hr hd => ⟨?_, fun now => ?_⟩⟩
  · simp only [exec, execDevDeregister, cpDevice_some hr hd]
    rfl
  · have hgone : cpDevice ((s.setDev i none).finished [] []) i.toNat = .error .noSuchDevice :=
      cpDevice_none (by simpa using hr) (by simp)
    show execDevTick i.toNat now _ = _
    exact onDevice_refused hgone _

section
variable {e : Env} {w : Work Device}

theorem devStart_offline (hs : w.ctx.dstate = .offline) : devStart e w = Work.done { w with
    ctx := { w.ctx with
      sc := Sc.init, dstate := .polling, seq := 0, retry := 0, resync := false, retxp := false, slot := none,
      deadline := none, rxbuf := [] }
    notes := w.notes ++ if w.ctx.sc.state = .idle then [] else [.scStatus e.id .none] } := by
  simp only [devStart, hs, cpScReset_eq, ne_eq, not_true_eq_false, if_false]

theorem devStart_wrongState (hs : w.ctx.dstate ≠ .offline) : devStart e w = w.stopped (.refuse .wrongState) :=
  if_pos hs

theorem devScStart_polling {k : Bytes} (hs : w.ctx.dstate = .polling) (hk : e.key = some k) :
    devScStart e w = Work.done { w with
      ctx := { w.ctx with sc := Sc.init, dstate := .secureHandshake, seq := 0 }
      notes := w.notes ++ if w.ctx.sc.state = .idle then [] else [.scStatus e.id .none] } := by
  simp only [devScStart, hs, hk, cpScReset_eq, ne_eq, not_true_eq_false, if_false, reduceCtorEq]

theorem devScStart_noKey (hs : w.ctx.dstate = .polling) (hk : e.key = none) :
    devScStart e w = w.stopped (.raise .noKey) := by
  simp only [devScStart, hs, hk, ne_eq, not_true_eq_false, if_false, if_true]

theorem devScStart_wrongState (hs : w.ctx.dstate ≠ .polling) : devScStart e w = w.stopped (.refuse .wrongState) :=
  if_pos hs

end

/-- Settles O27, by the two branches of `devStart`. -/
theorem startBringsADeviceToPolling : Obligations.StartBringsADeviceToPolling := by
  refine ⟨fun _ hc => decode_op hc, fun s i d hr hd => ⟨fun hs => ?_, fun hs => ?_⟩⟩
  · exact onDevice_finished hr hd (devStart_offline hs)
  · exact onDevice_refuses hr hd (devStart_wrongState hs)

/-- Settles O29, a branch of `devScStart` at a time. -/
theorem scStartEntersTheHandshake : Obligations.ScStartEntersTheHandshake := by
  refine ⟨fun _ hc => decode_op hc, fun s i d hr hd => ⟨fun hs => ?_, fun k hs hk => ?_, fun hs hk => ?_⟩⟩
  · exact onDevice_refuses hr hd (devScStart_wrongState hs)
  · exact onDevice_finished hr hd (devScStart_polling hs hk)
  · refine (onDevice_raised hr hd (devScStart_noKey hs hk)).trans ?_
    simp [State.setDev_self s hd]

/-- Settles O28: with the registry's entry known, the checks of `devSubmit` are those stated, in the same order. -/
theorem submitQueuesAtTheTail : Obligations.SubmitQueuesAtTheTail := by
  refine ⟨fun _ hc => decode_op hc, fun s i d t p hr hd => ?_⟩
  simp only [exec, execDevSubmit, cpId_toNat hr, codeOf_toNat, hd, devSubmit, regCmd]
  cases s.par.regCmd.lookup t with
  | none =>
    simp only [if_true]
    split_ifs <;> rfl
  | some en =>
    simp only [Bool.not_eq_true']
    split_ifs <;> rfl

/-! ### DEV_TICK with a command in flight -/

section
variable {s : State} {i : DevId} {d d' : Device} {now : Time} {fs : List Bytes} {ns : List Note}
  (hr : s.par.role = .cp) (hd : s.dev i = some d)
include hr hd

/-- A tick whose procedure comes to its last line without a draw. -/
theorem execDevTick_finished (h : devTick (s.cpEnv i) now (Work.start d (s.drawn i)) =
    Work.done { ctx := d', draws := s.drawn i, frames := fs, notes := ns }) :
    execDevTick i.toNat now s = .next ((s.setDev i (some d')).finished fs ns) := onDevice_finished hr hd h

/-- A tick that does nothing. -/
theorem execDevTick_waits (h : devTick (s.cpEnv i) now (Work.start d (s.drawn i)) =
    (Work.start d (s.drawn i)).done) : execDevTick i.toNat now s = .next (s.finished [] []) := onDevice_kept hr hd h

/-- A tick whose procedure raises an error. -/
theorem execDevTick_raised {x : ErrorCode} (h : devTick (s.cpEnv i) now (Work.start d (s.drawn i)) =
    Work.stopped { ctx := d', draws := s.drawn i, frames := fs, notes := ns } (.raise x)) :
    execDevTick i.toNat now s = .next { s.setDev i (some d') with
      result := some { status := .error x, frames := fs, notes := ns, value := .none } } := onDevice_raised hr hd h

end

section
variable {e : Env} {now t0 : Time} {w : Work Device} {sl : Slot}

/-- `go_offline`: what is left of the context, and its note after that of the channel's end (R189, R142). -/
theorem goOffline_eq (r : OfflineReason) : goOffline e r w = { w with
    ctx := { w.ctx with
      sc := Sc.init, dstate := .offline, slot := none, retxp := false, resync := false, deadline := none,
      cmdq := [], online := false, rxbuf := [] }
    notes := w.notes ++ (if w.ctx.sc.state = .idle then [] else [.scStatus e.id .none]) ++ [.offline e.id r] } := by
  simp only [goOffline, cpScReset_eq, Work.note]

theorem devTick_offline (hs : w.ctx.dstate = .offline) : devTick e now w = w.done := by
  simp only [devTick, hs]

/-- With a command in flight a tick does the same in `AwaitingReply` and in `SecureHandshake` (R187). -/
theorem devTick_inFlight (hs : w.ctx.dstate = .awaitingReply ∨ w.ctx.dstate = .secureHandshake)
    (hsl : w.ctx.slot = some sl) : devTick e now w = awaiting e now w := by
  obtain hs | hs := hs
  · simp only [devTick, hs]
  · simp only [devTick, hs, tickHandshake, hsl, Option.isSome_some, if_true]

theorem awaiting_retransmits (hx : w.ctx.retxp = true) : awaiting e now w = xmit e now w := if_pos hx

section
variable (hx : w.ctx.retxp = false) (ht : w.ctx.deadline = some t0)
include hx ht

theorem awaiting_waits (hn : now < t0) : awaiting e now w = w.done := by
  simp [awaiting, hx, ht, deadlinePassed, Nat.not_le.mpr hn]

theorem awaiting_retries (hn : t0 ≤ now) (hb : w.ctx.retry + 1 < e.par.retryMax) :
    awaiting e now w = xmit e now { w with ctx := { w.ctx with retry := w.ctx.retry + 1 } } := by
  simp [awaiting, hx, ht, deadlinePassed, hn, boundedRetry_left hb]

theorem awaiting_givesUp (hn : t0 ≤ now) (hb : e.par.retryMax ≤ w.ctx.retry + 1) :
    awaiting e now w =
      (goOffline e .unreachable { w with ctx := { w.ctx with retry := w.ctx.retry + 1 } }).done := by
  simp [awaiting, hx, ht, deadlinePassed, hn, boundedRetry_spent hb]

end

/-- `xmit` of a secure command whose channel is not established (R152, R298). -/
theorem xmit_notEstablished (hsl : w.ctx.slot = some sl) (hsec : sl.sec = true) (hs : w.ctx.sc.state ≠ .established) :
    xmit e now w = (w.note (.error e.id .notEstablished)).stopped (.raise .notEstablished) := by
  simp only [xmit, hsl, hsec, wirePayload_down hs, Work.stoppedNoting]

end

/-- A context after a tick sent its command again (R186), the retry count now `n`. -/
def Device.resent (par : Params) (now : Time) (n : Nat) (d : Device) : Device :=
  { d with retry := n, deadline := some (now + par.timeout), lastpoll := some now, retxp := false }

/-- A tick past the deadline with the budget left sends the command again and counts it (R187, R188). -/
theorem execDevTick_resends {s : State} {i : DevId} {d : Device} {sl : Slot} {wire : Bytes} {now t0 : Time}
    (hr : s.par.role = .cp) (hd : s.dev i = some d) (hs : d.dstate = .awaitingReply ∨ d.dstate = .secureHandshake)
    (hsl : d.slot = some sl) (hseal : Seals s.par d.sc sl.sec sl.payload wire) (hlen : wire.length ≤ s.par.maxPayload)
    (hx : d.retxp = false) (ht : d.deadline = some t0) (hn : t0 ≤ now) (hb : d.retry + 1 < s.par.retryMax) :
    execDevTick i.toNat now s = .next ((s.setDev i (some (d.resent s.par now (d.retry + 1)))).finished
      [frameOf s.par (mkPacket i sl.seq d.useCrc sl.sec sl.type wire)] []) :=
  execDevTick_finished hr hd
    ((devTick_inFlight hs hsl).trans ((awaiting_retries hx ht hn hb).trans (xmit_seals hsl hseal hlen)))

/-- Settles O32: what `awaiting` does, then whether `xmit` can send. -/
theorem awaitingTickWaitsRetriesOrGivesUp : Obligations.AwaitingTickWaitsRetriesOrGivesUp := by
  intro s i d now hr hd
  refine ⟨fun hs => ?_, fun sl wire t0 hs hsl hseal hlen ht => ?_, fun sl t0 hs hsl hsec hdown ht => ?_⟩
  · exact execDevTick_waits hr hd (devTick_offline hs)
  · refine ⟨fun hx hn => ?_, fun hx => ?_, fun hx hn hb => ?_, fun hx hn hb => ?_⟩
    · exact execDevTick_waits hr hd ((devTick_inFlight hs hsl).trans (awaiting_waits hx ht hn))
    · exact execDevTick_finished hr hd
        ((devTick_inFlight hs hsl).trans ((awaiting_retransmits hx).trans (xmit_seals hsl hseal hlen)))
    · exact execDevTick_resends hr hd hs hsl hseal hlen hx ht hn hb
    · refine execDevTick_finished hr hd ((devTick_inFlight hs hsl).trans ((awaiting_givesUp hx ht hn hb).trans ?_))
      rw [goOffline_eq]
      rfl
  · refine ⟨fun hx => ?_, fun hx hn hb => ?_⟩
    · exact execDevTick_raised hr hd
        ((devTick_inFlight hs hsl).trans ((awaiting_retransmits hx).trans (xmit_notEstablished hsl hsec hdown)))
    · exact execDevTick_raised hr hd
        ((devTick_inFlight hs hsl).trans ((awaiting_retries hx ht hn hb).trans (xmit_notEstablished hsl hsec hdown)))

/-- A tick that comes to its last line: its notes come before those of the later ones. -/
theorem ticks_cons {a : Nat} {now : Time} {rest : List Time} {s s' : State} {fs : List Bytes} {ns : List Note}
    (h : exec (.devTick a now) s = .next (s'.finished fs ns)) :
    ticks a (now :: rest) s = (ticks a rest (s'.finished fs ns)).map fun r => (r.1, ns ++ r.2) := by
  simp only [ticks, h]
  cases ticks a rest (s'.finished fs ns) <;> rfl

/-- Settles O33, by induction on the ticks: each but the last sends the command again, which starts a new deadline. -/
theorem consecutiveTimeoutsEndOffline : Obligations.ConsecutiveTimeoutsEndOffline := by
  intro s i d sl wire t0 ts hr hd hs hsl hseal hlen hx ht hlt hsum hpast hpair
  induction ts generalizing s d t0 with
  | nil => exact absurd hsum hlt.ne
  | cons now rest ih =>
    obtain ⟨-, htick, -⟩ := awaitingTickWaitsRetriesOrGivesUp s i d now hr hd
    obtain ⟨-, -, -, hgiveUp⟩ := htick sl wire t0 hs hsl hseal hlen ht
    obtain ⟨hgap, hpair⟩ := List.pairwise_cons.mp hpair
    have hnow : t0 ≤ now := hpast now List.mem_cons_self
    rw [List.length_cons] at hsum
    cases rest with
    | nil =>
      have hlast : d.retry + 1 = s.par.retryMax := hsum
      have hrun : ticks i.toNat [now] s = some (_, _ ++ []) := ticks_cons (hgiveUp hx hnow hlast.ge)
      rw [List.append_nil] at hrun
      exact ⟨_, _, hrun, State.dev_setDev_same s i _, rfl, hlast⟩
    | cons next rest =>
      have hleft : d.retry + 1 < s.par.retryMax := by rw [List.length_cons] at hsum; omega
      have hsum : d.retry + 1 + (next :: rest).length = s.par.retryMax := by omega
      obtain ⟨t, d', hrun, hend⟩ := ih ((s.setDev i (some (d.resent s.par now (d.retry + 1)))).finished
        [frameOf s.par (mkPacket i sl.seq d.useCrc sl.sec sl.type wire)] []) (d.resent s.par now (d.retry + 1))
        (now + s.par.timeout) hr (State.dev_setDev_same s i _) hs hsl hseal hlen rfl rfl hleft hsum hgap hpair
      have hfirst := execDevTick_resends hr hd hs hsl hseal hlen hx ht hnow hleft
      exact ⟨t, d', (ticks_cons hfirst).trans (congrArg (Option.map _) hrun), hend⟩

/-! ### DEV_TICK that sends the next command -/

section
variable {e : Env} {now : Time} {w w1 : Work Device} {c : Cmd} {rest : List Cmd} {t : Byte} {p wire : Bytes}
  {sec : Bool}

/-- `send` of a command that fits, plain or secure (R186). -/
theorem send_seals (hsec : (slotFor e.par w.ctx t p).sec = sec) (hseal : Seals e.par w.ctx.sc sec p wire)
    (hlen : wire.length ≤ e.par.maxPayload) : send e now t p w = Work.done { w with
      ctx := { w.ctx with
        slot := some { type := t, payload := p, seq := w.ctx.seq, sec := sec },
        deadline := some (now + e.par.timeout), lastpoll := some now, retxp := false }
      frames := w.frames ++ [frameOf e.par (mkPacket e.id w.ctx.seq w.ctx.useCrc sec t wire)] } := by
  subst hsec
  exact xmit_seals rfl hseal hlen

/-- Off an established channel a command goes plain (R186). -/
theorem slotFor_plain {par : Params} {d : Device} (hs : d.sc.state ≠ .established) (t : Byte) (p : Bytes) :
    (slotFor par d t p).sec = false := by simp [slotFor, hs]

/-- On an established channel any command but the two of the handshake goes secure (R186). -/
theorem slotFor_ordinary {par : Params} {d : Device} (hs : d.sc.state = .established) (h1 : t ≠ par.tChlng)
    (h2 : t ≠ par.tScrypt) (p : Bytes) : (slotFor par d t p).sec = true := by simp [slotFor, hs, h1, h2]

/-- A tick in `Polling` sends what `pickCommand` picked and awaits the reply (R187). -/
theorem tickPolling_sends (hpick : pickCommand e w = .ok (w1, c))
    (hsec : (slotFor e.par w1.ctx c.type c.payload).sec = sec) (hseal : Seals e.par w1.ctx.sc sec c.payload wire)
    (hlen : wire.length ≤ e.par.maxPayload) : tickPolling e now w = Work.done { w1 with
      ctx := { w1.ctx with
        dstate := .awaitingReply, slot := some { type := c.type, payload := c.payload, seq := w1.ctx.seq, sec := sec },
        deadline := some (now + e.par.timeout), lastpoll := some now, retxp := false }
      frames := w1.frames ++ [frameOf e.par (mkPacket e.id w1.ctx.seq w1.ctx.useCrc sec c.type wire)] } := by
  simp only [tickPolling, hpick, send_seals hsec hseal hlen, Work.done_andThen]

/-- Off an established channel the head of the queue is picked, else a poll (R187). -/
theorem pickCommand_plain (hs : w.ctx.sc.state ≠ .established)
    (hq : (w.ctx.cmdq = [] ∧ c = { type := e.par.tPoll, payload := [] } ∧ rest = []) ∨ w.ctx.cmdq = c :: rest) :
    pickCommand e w = .ok ({ w with ctx := { w.ctx with cmdq := rest } }, c) := by
  obtain ⟨hq, rfl, rfl⟩ | hq := hq
  · simp only [pickCommand, hq]
    rw [← hq]
  · simp only [pickCommand, hq, hs, if_false]

/-- On an established channel a poll goes instead of a queued command too long to be wrapped (R187). -/
theorem pickCommand_secure {ke : Bytes} {ns : List Note} (hs : w.ctx.sc.state = .established)
    (hk : w.ctx.sc.sEnc = some ke) (hfit : (enc e.par ke c.payload).length + e.par.macLen ≤ e.par.maxPayload)
    (hq : (w.ctx.cmdq = [] ∧ c = { type := e.par.tPoll, payload := [] } ∧ rest = [] ∧ ns = []) ∨
      (w.ctx.cmdq = c :: rest ∧ ns = []) ∨
      (∃ long : Cmd, w.ctx.cmdq = long :: rest ∧
        e.par.maxPayload < (enc e.par ke long.payload).length + e.par.macLen ∧
        c = { type := e.par.tPoll, payload := [] } ∧
        ns = [.commandFailed e.id long.type (.refusal .invalidPacket)])) :
    pickCommand e w = .ok ({ w with ctx := { w.ctx with cmdq := rest }, notes := w.notes ++ ns }, c) := by
  obtain ⟨hq, rfl, rfl, rfl⟩ | ⟨hq, rfl⟩ | ⟨long, hq, hlong, rfl, rfl⟩ := hq
  · simp only [pickCommand, hq, List.append_nil]
    rw [← hq]
  · simp only [pickCommand, hq, hs, hk, Nat.not_lt.mpr hfit, if_true, if_false, List.append_nil]
  · simp only [pickCommand, hq, hs, hk, hlong, if_true, Work.note]

theorem devTick_polling (hs : w.ctx.dstate = .polling) : devTick e now w = tickPolling e now w := by
  simp only [devTick, hs]

end

/-- Settles O30, by `pickCommand_plain`. -/
theorem pollingTickSendsPlain : Obligations.PollingTickSendsPlain := by
  intro s i d c rest now hr hd hpoll hs hq hlen
  have hpick := pickCommand_plain (e := s.cpEnv i) (w := Work.start d (s.drawn i)) hs hq
  exact execDevTick_finished hr hd
    ((devTick_polling hpoll).trans (tickPolling_sends hpick (slotFor_plain hs _ _) (.inl ⟨rfl, rfl⟩) hlen))

/-- Settles O31, by `pickCommand_secure`; a secure poll fits by `paramsOk_securePollFits`. -/
theorem pollingTickSendsSecure : Obligations.PollingTickSendsSecure := by
  intro s i d ke km c rest notes now hok hr hd hpoll hs he hm h1 h2 hlong hq
  have hfit : (enc s.par ke c.payload).length + s.par.macLen ≤ s.par.maxPayload := by
    by_cases hp : c.payload = []
    · rw [hp]
      exact paramsOk_securePollFits hok ke
    · exact hlong hp
  have hlen : (enc s.par ke c.payload ++ mac s.par km (enc s.par ke c.payload)).length ≤ s.par.maxPayload := by
    rw [List.length_append, mac_length hok]
    exact hfit
  have hpick := pickCommand_secure (e := s.cpEnv i) (w := Work.start d (s.drawn i)) hs he hfit hq
  exact execDevTick_finished hr hd
    ((devTick_polling hpoll).trans
      (tickPolling_sends hpick (slotFor_ordinary hs h1 h2 _) (seals_of_keys hs he hm) hlen))

/-! ### DEV_TICK in a handshake with nothing in flight -/

section
variable {e : Env} {now : Time} {w : Work Device}

/-- From `Idle` and from `Broken` a tick sends a challenge, a broken channel being reset before (R187). -/
theorem devTick_challenges (hd : w.ctx.dstate = .secureHandshake) (hsl : w.ctx.slot = none)
    (hs : w.ctx.sc = Sc.init ∨ w.ctx.sc.state = .broken) :
    devTick e now w = tickChallenge e now { w with
      ctx := { w.ctx with sc := Sc.init }
      notes := w.notes ++ if w.ctx.sc.state = .broken then [.scStatus e.id .none] else [] } := by
  obtain hs | hs := hs
  · have hidle : w.ctx.sc.state = .idle := by rw [hs, Sc.init]
    have hw : { w with ctx := { w.ctx with sc := Sc.init }, notes := w.notes ++ [] } = w := by
      rw [← hs, List.append_nil]
    rw [if_neg (by simp [hidle]), hw]
    simp [devTick, hd, tickHandshake, hsl, hidle]
  · simp [devTick, hd, tickHandshake, hsl, hs, cpScReset_eq, Sc.init]

/-- A challenge is the device's next draw, followed by the capabilities (R143, R187). -/
theorem tickChallenge_sends (hs : w.ctx.sc.state = .idle)
    (hlen : e.par.chalLen + e.par.cpCaps.length ≤ e.par.maxPayload) :
    tickChallenge e now w =
      let rnd := drawBytes e.id e.par.chalLen w.draws
      Work.done {
        ctx := { w.ctx with
          seq := 0, sc := { w.ctx.sc with state := .challengeSent, rndCp := some rnd },
          slot := some { type := e.par.tChlng, payload := rnd ++ e.par.cpCaps, seq := 0, sec := false },
          deadline := some (now + e.par.timeout), lastpoll := some now, retxp := false }
        draws := w.draws + 1
        frames := w.frames ++ [frameOf e.par (mkPacket e.id 0 w.ctx.useCrc false e.par.tChlng (rnd ++ e.par.cpCaps))]
        notes := w.notes ++ [.scStatus e.id .pending] } := by
  simp only [tickChallenge, scCpBegin_eq _ _ hs]
  refine send_seals (slotFor_plain (by simp) _ _) (.inl ⟨rfl, rfl⟩) ?_
  rw [List.length_append, drawBytes_length]
  exact hlen

theorem devTick_confirms (hd : w.ctx.dstate = .secureHandshake) (hsl : w.ctx.slot = none)
    (hs : w.ctx.sc.state = .challengeReceived) : devTick e now w = tickConfirm e now w := by
  simp [devTick, hd, tickHandshake, hsl, hs]

/-- The confirmation is the cryptogram over both challenges (R145, R187). -/
theorem tickConfirm_sends {k rcp rpd : Bytes} (hok : paramsOk e.par = true) (hs : w.ctx.sc.state = .challengeReceived)
    (hk : e.key = some k) (hrcp : w.ctx.sc.rndCp = some rcp) (hrpd : w.ctx.sc.rndPd = some rpd) :
    tickConfirm e now w = Work.done { w with
      ctx := { w.ctx with
        slot := some { type := e.par.tScrypt, payload := cgramCp e.par k rcp rpd, seq := w.ctx.seq, sec := false },
        deadline := some (now + e.par.timeout), lastpoll := some now, retxp := false }
      frames := w.frames ++
        [frameOf e.par (mkPacket e.id w.ctx.seq w.ctx.useCrc false e.par.tScrypt (cgramCp e.par k rcp rpd))] } := by
  have hlen : (cgramCp e.par k rcp rpd).length ≤ e.par.maxPayload := by
    obtain ⟨-, -, -, -, -, -, -, -, hfits, -⟩ := paramsOk_facts hok
    rwa [cgramCp_length hok]
  have hw : absorbSc w { sc := w.ctx.sc, notes := [], drew := false, out := .ok (cgramCp e.par k rcp rpd) } = w := by
    simp [absorbSc]
  simp only [tickConfirm, scCpConfirm_eq hs hk hrcp hrpd, hw]
  exact send_seals (slotFor_plain (by simp [hs]) _ _) (.inl ⟨rfl, rfl⟩) hlen

/-- With the key gone the channel breaks, and no command is in flight to fail (R145, R197). -/
theorem tickConfirm_noKey (hd : w.ctx.dstate = .secureHandshake) (hsl : w.ctx.slot = none)
    (hs : w.ctx.sc.state = .challengeReceived) (hk : e.key = none) :
    tickConfirm e now w = Work.done { w with
      ctx := { w.ctx with
        sc := { Sc.init with state := .broken }, seq := 0, retxp := false, resync := false, deadline := none }
      notes := w.notes ++ [.scStatus e.id .broken, .error e.id .noKey] } := by
  simp [tickConfirm, scCpConfirm_noKey hs hk, scBreakRaise, absorbSc, hs, channelBroken, Work.note, hsl, hd]

end

/-- Settles O34, the draw being the device's next one. -/
theorem handshakeTickSendsTheNextMessage : Obligations.HandshakeTickSendsTheNextMessage := by
  intro s i d now hok hr hd hds hsl
  refine ⟨fun hs => ⟨drawBytes i s.par.chalLen (s.drawn i), drawBytes_length _ _ _, ?_⟩,
    fun k rcp rpd hs hrcp hrpd hk => ?_, fun hs hk => ?_⟩
  · have hlen : s.par.chalLen + s.par.cpCaps.length ≤ s.par.maxPayload := by
      obtain ⟨-, -, hcaps, -, -, -, hfits, -⟩ := paramsOk_facts hok
      rwa [hcaps]
    have hrun := (devTick_challenges (e := s.cpEnv i) (now := now) (w := Work.start d (s.drawn i)) hds hsl hs).trans
      (tickChallenge_sends rfl hlen)
    show execDevTick i.toNat now s = _
    rw [execDevTick, onDevice_some hr hd, hrun, finishDev_done]
    rfl
  · exact execDevTick_finished hr hd
      ((devTick_confirms hds hsl hs).trans (tickConfirm_sends hok hs hk hrcp hrpd))
  · exact execDevTick_finished hr hd
      ((devTick_confirms hds hsl hs).trans (tickConfirm_noKey hds hsl hs hk))

/-! ### A reply to the command in flight -/

theorem paramsOk_tChlng_ne_tScrypt {par : Params} (h : paramsOk par = true) : par.tChlng ≠ par.tScrypt := by
  obtain ⟨-, -, -, -, -, hne, -⟩ := paramsOk_facts h
  exact hne

section
variable {e : Env} {w : Work Device} {sl : Slot} {q : Packet} {pay : Bytes}

/-- `go_offline` of a device whose accumulator is empty leaves that as it is (R189). -/
theorem goOffline_of_rxbuf_nil (r : OfflineReason) (hrx : w.ctx.rxbuf = []) : goOffline e r w = { w with
    ctx := { w.ctx with
      sc := Sc.init, dstate := .offline, slot := none, retxp := false, resync := false, deadline := none,
      cmdq := [], online := false }
    notes := w.notes ++ (if w.ctx.sc.state = .idle then [] else [.scStatus e.id .none]) ++ [.offline e.id r] } := by
  simp only [goOffline_eq, hrx]

/-- The first stale reply: the same command with number 0 is to be sent again (R192). -/
theorem desync_first (hsl : w.ctx.slot = some sl) (hf : w.ctx.resync = false) : desync e w = { w with
    ctx := { w.ctx with resync := true, seq := 0, slot := some { sl with seq := 0 }, retxp := true }
    notes := w.notes ++ [.error e.id .desync] } := by
  simp [desync, hf, hsl, Work.note]

theorem desync_again (hf : w.ctx.resync = true) :
    desync e w = goOffline e .desync (w.note (.error e.id .desync)) := if_pos hf

theorem unexpected_left (code : ErrorCode) (hb : w.ctx.retry + 1 < e.par.retryMax) : unexpected e code w = { w with
    ctx := { w.ctx with retry := w.ctx.retry + 1, retxp := true }
    notes := w.notes ++ [.error e.id code] } := by
  simp only [unexpected, boundedRetry_left (w := w.note (.error e.id code)) hb, if_true]
  rfl

theorem unexpected_spent (code : ErrorCode) (hb : e.par.retryMax ≤ w.ctx.retry + 1) :
    unexpected e code w = goOffline e .unreachable
      { w with ctx := { w.ctx with retry := w.ctx.retry + 1 }, notes := w.notes ++ [.error e.id code] } := by
  simp only [unexpected, boundedRetry_spent (w := w.note (.error e.id code)) hb, Bool.false_eq_true, if_false]
  rfl

/-- `complete`: the number advances, the counts are cleared, a device not seen before comes online (R194). -/
theorem complete_eq : complete e sl w = { w with
    ctx := { w.ctx with
      seq := sl.seq + 1, retry := 0, resync := false, retxp := false, slot := none, deadline := none, online := true }
    notes := w.notes ++ if w.ctx.online = true then [] else [.online e.id] } := by
  cases ho : w.ctx.online <;> simp [complete, ho, Work.note, nextSeq]

theorem acceptPlain_stale (hsqn : q.sqn ≠ sl.seq) : acceptPlain e sl q pay w = (desync e w).done := if_pos hsqn

section
variable (hsqn : q.sqn = sl.seq)
include hsqn

theorem acceptPlain_illegal (hlegal : replyLegal e.par sl.type q.type = false) :
    acceptPlain e sl q pay w = (unexpected e .unexpectedReply w).done := by
  simp [acceptPlain, hsqn, hlegal]

variable (hlegal : replyLegal e.par sl.type q.type = true)
include hlegal

theorem acceptPlain_malformed (hc : sl.type ≠ e.par.tChlng) (hschema : schemaOk e.par sl q.type pay = false) :
    acceptPlain e sl q pay w = (unexpected e .malformedPayload w).done := by
  simp [acceptPlain, hsqn, hlegal, hc, hschema]

theorem acceptPlain_challenge (hc : sl.type = e.par.tChlng) : acceptPlain e sl q pay w = onCcrypt e sl pay w := by
  rw [hc] at hlegal
  simp [acceptPlain, hsqn, hlegal, hc]

theorem acceptPlain_confirmation (hne : e.par.tChlng ≠ e.par.tScrypt) (hc : sl.type = e.par.tScrypt) (hp : pay = []) :
    acceptPlain e sl q pay w = onScdone e sl w := by
  rw [hc] at hlegal
  simp [acceptPlain, hsqn, hlegal, hc, hne.symm, hp, schemaOk]

theorem acceptPlain_ordinary (hc : sl.type ≠ e.par.tChlng) (hs : sl.type ≠ e.par.tScrypt)
    (hschema : schemaOk e.par sl q.type pay = true) :
    acceptPlain e sl q pay w = (success e sl q.type pay w).done := by
  simp [acceptPlain, hsqn, hlegal, hc, hs, hschema]

end

/-- A payload of the wrong length in answer to a challenge counts like any illegal reply (R195). -/
theorem onCcrypt_malformed (hs : w.ctx.sc.state = .challengeSent)
    (hl : pay.length ≠ e.par.chalLen + e.par.cryptoLen) :
    onCcrypt e sl pay w = (unexpected e .malformedPayload w).done := by
  simp [onCcrypt, scCpVerify_malformed hs hl, scStop, absorbSc]

end

section
variable {s : State} {i : DevId} {d d' : Device} {sl : Slot} {q : Packet} {pay : Bytes} {ns : List Note}
  (hr : s.par.role = .cp) (hd : s.dev i = some d)
include hr hd

/-- Bytes for a registered device do the same through the multiplexer (R242). -/
theorem execMuxRx_eq_execDevRx (b : Bytes) : execMuxRx i.toNat b s = execDevRx i.toNat b s := by
  rw [execMuxRx, execDevRx, muxRoute_some hr hd, onDevice_some hr hd]

/-- A good frame that answers the command in flight ends as its opened payload is handled (R190, R191). -/
theorem execDevRx_reply (hok : paramsOk s.par = true) (hq : packetValid s.par q = true) (hon : d.dstate ≠ .offline)
    (hrx : d.rxbuf = []) (hsl : d.slot = some sl) (hid : q.devid = i) (hopen : Opens s.par d.sc q.sec q.payload pay)
    (h : acceptPlain (s.cpEnv i) sl q pay (Work.start d (s.drawn i)) =
      Work.done { ctx := d', draws := s.drawn i, frames := [], notes := ns }) :
    execDevRx i.toNat (frameOf s.par q) s = .next ((s.setDev i (some d')).finished [] ns) := by
  have hopened : acceptReply (s.cpEnv i) q (Work.start d (s.drawn i)) = _ := acceptReply_opens hok hid hsl hopen
  rw [execDevRx_frameOf hr hd (paramsOk_facts hok).1 hq hon hrx, hopened, h, finishDev_done,
    State.setDrawn_self_setDev]

end

/-- Settles O35, by `acceptPlain_ordinary`. -/
theorem goodReplyCompletesTheExchange : Obligations.GoodReplyCompletesTheExchange := by
  intro s i d sl q pay hok hr hd hq hs hrx hsl hc hsc hid hopen hsqn hlegal hen completed
  have hschema : schemaOk s.par sl q.type pay = true := by
    rw [schemaOk, if_neg hsc]
    cases h : regRpl s.par q.type with
    | none => rfl
    | some en => exact hen en h
  have hrun : execDevRx i.toNat (frameOf s.par q) s = completed := by
    refine execDevRx_reply hr hd hok hq (by simp [hs]) hrx hsl hid hopen
      ((acceptPlain_ordinary hsqn hlegal hc hsc hschema).trans ?_)
    rw [success, complete_eq]
    rfl
  exact ⟨hrun, (execMuxRx_eq_execDevRx hr hd _).trans hrun⟩

/-- Settles O36, by the two cases of `desync`. -/
theorem staleReplyResyncsOnceThenOffline : Obligations.StaleReplyResyncsOnceThenOffline := by
  intro s i d sl q pay hok hr hd hq hon hrx hsl hid hopen hsqn
  refine ⟨fun hf => ?_, fun hf => ?_⟩
  · refine execDevRx_reply hr hd hok hq hon hrx hsl hid hopen ((acceptPlain_stale hsqn).trans ?_)
    rw [desync_first hsl hf]
    rfl
  · refine execDevRx_reply hr hd hok hq hon hrx hsl hid hopen ((acceptPlain_stale hsqn).trans ?_)
    rw [desync_again hf, goOffline_of_rxbuf_nil _ hrx]
    rfl

/-- Settles O37: every one of these replies is handled by `unexpected`. -/
theorem illegalReplyCountsAgainstTheBudget : Obligations.IllegalReplyCountsAgainstTheBudget := by
  intro s i d sl q pay code hok hr hd hq hon hrx hsl hid hopen hsqn hbad
  have hrun : acceptPlain (s.cpEnv i) sl q pay (Work.start d (s.drawn i)) =
      (unexpected (s.cpEnv i) code (Work.start d (s.drawn i))).done := by
    obtain ⟨hlegal, rfl⟩ | ⟨hlegal, rfl, ⟨hc, hsc, en, hen, hno⟩ | ⟨hsc, hp⟩ | ⟨hc, hs, hl⟩⟩ := hbad
    · exact acceptPlain_illegal hsqn hlegal
    · exact acceptPlain_malformed hsqn hlegal hc (by simp [schemaOk, hsc, hen, hno])
    · have hne : s.par.tChlng ≠ s.par.tScrypt := paramsOk_tChlng_ne_tScrypt hok
      exact acceptPlain_malformed hsqn hlegal (by simp [hsc, hne.symm]) (by simp [schemaOk, hsc, hp])
    · exact (acceptPlain_challenge hsqn hlegal hc).trans (onCcrypt_malformed hs hl)
  refine ⟨fun hb => ?_, fun hb => ?_⟩
  · refine execDevRx_reply hr hd hok hq hon hrx hsl hid hopen (hrun.trans ?_)
    rw [unexpected_left code hb]
    rfl
  · refine execDevRx_reply hr hd hok hq hon hrx hsl hid hopen (hrun.trans ?_)
    rw [unexpected_spent code hb, goOffline_of_rxbuf_nil _ hrx]
    rfl

/-! ### A frame with a wrong check -/

/-- Bytes that make one error on an empty accumulator are reported (R190, R254). -/
theorem devRx_error {e : Env} {b : Bytes} {x : ErrorCode} {w : Work Device} (hon : w.ctx.dstate ≠ .offline)
    (hrx : w.ctx.rxbuf = []) (hf : feed e.par [] b = ([.error x], [])) :
    devRx e b w = (w.note (.error e.id x)).done := by
  have hw : { w with ctx := { w.ctx with rxbuf := [] } } = w := by rw [← hrx]
  simp only [devRx, hon, hrx, hf, eachVerdict_one, hw, cpVerdict, if_false]

/-- Settles O39, by `feed_frame`. -/
theorem badCheckIsReportedAndDiscarded : Obligations.BadCheckIsReportedAndDiscarded := by
  intro s i d q k hr hd hmax hq hon hrx body hk hne
  obtain ⟨hpay, hlen⟩ := (packetValid_iff hmax).mp hq
  have hfeed : feed s.par [] (body ++ k) = ([.error .checksumInvalid], []) := by
    rw [feed_frame s.par q.mbl q.crc (packetBody q) k hlen hpay (hk.trans (checkBytes_length _ _ _)), if_neg hne]
  show execDevRx i.toNat (body ++ k) s = _
  exact onDevice_kept hr hd (devRx_error hon hrx hfeed)

/-! ### The replies of the handshake -/

theorem replyLegal_of_cmdIs {par : Params} {t r : Byte} {n : Nat} (h : cmdIs par t r n = true) :
    replyLegal par t r = true := by
  unfold cmdIs at h
  unfold replyLegal
  cases hen : regCmd par t with
  | none => simp [hen] at h
  | some en =>
    simp only [hen, Bool.and_eq_true, Bool.not_eq_true', List.isEmpty_eq_false_iff_exists_mem, List.all_eq_true,
      beq_iff_eq] at h
    obtain ⟨⟨⟨x, hx⟩, hall⟩, -⟩ := h
    simpa [hall x hx] using hx

/-- The registry allows the two handshake replies (R9). -/
theorem replyLegal_handshake {par : Params} (h : paramsOk par = true) :
    replyLegal par par.tChlng par.tCcrypt = true ∧ replyLegal par par.tScrypt par.tScdone = true := by
  unfold paramsOk at h
  simp only [Bool.and_eq_true] at h
  exact ⟨replyLegal_of_cmdIs (by tauto), replyLegal_of_cmdIs (by tauto)⟩

section
variable {e : Env} {w : Work Device} {sl : Slot} {pay k rcp rpd cg : Bytes}

/-- The answer to a challenge is the PD's challenge and a cryptogram, which is compared (R144). -/
theorem scCpVerify_append {sc : Sc} (hs : sc.state = .challengeSent) (hrpd : rpd.length = e.par.chalLen)
    (hl : (rpd ++ cg).length = e.par.chalLen + e.par.cryptoLen) (hk : e.key = some k) (hrcp : sc.rndCp = some rcp) :
    scCpVerify e (rpd ++ cg) sc =
      if cg = cgramPd e.par k rcp rpd then
        { sc := { state := .challengeReceived, rndCp := some rcp, rndPd := some rpd,
                  sEnc := some (kdfEnc e.par k rcp rpd), sMac := some (kdfMac e.par k rcp rpd) },
          notes := [], drew := false, out := .ok () }
      else scBreakRaise e.id sc .cryptogramInvalid := by
  rw [scCpVerify_compares hs hl hk hrcp, List.take_left' hrpd, List.drop_left' hrpd]

/-- A verified answer completes the first exchange (R195). -/
theorem onCcrypt_verified {sc : Sc}
    (hv : scCpVerify e pay w.ctx.sc = { sc := sc, notes := [], drew := false, out := .ok () }) :
    onCcrypt e sl pay w = (complete e sl { w with ctx := { w.ctx with sc := sc } }).done := by
  simp [onCcrypt, hv, absorbSc]

/-- An answer that breaks the channel drops the challenge in flight (R195, R197). -/
theorem onCcrypt_breaks {x : ErrorCode} (hx : x = .noKey ∨ x = .cryptogramInvalid)
    (hv : scCpVerify e pay w.ctx.sc = scBreakRaise e.id w.ctx.sc x) (hs : w.ctx.sc.state = .challengeSent)
    (hd : w.ctx.dstate = .secureHandshake) (hsl : w.ctx.slot = some sl) :
    onCcrypt e sl pay w = Work.done { w with
      ctx := { w.ctx with
        sc := { Sc.init with state := .broken }, seq := 0, slot := none, retxp := false, resync := false,
        deadline := none }
      notes := w.notes ++ [.scStatus e.id .broken, .error e.id x, .commandFailed e.id sl.type (.error x)] } := by
  obtain rfl | rfl := hx <;> simp [onCcrypt, hv, scBreakRaise, absorbSc, channelBroken, Work.note, hsl, hs, hd]

/-- The PD's acceptance establishes the channel; the device polls again (R196). -/
theorem onScdone_establishes (hs : w.ctx.sc.state = .challengeReceived) :
    onScdone e sl w = Work.done { w with
      ctx := { w.ctx with
        sc := { w.ctx.sc with state := .established }, dstate := .polling, seq := sl.seq + 1, retry := 0,
        resync := false, retxp := false, slot := none, deadline := none, online := true }
      notes := w.notes ++ [.scStatus e.id .established] ++ if w.ctx.online = true then [] else [.online e.id] } := by
  simp [onScdone, scCpFinish_eq hs, absorbSc, complete_eq]

end

/-- A plain packet that answers the command in flight, delivered as it is or as its frame, ends as its payload is
handled (R190, R191). -/
theorem plainReply_received {s : State} {i : DevId} {d d' : Device} {sl : Slot} {m : Message} {t : Byte}
    {ns : List Note} (hok : paramsOk s.par = true) (hr : s.par.role = .cp) (hd : s.dev i = some d)
    (hon : d.dstate ≠ .offline) (hsl : d.slot = some sl) (hid : m.devid = i) (hsec : m.sec = false)
    (h : acceptPlain (s.cpEnv i) sl (messagePacket t m) m.payload (Work.start d (s.drawn i)) =
      Work.done { ctx := d', draws := s.drawn i, frames := [], notes := ns }) :
    deliverMessage i.toNat t m s = .next ((s.setDev i (some d')).finished [] ns) ∧
    (d.rxbuf = [] → m.payload.length ≤ s.par.maxPayload →
      execDevRx i.toNat (frameOf s.par (messagePacket t m)) s = .next ((s.setDev i (some d')).finished [] ns)) := by
  have hopens : Opens s.par d.sc m.sec m.payload m.payload := .inl ⟨hsec, rfl⟩
  have hdelivered : deliverMessage i.toNat t m s = .next ((s.setDev i (some d')).finished [] ns) := by
    have hopened : acceptReply (s.cpEnv i) (messagePacket t m) (Work.start d (s.drawn i)) =
        acceptPlain (s.cpEnv i) sl (messagePacket t m) m.payload (Work.start d (s.drawn i)) :=
      acceptReply_opens hok hid hsl hopens
    have hpacket : cpPacket (s.cpEnv i) (messagePacket t m) (Work.start d (s.drawn i)) =
        Work.done { ctx := d', draws := s.drawn i, frames := [], notes := ns } :=
      (if_neg hon).trans (hopened.trans h)
    simp only [deliverMessage, hr, muxRoute_some hr hd, hpacket, finishDev_done, State.setDrawn_self_setDev]
  exact ⟨hdelivered, fun hrx hpay => (deliverMessage_cp hok hpay hr hd hrx t).symm.trans hdelivered⟩

/-- Settles O40, by the cases of `onCcrypt` and of `onScdone`. -/
theorem handshakeRepliesAdvanceTheHandshake : Obligations.HandshakeRepliesAdvanceTheHandshake := by
  intro s i d sl m hok hr hd hds hsl hid hsec hsqn received online done broken
  obtain ⟨hccrypt, hscdone⟩ := replyLegal_handshake hok
  have hon : d.dstate ≠ .offline := by simp [hds]
  refine ⟨fun hc hs hl => ?_, fun hc hs hp => ?_⟩
  · rw [← hc] at hccrypt
    have hbroken {x : ErrorCode} (hx : x = .noKey ∨ x = .cryptogramInvalid)
        (hv : scCpVerify (s.cpEnv i) m.payload d.sc = scBreakRaise i d.sc x) :
        received (.tCcrypt i.toNat m) s.par.tCcrypt (broken x) := by
      refine plainReply_received hok hr hd hon hsl hid hsec
        ((acceptPlain_challenge hsqn hccrypt hc).trans ((onCcrypt_breaks hx hv hs hds hsl).trans ?_))
      rw [hc]
      rfl
    refine ⟨fun hk => hbroken (.inl rfl) (scCpVerify_noKey hs hl hk), fun k rcp rpd cg hrcp hk hrpd hm => ?_⟩
    have hv := scCpVerify_append (e := s.cpEnv i) hs hrpd (hm ▸ hl) hk hrcp
    rw [← hm] at hv
    refine ⟨fun hcg => ?_, fun hcg => hbroken (.inr rfl) (hv.trans (if_neg hcg))⟩
    refine plainReply_received hok hr hd hon hsl hid hsec
      ((acceptPlain_challenge hsqn hccrypt hc).trans ((onCcrypt_verified (hv.trans (if_pos hcg))).trans ?_))
    rw [complete_eq, ← hds]
    rfl
  · rw [← hc] at hscdone
    have hne : s.par.tChlng ≠ s.par.tScrypt := paramsOk_tChlng_ne_tScrypt hok
    exact plainReply_received hok hr hd hon hsl hid hsec
      ((acceptPlain_confirmation hsqn hscdone hne hc hp).trans (onScdone_establishes hs))

end Sys2Proof.Machine
end

section
/-! Proofs of the family `44_dsm_pd.md`: the PD's device state machine. A command is dropped, reported, answered by the PD
itself or handed to the application (O41, O44), the application's reply goes out or is refused (O45), and until it does
the PD only fills its accumulator (O60). -/

namespace Sys2Proof.Machine

/-! ### How an operation on the PD's context ends -/

section
variable {s : State} {p : Pdc} {fs : List Bytes} {ns : List Note} {g : Env → Work Pdc → Done Pdc}
  (hr : s.par.role = .pd)
include hr

/-- An operation on the PD's context depends on its procedure's work from the present context only. -/
theorem onPd_congr {g' : Env → Work Pdc → Done Pdc}
    (h : g s.pdEnv (Work.start s.pdc (s.drawn s.par.myAddr)) = g' s.pdEnv (Work.start s.pdc (s.drawn s.par.myAddr))) :
    onPd s g = onPd s g' := by
  rw [onPd_pd hr, onPd_pd hr, h]

/-- An operation on the PD's context whose procedure comes to its last line without a draw. -/
theorem onPd_finished
    (hg : g s.pdEnv (Work.start s.pdc (s.drawn s.par.myAddr)) =
      Work.done { ctx := p, draws := s.drawn s.par.myAddr, frames := fs, notes := ns }) :
    onPd s g = .next ({ s with pdc := p }.finished fs ns) := by
  rw [onPd_pd hr, hg, finishPd_done, State.setDrawn_self_pdc]

/-- An operation on the PD's context whose procedure raises an error with the context and the draws as they were. -/
theorem onPd_raised {x : ErrorCode}
    (hg : g s.pdEnv (Work.start s.pdc (s.drawn s.par.myAddr)) =
      Work.stopped { ctx := s.pdc, draws := s.drawn s.par.myAddr, frames := fs, notes := ns } (.raise x)) :
    onPd s g = .next { s with result := some { status := .error x, frames := fs, notes := ns, value := .none } } := by
  rw [onPd_pd hr, hg]
  simp only [finishPd, finish, Work.stopped_work, Work.stopped_stop, State.setDrawn_self]

/-- An operation on the PD's context whose procedure refuses. -/
theorem onPd_refuses {w : Work Pdc} {x : RefusalCode}
    (hg : g s.pdEnv (Work.start s.pdc (s.drawn s.par.myAddr)) = w.stopped (.refuse x)) :
    onPd s g = .next (s.refuse x) := by
  rw [onPd_pd hr, hg]
  rfl

end

/-! ### The checks of `accept_command` -/

section
variable {e : Env} {q : Packet} {pay : Bytes} {w : Work Pdc}

/-- A command for another device, or one that comes while another is processed, is dropped (R222, steps 1 and 2). -/
theorem acceptCommand_drops (h : q.devid ≠ e.id ∨ w.ctx.pdstate = .processingCommand) :
    acceptCommand e q w = w.done := by
  unfold acceptCommand
  split
  · rfl
  · rw [if_pos (h.resolve_left ‹_›)]

section
variable (hid : q.devid = e.id) (hst : w.ctx.pdstate ≠ .processingCommand) (hsec : q.sec = true)
include hid hst hsec

/-- A secure command without an established channel is only reported (R222, step 3). -/
theorem acceptCommand_notEstablished (hs : w.ctx.sc.state ≠ .established) :
    acceptCommand e q w = (w.note (.pdError .notEstablished)).done := by
  simp [acceptCommand, hid, hst, hsec, scUnwrap_notEstablished hs, scStop, absorbPdSc]

/-- A secure command with a wrong tag breaks the channel and is reported (R222, step 3). -/
theorem acceptCommand_badTag (hbad : scUnwrap e q.payload w.ctx.sc = scBreakRaise e.id w.ctx.sc .macInvalid)
    (hs : w.ctx.sc.state ≠ .broken) :
    acceptCommand e q w = Work.done { w with
      ctx := { w.ctx with sc := { Sc.init with state := .broken } }
      notes := w.notes ++ [.scStatus e.id .broken, .pdError .macInvalid] } := by
  simp [acceptCommand, hid, hst, hsec, hbad, scBreakRaise, absorbPdSc, hs, Work.note]

end

theorem seqValid_iff {n pseq : Seq} : seqValid n pseq = true ↔ n = 0 ∨ n = pseq := by simp [seqValid]

/-- A command with an invalid number is dropped (R222 step 4, R223). -/
theorem commandPlain_drops (h0 : q.sqn ≠ 0) (hseq : q.sqn ≠ w.ctx.pseq) : commandPlain e q pay w = w.done := by
  have hinvalid : ¬ seqValid q.sqn w.ctx.pseq = true := mt seqValid_iff.mp (not_or.mpr ⟨h0, hseq⟩)
  simp [commandPlain, hinvalid]

section
variable (hsqn : q.sqn = 0 ∨ q.sqn = w.ctx.pseq)
include hsqn

/-- A `T_CHLNG` with a valid number is answered by the PD itself (R222 step 5). -/
theorem commandPlain_chlng (ht : q.type = e.par.tChlng) : commandPlain e q pay w = onChlng e q pay w := by
  simp [commandPlain, seqValid_iff.mpr hsqn, ht]

/-- So is a `T_SCRYPT`. -/
theorem commandPlain_scrypt (hne : e.par.tChlng ≠ e.par.tScrypt) (ht : q.type = e.par.tScrypt) :
    commandPlain e q pay w = onScrypt e q pay w := by
  simp [commandPlain, seqValid_iff.mpr hsqn, ht, hne.symm]

end
end

/-! ### PD_RX of one good frame -/

/-- A frame that holds a valid packet is handled as that packet (R221). -/
theorem execPdRx_frameOf {s : State} {q : Packet} (hr : s.par.role = .pd) (hmax : s.par.maxPayload ≤ 65535)
    (hq : packetValid s.par q = true) (hrx : s.pdc.rxbuf = []) :
    execPdRx (frameOf s.par q) s = onPd s fun e w => acceptCommand e q w :=
  onPd_congr hr (pdRx_packet hrx (feed_frameOf hmax hq))

/-- A command that opens goes on to the sequence check from the start of the operation (R222). -/
theorem onPd_acceptCommand {s : State} {q : Packet} {pay : Bytes} (hok : paramsOk s.par = true) (hr : s.par.role = .pd)
    (hid : q.devid = s.par.myAddr) (hst : s.pdc.pdstate ≠ .processingCommand)
    (hopen : Opens s.par s.pdc.sc q.sec q.payload pay) :
    onPd s (fun e w => acceptCommand e q w) = onPd s fun e w => commandPlain e q pay w :=
  onPd_congr hr (acceptCommand_opens hok hid hst hopen)

/-- Settles O41, a check of `accept_command` at a time. -/
theorem pdRxAcceptsOrDropsACommand : Obligations.PdRxAcceptsOrDropsACommand := by
  intro s q hok hr hq hrx
  have hrun := execPdRx_frameOf hr (paramsOk_facts hok).1 hq hrx
  refine ⟨fun h => hrun.trans (onPd_finished hr (acceptCommand_drops h)), fun hid hst => ⟨fun pay hopen h0 hseq => ?_,
    fun pay hopen hsqn hchlng hscrypt => ?_, fun hsec hs => ?_, fun ke km hsec hs he hm hbad => ?_⟩⟩
  · exact (hrun.trans (onPd_acceptCommand hok hr hid hst hopen)).trans (onPd_finished hr (commandPlain_drops h0 hseq))
  · exact hrun.trans (onPd_application hr
      (fun w hw => acceptCommand_opens hok hid (hw ▸ hst) (hw ▸ hopen)) hsqn hchlng hscrypt)
  · exact hrun.trans (onPd_finished hr (acceptCommand_notEstablished hid hst hsec hs))
  · exact hrun.trans (onPd_finished hr
      (acceptCommand_badTag hid hst hsec (scUnwrap_bad hs he hm hbad) (by simp [hs])))

/-! ### The handshake commands -/

section
variable {e : Env} {q : Packet} {pay : Bytes} {w : Work Pdc} {x : ErrorCode}

/-- A challenge that fails is reported and not answered (R224). -/
theorem onChlng_reports (h : ∀ rnd, scPdChallenge e rnd pay w.ctx.sc = scStop w.ctx.sc (.raise x)) :
    onChlng e q pay w = (w.note (.pdError x)).done := by
  simp [onChlng, h, scStop, absorbPdSc]

/-- A challenge is answered with the PD's challenge, its next draw, and its cryptogram (R224). -/
theorem onChlng_answers {k rcp caps rnd : Bytes} (hok : paramsOk e.par = true) (hk : e.key = some k)
    (hrcp : rcp.length = e.par.chalLen) (hcaps : caps.length = e.par.capsLen)
    (hrnd : drawBytes e.id e.par.chalLen w.draws = rnd) :
    onChlng e q (rcp ++ caps) w = Work.done {
      ctx := { w.ctx with
        pdstate := .repliedWaiting, pseq := q.sqn + 1,
        sc := { state := .challengeSent, rndCp := some rcp, rndPd := some rnd, sEnc := some (kdfEnc e.par k rcp rnd),
                sMac := some (kdfMac e.par k rcp rnd) } }
      draws := w.draws + 1
      frames := w.frames ++ [frameOf e.par (mkPacket e.id q.sqn q.crc false e.par.tCcrypt
        (rnd ++ cgramPd e.par k rcp rnd))]
      notes := w.notes ++ ((if w.ctx.sc.state = .idle then [] else [.scStatus e.id .none])
        ++ [.scStatus e.id .pending]) } := by
  have hfits : (rnd ++ cgramPd e.par k rcp rnd).length ≤ e.par.maxPayload := by
    obtain ⟨-, -, -, -, -, -, -, hroom, -⟩ := paramsOk_facts hok
    rwa [← hrnd, List.length_append, drawBytes_length, cgramPd_length hok]
  simp only [onChlng, hrnd, scPdChallenge_eq hk hrcp hcaps]
  rw [pdSend_fits hfits]
  rfl

/-- A cryptogram out of place or of the wrong length is reported and not answered (R225). -/
theorem onScrypt_reports (h : scPdVerify e pay w.ctx.sc = scStop w.ctx.sc (.raise x)) :
    onScrypt e q pay w = (w.note (.pdError x)).done := by
  simp [onScrypt, h, scStop, absorbPdSc]

/-- One that cannot be verified breaks the channel (R225). -/
theorem onScrypt_breaks (h : scPdVerify e pay w.ctx.sc = scBreakRaise e.id w.ctx.sc x)
    (hs : w.ctx.sc.state ≠ .broken) : onScrypt e q pay w = Work.done { w with
      ctx := { w.ctx with sc := { Sc.init with state := .broken } }
      notes := w.notes ++ [.scStatus e.id .broken, .pdError x] } := by
  simp [onScrypt, h, scBreakRaise, absorbPdSc, hs, Work.note]

/-- The right one establishes the channel and is answered (R225). -/
theorem onScrypt_answers {sc : Sc} {ns : List Note}
    (h : scPdVerify e pay w.ctx.sc = { sc := sc, notes := ns, drew := false, out := .ok () }) :
    onScrypt e q pay w = Work.done { w with
      ctx := { w.ctx with pdstate := .repliedWaiting, pseq := q.sqn + 1, sc := sc }
      frames := w.frames ++ [frameOf e.par (mkPacket e.id q.sqn q.crc false e.par.tScdone [])]
      notes := w.notes ++ ns } := by
  simp only [onScrypt, h]
  rw [pdSend_fits (Nat.zero_le _)]
  rfl

end

section
variable {s : State} {m : Message} {type : Byte} {pay : Bytes} {t : State}

/-- A command that opens, delivered as it is or as its frame to PD_RX, ends as its payload is handled (R221, R222). -/
theorem command_received (a : Nat) (hok : paramsOk s.par = true) (hr : s.par.role = .pd)
    (hst : s.pdc.pdstate ≠ .processingCommand) (hid : m.devid = s.par.myAddr)
    (hopen : Opens s.par s.pdc.sc m.sec m.payload pay)
    (h : onPd s (fun e w => commandPlain e (messagePacket type m) pay w) = .next t) :
    deliverMessage a type m s = .next t ∧
    (s.pdc.rxbuf = [] → m.payload.length ≤ s.par.maxPayload →
      execPdRx (frameOf s.par (messagePacket type m)) s = .next t) := by
  have hdelivered : deliverMessage a type m s = .next t := by
    simp only [deliverMessage, hr]
    exact (onPd_acceptCommand (q := messagePacket type m) hok hr hid hst hopen).trans h
  exact ⟨hdelivered, fun hrx hpay => (deliverMessage_pd hok hpay a hr hrx type).symm.trans hdelivered⟩

end

/-- Settles O44, by the cases of `onChlng` and of `onScrypt`, the draw being the PD's next one. -/
theorem pdAnswersTheHandshake : Obligations.PdAnswersTheHandshake := by
  intro s a m pay hok hr hst hid hsqn hopen received chlng scrypt broken
  have hchlng {t : State} (h : onPd s (fun e w => onChlng e (messagePacket s.par.tChlng m) pay w) = .next t) :
      chlng t := by
    refine command_received a hok hr hst hid hopen (.trans (onPd_congr hr ?_) h)
    exact commandPlain_chlng hsqn rfl
  have hscrypt {t : State} (h : onPd s (fun e w => onScrypt e (messagePacket s.par.tScrypt m) pay w) = .next t) :
      scrypt t := by
    refine command_received a hok hr hst hid hopen (.trans (onPd_congr hr ?_) h)
    exact commandPlain_scrypt hsqn (paramsOk_tChlng_ne_tScrypt hok) rfl
  have hbroken {x : ErrorCode} (hs : s.pdc.sc.state = .challengeSent)
      (h : scPdVerify s.pdEnv pay s.pdc.sc = scBreakRaise s.par.myAddr s.pdc.sc x) : scrypt (broken x) :=
    hscrypt (onPd_finished hr (onScrypt_breaks h (by simp [hs])))
  refine ⟨fun hl => ?_, fun hl hk => ?_, fun k rcp caps hk hrcp hcaps hpay => ?_, fun hs => ?_, fun hs hl => ?_,
    fun hs hl => ⟨fun hk => hbroken hs (scPdVerify_noKey hs hl hk), fun k rcp rpd hk hrcp hrpd => ?_⟩⟩
  · exact hchlng (onPd_finished hr (onChlng_reports fun _ => scPdChallenge_malformed hl))
  · exact hchlng (onPd_finished hr (onChlng_reports fun _ => scPdChallenge_noKey hl hk))
  · subst hpay
    refine ⟨drawBytes s.par.myAddr s.par.chalLen (s.drawn s.par.myAddr), drawBytes_length _ _ _, hchlng ?_⟩
    rw [onPd_pd hr, onChlng_answers (e := s.pdEnv) hok hk hrcp hcaps rfl, finishPd_done]
    rfl
  · exact hscrypt (onPd_finished hr (onScrypt_reports (scPdVerify_notSent hs)))
  · exact hscrypt (onPd_finished hr (onScrypt_reports (scPdVerify_malformed hs hl)))
  · have hv := scPdVerify_compares (e := s.pdEnv) hs hl hk hrcp hrpd
    exact ⟨fun hcg => hbroken hs (hv.trans (if_neg hcg)),
      fun hcg => hscrypt (onPd_finished hr (onScrypt_answers (hv.trans (if_pos hcg))))⟩

/-! ### PD_REPLY -/

section
variable {e : Env} {w : Work Pdc} {c : Cur} {t : Byte} {p wire : Bytes}

theorem pdReply_wrongState (hst : w.ctx.pdstate ≠ .processingCommand) :
    pdReply e t p w = w.stopped (.refuse .wrongState) := if_pos hst

variable (hst : w.ctx.pdstate = .processingCommand) (hcur : w.ctx.cur = some c)
include hst hcur

theorem pdReply_notAllowed (ha : replyAllowed e.par c.type t = false) :
    pdReply e t p w = w.stopped (.refuse .replyNotAllowed) := by
  simp [pdReply, hst, hcur, ha]

variable (ha : replyAllowed e.par c.type t = true)
include ha

theorem pdReply_tooLong (hl : e.par.maxPayload < p.length) :
    pdReply e t p w = w.stopped (.refuse .invalidPacket) := by
  simp [pdReply, hst, hcur, ha, hl]

variable (hl : p.length ≤ e.par.maxPayload)
include hl

/-- A reply whose wrapping is refused is refused (R226). -/
theorem pdReply_refused {x : RefusalCode} (hw : wirePayload e.par w.ctx.sc c.sec p = .error (.refuse x)) :
    pdReply e t p w = w.stopped (.refuse x) := by
  simp [pdReply, hst, hcur, ha, Nat.not_lt.mpr hl, hw, Work.stoppedNoting]

/-- An error of wrapping ends the operation with its note (R152, R298; log entry 29). -/
theorem pdReply_raised {x : ErrorCode} (hw : wirePayload e.par w.ctx.sc c.sec p = .error (.raise x)) :
    pdReply e t p w = (w.note (.pdError x)).stopped (.raise x) := by
  simp [pdReply, hst, hcur, ha, Nat.not_lt.mpr hl, hw, Work.stoppedNoting]

/-- A reply that fits on the wire goes out with the command's number, and the PD waits for the next command (R226). -/
theorem pdReply_sends (hw : wirePayload e.par w.ctx.sc c.sec p = .ok wire) (hfits : wire.length ≤ e.par.maxPayload) :
    pdReply e t p w = Work.done { w with
      ctx := { w.ctx with pdstate := .repliedWaiting, pseq := c.seq + 1, cur := none }
      frames := w.frames ++ [frameOf e.par (mkPacket e.id c.seq c.crc c.sec t wire)] } := by
  simp only [pdReply, hst, hcur, ha, Nat.not_lt.mpr hl, hw, pdSend_fits hfits, ne_eq, not_true_eq_false, Bool.not_true,
    Bool.false_eq_true, if_false]
  rfl

end

/-- A payload that fits but is too long on the wire can only be a wrapped one, and wrapping it is refused (R150). -/
theorem wirePayload_seals_long {par : Params} {sc : Sc} {sec : Bool} {p wire : Bytes} (h : Seals par sc sec p wire)
    (hp : p.length ≤ par.maxPayload) (hl : par.maxPayload < wire.length) :
    wirePayload par sc sec p = .error (.refuse .invalidPacket) := by
  cases sec with
  | false =>
    obtain ⟨-, rfl⟩ | ⟨h, -⟩ := h
    · exact absurd hp (Nat.not_le.mpr hl)
    · cases h
  | true => exact scWrap_seals_long h hl

/-- PD_REPLY with a code in range is `pdReply` (R252; log entry 14). -/
theorem execPdReply_toNat (s : State) (t : Byte) (p : Bytes) :
    execPdReply t.toNat p s = onPd s fun e w => pdReply e t p w := by
  simp only [execPdReply, codeOf_toNat]

/-- Settles O45, a line of `pdReply` at a time. -/
theorem pdReplyAnswersTheCommand : Obligations.PdReplyAnswersTheCommand := by
  refine ⟨fun _ hc => decode_op hc, fun s t p hr => ?_⟩
  intro refused
  have hrun := execPdReply_toNat s t p
  refine ⟨fun hst => hrun.trans (onPd_refuses hr (pdReply_wrongState hst)), fun c hst hcur => ?_⟩
  intro allowed
  refine ⟨fun ha => ?_, fun ha hl => ?_, fun ha hl hsec hs => ?_,
    fun wire ha hl hseals => ⟨fun hlong => ?_, fun hfits => ?_⟩⟩
  · exact hrun.trans (onPd_refuses hr (pdReply_notAllowed hst hcur ha))
  · exact hrun.trans (onPd_refuses hr (pdReply_tooLong hst hcur ha hl))
  · have hw : wirePayload s.par s.pdc.sc c.sec p = .error (.raise .notEstablished) := hsec ▸ wirePayload_down hs p
    exact hrun.trans (onPd_raised hr (pdReply_raised (e := s.pdEnv) hst hcur ha hl hw))
  · have hw := wirePayload_seals_long hseals hl hlong
    exact hrun.trans (onPd_refuses hr (pdReply_refused (e := s.pdEnv) hst hcur ha hl hw))
  · have hw := wirePayload_seals hseals hfits
    exact hrun.trans (onPd_finished hr (pdReply_sends hst hcur ha hl hw hfits))

/-! ### A PD that owes a reply -/

/-- A busy PD drops a packet and reports an error of the framer (R221, R222 step 2). -/
theorem eachVerdict_busy (e : Env) : ∀ (vs : List Verdict) (w : Work Pdc), w.ctx.pdstate = .processingCommand →
    ∃ ns, eachVerdict (pdVerdict e) vs w = Work.done { w with notes := ns }
  | [], w, _ => ⟨w.notes, rfl⟩
  | .packet q :: vs, w, hst => by
    rw [eachVerdict, pdVerdict, acceptCommand_drops (.inr hst)]
    exact eachVerdict_busy e vs w hst
  | .error x :: vs, w, hst => eachVerdict_busy e vs (w.note (.pdError x)) hst

/-- So PD_RX of a busy PD leaves its accumulator and notes. -/
theorem pdRx_busy (e : Env) (c : Bytes) {w : Work Pdc} (hst : w.ctx.pdstate = .processingCommand) :
    ∃ ns, pdRx e c w =
      Work.done { w with ctx := { w.ctx with rxbuf := (feed e.par w.ctx.rxbuf c).2 }, notes := ns } :=
  eachVerdict_busy e _ _ hst

/-- The next state, if there is one, differs from `s` on the PD in its accumulator at most, and nothing was sent. -/
def OnlyAccumulates (s : State) (o : Host.Outcome State Fault Refusal) : Prop :=
  ∀ t, o = .next t →
    t.pdc = { s.pdc with rxbuf := t.pdc.rxbuf } ∧ t.draws = s.draws ∧ ∀ r, t.result = some r → r.frames = []

section
variable {s : State}

theorem OnlyAccumulates.next (rx : Bytes) {r : Result} (hr : r.frames = []) :
    OnlyAccumulates s (.next { s with pdc := { s.pdc with rxbuf := rx }, result := some r }) := by
  rintro _ ⟨⟩
  exact ⟨rfl, rfl, by rintro _ ⟨⟩; exact hr⟩

theorem OnlyAccumulates.refuse (x : RefusalCode) : OnlyAccumulates s (.next (s.refuse x)) := .next s.pdc.rxbuf rfl

theorem OnlyAccumulates.answer (st : Status) (v : Value) : OnlyAccumulates s (.next (s.answer st v)) :=
  .next s.pdc.rxbuf rfl

theorem OnlyAccumulates.wfEncode (p : RawPacket) : OnlyAccumulates s (execWfEncode p s) := by
  unfold execWfEncode
  split
  · exact .refuse _
  split
  · exact .refuse _
  · exact .answer _ _

theorem OnlyAccumulates.wfDecode (b : Bytes) : OnlyAccumulates s (execWfDecode b s) := by
  unfold execWfDecode
  split
  · exact .answer _ _
  · exact .answer _ _

theorem OnlyAccumulates.regLookupCmd (t : Nat) : OnlyAccumulates s (execRegLookupCmd t s) := by
  unfold execRegLookupCmd
  split
  · exact .refuse _
  · exact .answer _ _

theorem OnlyAccumulates.regLookupRpl (t : Nat) : OnlyAccumulates s (execRegLookupRpl t s) := by
  unfold execRegLookupRpl
  split
  · exact .refuse _
  · exact .answer _ _

variable (hr : s.par.role = .pd)
include hr

theorem OnlyAccumulates.wfFlush (a : Nat) : OnlyAccumulates s (execWfFlush a s) := by
  rw [execWfFlush_pd hr]
  exact .next [] rfl

variable (hst : s.pdc.pdstate = .processingCommand)
include hst

theorem OnlyAccumulates.pdRx (c : Bytes) : OnlyAccumulates s (execPdRx c s) := by
  obtain ⟨ns, hns⟩ := pdRx_busy s.pdEnv c (w := Work.start s.pdc (s.drawn s.par.myAddr)) hst
  have hrun : execPdRx c s =
      .next ({ s with pdc := { s.pdc with rxbuf := (feed s.par s.pdc.rxbuf c).2 } }.finished [] ns) :=
    onPd_finished hr hns
  rw [hrun]
  exact .next _ rfl

theorem OnlyAccumulates.deliver (a : Nat) (b : Bytes) : OnlyAccumulates s (deliver a b s) := by
  rw [deliver_pd a b hr]
  exact .pdRx hr hst b

theorem OnlyAccumulates.deliverMessage (a : Nat) (t : Byte) (m : Message) :
    OnlyAccumulates s (deliverMessage a t m s) := by
  have hrun : Machine.deliverMessage a t m s = .next (s.finished [] []) := by
    simp only [Machine.deliverMessage, hr]
    exact onPd_finished hr (acceptCommand_drops (.inr hst))
  rw [hrun]
  exact .next s.pdc.rxbuf rfl

/-- The operations of R298, RESET and PD_REPLY apart, an instruction only fills or empties a busy PD's accumulator. -/
theorem exec_onlyAccumulates {i : Instr} (hu : isUnitOp i = false) (hi : i ≠ .reset) (hp : ∀ c p, i ≠ .pdReply c p) :
    OnlyAccumulates s (exec i s) := by
  cases hcp : cpOnly i with
  | true =>
    rw [exec_cpOnly_of_pd hr hcp]
    exact .refuse _
  | false =>
    cases i with
    | wfFeed | scReset | scPdChallenge | scPdVerify | scWrap | scUnwrap => cases hu
    | reset => exact absurd rfl hi
    | pdReply c p => exact absurd rfl (hp c p)
    | wfEncode p => exact .wfEncode p
    | wfDecode b => exact .wfDecode b
    | wfFlush a => exact .wfFlush hr a
    | regLookupCmd t => exact .regLookupCmd t
    | regLookupRpl t => exact .regLookupRpl t
    | pdRx c => exact .pdRx hr hst c
    | frameSk a | frameSc a | frameLk a | frameLc a => exact .deliver hr hst a _
    | tPoll a m | tChlng a m | tCcrypt a m | tScrypt a m | tScdone a m => exact .deliverMessage hr hst a _ m
    | otherOp => exact .refuse _
    | _ => cases hcp

end

/-- Settles O60, by `exec_onlyAccumulates`: a busy PD's verdicts leave nothing but notes (`eachVerdict_busy`). -/
theorem busyPdOnlyAccumulates : Obligations.BusyPdOnlyAccumulates :=
  fun _ _ t hr hst hu hi hp h => exec_onlyAccumulates hr hst hu hi hp t h

end Sys2Proof.Machine
end

section
/-! Proofs of the family `45_bus_mux.md`: whom MUX_TICK serves (O46), that the line is half-duplex (O47), and where MUX_RX
routes bytes (O48). The choice of R241 is a search of the ids (`lowestBusy`, `nextEligible`); the device found gets
DEV_TICK's result (`serve_of_execDevTick`). -/

namespace Sys2Proof.Machine

/-! ### The times and the devices R241 speaks of -/

theorem deadlinePassed_iff {deadline : Option Time} {now : Time} :
    deadlinePassed deadline now = true ↔ ∃ t0, deadline = some t0 ∧ t0 ≤ now := by
  cases deadline <;> simp [deadlinePassed]

theorem gapOk_iff {par : Params} {lasttx : Option Time} {now : Time} :
    gapOk par lasttx now = true ↔ ∀ t0, lasttx = some t0 → t0 + par.turnaroundGap ≤ now := by
  cases lasttx <;> simp [gapOk]

theorem pollDue_iff {par : Params} {lastpoll : Option Time} {now : Time} :
    pollDue par lastpoll now = true ↔ ∀ t0, lastpoll = some t0 → t0 + par.pollInterval ≤ now := by
  cases lastpoll <;> simp [pollDue]

section
variable {s : State} {a : DevId} {d : Device} {now : Time}

theorem busy_some (hd : s.dev a = some d) : busy s a = d.slot.isSome := by simp only [busy, hd]

theorem busy_eq_false_iff : busy s a = false ↔ ∀ d, s.dev a = some d → d.slot = none := by
  cases hd : s.dev a <;> simp [busy, hd]

/-- Only a registered device is eligible. -/
theorem eligible_registered (h : eligible s now a = true) : ∃ d, s.dev a = some d := by
  cases hd : s.dev a with
  | none => simp [eligible, hd] at h
  | some d => exact ⟨d, rfl⟩

theorem eligible_polling (hd : s.dev a = some d) (hs : d.dstate = .polling)
    (hdue : ∀ t0, d.lastpoll = some t0 → t0 + s.par.pollInterval ≤ now) : eligible s now a = true := by
  simp [eligible, hd, hs, pollDue_iff.mpr hdue]

end

/-! ### The searches of R241 -/

/-- In a list of images of `0 .. n - 1` the first one that passes is found. -/
theorem find?_map_range {α : Type} {p : α → Bool} {f : Nat → α} {n k : Nat} (hk : k < n) (hp : p (f k) = true)
    (hmin : ∀ j, j < k → p (f j) = false) : ((List.range n).map f).find? p = some (f k) := by
  have hfirst : (List.range n).find? (p ∘ f) = some k :=
    List.find?_range_eq_some.mpr ⟨hp, List.mem_range.mpr hk, fun j hj => by simp [hmin j hj]⟩
  rw [List.find?_map, hfirst, Option.map_some]

theorem mem_allIds (b : DevId) : b ∈ allIds := List.mem_map.mpr ⟨b.toNat, List.mem_range.mpr b.isLt, by simp⟩

section
variable {s : State} {b : DevId} {now : Time}

theorem lowestBusy_eq_some (hb : busy s b = true) (hmin : ∀ c, c < b → busy s c = false) : lowestBusy s = some b := by
  have hid : BitVec.ofNat 7 b.toNat = b := by simp
  have hfind := find?_map_range (p := busy s) (f := BitVec.ofNat 7) b.isLt (hid.symm ▸ hb) fun j hj =>
    hmin _ (BitVec.lt_def.mpr (by rw [BitVec.toNat_ofNat]; omega))
  rwa [hid] at hfind

theorem lowestBusy_eq_none (h : ∀ b, busy s b = false) : lowestBusy s = none :=
  List.find?_eq_none.mpr fun b _ => by simp [h b]

/-- While a device has a command in flight, the search finds one that has. -/
theorem exists_lowestBusy (hb : busy s b = true) : ∃ c, lowestBusy s = some c ∧ busy s c = true := by
  cases h : lowestBusy s with
  | none => exact absurd hb (List.find?_eq_none.mp h b (mem_allIds b))
  | some c => exact ⟨c, rfl, List.find?_some h⟩

/-- The first eligible device after `RRPTR`, the search coming round to `RRPTR` last. -/
theorem nextEligible_eq_some {k : Nat} (h1 : 1 ≤ k) (hk : k ≤ 128)
    (ha : eligible s now (s.mux.rrptr + BitVec.ofNat 7 k) = true)
    (hmin : ∀ j, 1 ≤ j → j < k → eligible s now (s.mux.rrptr + BitVec.ofNat 7 j) = false) :
    nextEligible s now = some (s.mux.rrptr + BitVec.ofNat 7 k) := by
  obtain ⟨m, rfl⟩ : ∃ m, k = m + 1 := ⟨k - 1, by omega⟩
  exact find?_map_range (f := fun k => s.mux.rrptr + BitVec.ofNat 7 (k + 1)) hk ha
    fun j hj => hmin (j + 1) (Nat.le_add_left 1 j) (Nat.succ_lt_succ hj)

theorem nextEligible_eq_none (h : ∀ a, eligible s now a = false) : nextEligible s now = none :=
  List.find?_eq_none.mpr fun a _ => by simp [h a]

end

/-! ### MUX_TICK -/

section
variable {s t : State} {a b : DevId} {d : Device} {now : Time} (hr : s.par.role = .cp)
include hr

/-- To be served is to get DEV_TICK's result (R241). -/
theorem serve_of_execDevTick {r : Result} (q : DevId) (hd : s.dev a = some d)
    (h : execDevTick a.toNat now s = .next t) (ht : t.result = some r) (hx : ∀ x, r.status ≠ .refused x) :
    serve s a d q now = .next { t with
      mux := { rrptr := q, lasttx := if r.frames = [] then s.mux.lasttx else some now }
      result := some { r with value := .served (some a) } } := by
  rw [execDevTick, onDevice_some hr hd, finishDev] at h
  unfold serve
  generalize devTick (s.cpEnv a) now (Work.start d (s.drawn a)) = x at h ⊢
  obtain ⟨w, _ | (e | e | e)⟩ := x
  case none | some.raise => cases h; cases ht; rfl
  case some.refuse => cases h; cases ht; exact absurd rfl (hx e)
  case some.fault => cases h

/-- The line busy: the lowest busy device is served when it may send (R241). -/
theorem execMuxTick_busy (hb : lowestBusy s = some b) (hd : s.dev b = some d) :
    execMuxTick now s = if (d.retxp || deadlinePassed d.deadline now) && gapOk s.par s.mux.lasttx now
      then serve s b d s.mux.rrptr now else serveNone s := by
  simp only [execMuxTick, requireCp_cp hr, hb, muxBusy, hd]

theorem execMuxTick_free (hb : lowestBusy s = none) : execMuxTick now s = muxScan s now := by
  simp only [execMuxTick, requireCp_cp hr, hb]

end

section
variable {s : State} {a : DevId} {d : Device} {now : Time}

/-- The line free: the next eligible device is served once the gap has elapsed, and `RRPTR` moves to it (R241). -/
theorem muxScan_serves (hgap : gapOk s.par s.mux.lasttx now = true) (hnext : nextEligible s now = some a)
    (hd : s.dev a = some d) : muxScan s now = serve s a d a now := by
  simp only [muxScan, hgap, hnext, hd, if_true]

theorem muxScan_serveNone (h : gapOk s.par s.mux.lasttx now = false ∨ nextEligible s now = none) :
    muxScan s now = serveNone s := by
  obtain h | h := h
  · simp only [muxScan, h, Bool.false_eq_true, if_false]
  · simp only [muxScan, h, ite_self]

end

/-- Settles O46: the searches find the device described, and its DEV_TICK decides; a plain poll's is O30's. -/
theorem muxTickServesTheNextEligible : Obligations.MuxTickServesTheNextEligible := by
  intro s now hr served nothing gap
  have hgapOk : gapOk s.par s.mux.lasttx now = true ↔ gap := gapOk_iff
  refine ⟨fun b d hd hslot hmin => ?_, fun hfree => ?_⟩
  · have hlow : lowestBusy s = some b :=
      lowestBusy_eq_some ((busy_some hd).trans hslot) fun c hc => busy_eq_false_iff.mpr fun dc hdc => hmin c dc hc hdc
    have hrun : execMuxTick now s = _ := execMuxTick_busy hr hlow hd
    have hmay : ((d.retxp || deadlinePassed d.deadline now) && gapOk s.par s.mux.lasttx now) = true ↔
        gap ∧ (d.retxp = true ∨ ∃ t0, d.deadline = some t0 ∧ t0 ≤ now) := by
      rw [Bool.and_eq_true, Bool.or_eq_true, deadlinePassed_iff, hgapOk, and_comm]
    refine ⟨fun hg hdue t r ht hres hx => ?_, fun hno => ?_⟩
    · exact (hrun.trans (if_pos (hmay.mpr ⟨hg, hdue⟩))).trans (serve_of_execDevTick hr _ hd ht hres hx)
    · exact hrun.trans (if_neg fun h => hno (hmay.mp h))
  · have hrun : execMuxTick now s = muxScan s now :=
      execMuxTick_free hr (lowestBusy_eq_none fun b => busy_eq_false_iff.mpr (hfree b))
    refine ⟨fun hno => ?_, fun k hg h1 hk hmin => ?_⟩
    · refine hrun.trans (muxScan_serveNone (hno.imp (fun h => ?_) nextEligible_eq_none))
      exact Bool.eq_false_iff.mpr fun hg => h (hgapOk.mp hg)
    · intro a
      have hserved (ha : eligible s now a = true) : served a a := by
        obtain ⟨d, hd⟩ := eligible_registered ha
        have hnext : nextEligible s now = some a := nextEligible_eq_some h1 hk ha hmin
        exact fun t r ht hres hx =>
          (hrun.trans (muxScan_serves (hgapOk.mpr hg) hnext hd)).trans (serve_of_execDevTick hr a hd ht hres hx)
      refine ⟨hserved, fun d hd hs hdue hplain hq => ?_⟩
      have hpoll := pollingTickSendsPlain s a d _ [] now hr hd hs hplain (.inl ⟨hq, rfl, rfl⟩) (Nat.zero_le _)
      rw [← hq] at hpoll
      exact hserved (eligible_polling hd hs hdue) _ _ hpoll rfl nofun

/-- A device served with `RRPTR` as it is leaves it so, also when its tick is refused. -/
theorem serve_rrptr {s t : State} {a : DevId} {d : Device} {now : Time} (h : serve s a d s.mux.rrptr now = .next t) :
    t.mux.rrptr = s.mux.rrptr := by
  obtain ⟨x, -, rfl⟩ | ⟨r, -, -, -, rfl, -⟩ := finish_next h
  · rfl
  · rfl

/-- Settles O47: with the line busy MUX_TICK touches only a busy device (O50), and serves it with `RRPTR` as it is. -/
theorem muxTickIsHalfDuplex : Obligations.MuxTickIsHalfDuplex := by
  intro s t now b db hr hdb hslot h
  obtain ⟨a, hlow, ha⟩ := exists_lowestBusy ((busy_some hdb).trans hslot)
  refine ⟨?_, fun c d hd hidle => ?_⟩
  · cases hda : s.dev a with
    | none => simp [busy, hda] at ha
    | some da =>
      have hrun : execMuxTick now s = .next t := h
      rw [execMuxTick_busy hr hlow hda] at hrun
      split at hrun
      · exact serve_rrptr hrun
      · cases hrun
        rfl
  · have hca : touched s (.muxTick now) ≠ some c := by
      intro e
      obtain rfl : a = c := by simpa only [touched, hlow, Option.some.injEq] using e
      simp [busy_some hd, hidle] at ha
    obtain ⟨hframe, -⟩ := atMostOneContextChanges
    exact (hframe (.muxTick now) s t nofun h c hca).trans hd

/-! ### MUX_RX -/

theorem devRx_offline {e : Env} {w : Work Device} (hs : w.ctx.dstate = .offline) (c : Bytes) : devRx e c w = w.done :=
  if_pos hs

/-- Bytes for an id that is not registered are discarded (R242). -/
theorem execMuxRx_unregistered {s : State} {i : DevId} (hr : s.par.role = .cp) (hd : s.dev i = none) (c : Bytes) :
    execMuxRx i.toNat c s = .next (s.finished [] []) := by
  simp only [execMuxRx, muxRoute, cpId_toNat hr, hd]
  rfl

/-- MUX_RX never transmits and does not touch the multiplexer (R242). -/
theorem execMuxRx_quiet {s t : State} {a : Nat} {c : Bytes} (h : execMuxRx a c s = .next t) :
    t.mux = s.mux ∧ ∀ r, t.result = some r → r.frames = [] := by
  unfold execMuxRx muxRoute at h
  split at h
  · cases h
    exact ⟨rfl, by rintro _ ⟨⟩; rfl⟩
  · split at h
    · cases h
      exact ⟨rfl, by rintro _ ⟨⟩; rfl⟩
    · obtain ⟨x, -, rfl⟩ | ⟨r, -, hframes, -, rfl, -⟩ := finish_next h
      · exact ⟨rfl, by rintro _ ⟨⟩; rfl⟩
      · exact ⟨rfl, by rintro _ ⟨⟩; exact hframes.trans (devRx_frames _ _ _)⟩

/-- Settles O48, a case of the operand at a time. -/
theorem muxRxRoutesBytes : Obligations.MuxRxRoutesBytes := by
  refine ⟨fun _ hc => decode_op hc, fun s c hr => ⟨fun a ha => ?_, fun i hd => ?_, fun i d hd => ?_,
    fun i d hd hs => ?_, fun a t h => execMuxRx_quiet h⟩⟩
  · exact execMuxRx_refused (cpId_big hr ha) c
  · exact execMuxRx_unregistered hr hd c
  · exact execMuxRx_eq_execDevRx hr hd c
  · exact (execMuxRx_eq_execDevRx hr hd c).trans (onDevice_kept hr hd (devRx_offline hs c))

end Sys2Proof.Machine
end

section
/-! Proof of the family `60_exceptions.md`: every operation returns a result (O56). An operation runs at most one
procedure, and the machine's invariant keeps each procedure from its faults. -/

namespace Sys2Proof.Machine

/-! ### Ticks and starts do not fault

`devTick_inv` and `devStart_inv` say so under R9's constraints on the parameters. A fault turns on none of them. -/

/-- A tick in `Polling` needs nothing but the keys of an established channel. -/
theorem tickPolling_noFault {e : Env} {w : Work Device} (hk : HasKeys w.ctx.sc) (now : Time) (f : Fault) :
    (tickPolling e now w).stop ≠ some (.fault f) := by
  unfold tickPolling
  cases hp : pickCommand e w with
  | error st => exact absurd hp (pickCommand_noFault hk st)
  | ok r =>
    obtain ⟨w1, c⟩ := r
    obtain ⟨⟨q, hctx, -⟩, -⟩ := pickCommand_cases hp
    have hk1 : HasKeys w1.ctx.sc := by rw [hctx]; exact hk
    exact (Done.andThen_keeps (P := fun _ => True) (Q := fun _ => True) (send_keeps hk1 trivial)
      (fun _ _ => Work.done_keeps trivial) (fun _ _ _ => trivial)).noFault f

theorem devTick_noFault {e : Env} {w : Work Device} (h : DeviceInv e.par w.ctx) (now : Time) (f : Fault) :
    (devTick e now w).stop ≠ some (.fault f) := by
  unfold devTick
  split
  · exact (Work.done_keeps h).noFault f
  · exact tickPolling_noFault h.1.hasKeys now f
  · exact (awaiting_inv h).noFault f
  · exact (tickHandshake_inv h ‹_›).noFault f

theorem devStart_noFault (e : Env) (w : Work Device) (f : Fault) : (devStart e w).stop ≠ some (.fault f) := by
  unfold devStart
  split <;> simp

/-- `SC_WRAP` as an operation writes nothing, and finds its keys. -/
theorem scWrapDone_keeps {P : Sc → Prop} {e : Env} {p : Bytes} {sc : Sc} (h : P sc) (hk : HasKeys sc) :
    ScKeeps P (scWrapDone p e sc) := ⟨h, scWrap_noFault hk⟩

/-! ### Outcomes with a result -/

/-- The outcome is a next state with a result record in it: no fault, and no stop for want of a meaning. -/
def Answers (o : Host.Outcome State Fault Refusal) : Prop :=
  ∃ (t : State) (r : Result), o = .next t ∧ t.result = some r

theorem Answers.refuse (s : State) (x : RefusalCode) : Answers (.next (s.refuse x)) := ⟨_, _, rfl, rfl⟩

theorem Answers.answer (s : State) (st : Status) (v : Value) : Answers (.next (s.answer st v)) := ⟨_, _, rfl, rfl⟩

/-- A channel operation answers when its procedure does not miss key material. -/
theorem finishSc_answers {α : Type} {P : Sc → Prop} (s0 s1 : State) (id : DevId) (v : α → Value) {r : ScDone α}
    (hr : ScKeeps P r) : Answers (finishSc s0 s1 id v r) := by
  refine finish_answers _ _ _ _ _ _ fun f hf => ?_
  cases ho : r.out with
  | ok x => simp [stopOf, ho] at hf
  | error st =>
    obtain rfl : st = .fault f := by simpa [stopOf, ho] using hf
    exact hr.noFault f ho

/-! ### Operations that run no procedure -/

theorem Answers.wfEncode (p : RawPacket) (s : State) : Answers (execWfEncode p s) := by
  unfold execWfEncode
  split
  · exact .refuse _ _
  split
  · exact .refuse _ _
  · exact .answer _ _ _

theorem Answers.wfDecode (b : Bytes) (s : State) : Answers (execWfDecode b s) := by
  unfold execWfDecode
  split
  · exact .answer _ _ _
  · exact .answer _ _ _

theorem Answers.wfFeed (a : Nat) (c : Bytes) (s : State) : Answers (execWfFeed a c s) := by
  unfold execWfFeed
  split
  · exact .answer _ _ _
  split
  · exact .refuse _ _
  · exact .answer _ _ _

theorem Answers.wfFlush (a : Nat) (s : State) : Answers (execWfFlush a s) := by
  unfold execWfFlush
  split
  · exact .answer _ _ _
  split
  · exact .refuse _ _
  · exact .answer _ _ _

theorem Answers.regLookupCmd (t : Nat) (s : State) : Answers (execRegLookupCmd t s) := by
  unfold execRegLookupCmd
  split
  · exact .refuse _ _
  · exact .answer _ _ _

theorem Answers.regLookupRpl (t : Nat) (s : State) : Answers (execRegLookupRpl t s) := by
  unfold execRegLookupRpl
  split
  · exact .refuse _ _
  · exact .answer _ _ _

theorem Answers.devRegister (a u : Nat) (s : State) : Answers (execDevRegister a u s) := by
  unfold execDevRegister
  split
  · exact .refuse _ _
  split
  · exact .refuse _ _
  split
  · exact .refuse _ _
  · exact .answer _ _ _

theorem Answers.devDeregister (a : Nat) (s : State) : Answers (execDevDeregister a s) := by
  unfold execDevDeregister
  split
  · exact .refuse _ _
  · exact .answer _ _ _

theorem Answers.devSubmit (a t : Nat) (p : Bytes) (s : State) : Answers (execDevSubmit a t p s) := by
  unfold execDevSubmit
  split
  · exact .refuse _ _
  split
  · exact .refuse _ _
  · exact .refuse _ _
  split
  · exact .refuse _ _
  · exact .answer _ _ _

/-! ### Operations that run a procedure on a good context -/

section
variable {s : State} (h : s.Inv)
include h

theorem Answers.onDevice (a : Nat) {g : Env → Work Device → Done Device}
    (hg : ∀ e w, DeviceInv e.par w.ctx → ∀ f, (g e w).stop ≠ some (.fault f)) : Answers (onDevice s a g) := by
  unfold Machine.onDevice
  split
  · exact .refuse _ _
  · rename_i i d hd
    exact finish_answers _ _ _ _ _ _ (hg _ _ (h.contexts.devices i d (cpDevice_ok hd).2.2))

theorem Answers.muxRoute (a : Nat) {g : Env → Work Device → Done Device}
    (hg : ∀ e w, DeviceInv e.par w.ctx → ∀ f, (g e w).stop ≠ some (.fault f)) : Answers (muxRoute s a g) := by
  unfold Machine.muxRoute
  split
  · exact .refuse _ _
  split
  · exact .answer _ _ _
  · exact finish_answers _ _ _ _ _ _ (hg _ _ (h.contexts.devices _ _ ‹_›))

theorem Answers.onPd {g : Env → Work Pdc → Done Pdc}
    (hg : ∀ e w, PdcInv e.par w.ctx → ∀ f, (g e w).stop ≠ some (.fault f)) : Answers (onPd s g) := by
  unfold Machine.onPd
  split
  · exact .refuse _ _
  · exact finish_answers _ _ _ _ _ _ (hg _ _ h.contexts.pdc)

theorem Answers.onCpChannel {α : Type} (a : Nat) (v : α → Value) {g : Env → Sc → ScDone α}
    (hg : ∀ e sc, ScInvCp sc → ScKeeps ScInvCp (g e sc)) : Answers (onCpChannel s a v g) := by
  unfold Machine.onCpChannel
  split
  · exact .refuse _ _
  · rename_i i d hd
    exact finishSc_answers _ _ _ _ (hg _ _ (h.contexts.devices i d (cpDevice_ok hd).2.2).1)

theorem Answers.onPdChannel {α : Type} (v : α → Value) {g : Env → Sc → ScDone α}
    (hg : ∀ e sc, ScInvPd sc → ScKeeps ScInvPd (g e sc)) : Answers (onPdChannel s v g) := by
  unfold Machine.onPdChannel
  split
  · exact .refuse _ _
  · exact finishSc_answers _ _ _ _ (hg _ _ h.contexts.pdc.1)

theorem Answers.onChannel {α : Type} (a : Nat) (v : α → Value) {g : Env → Sc → ScDone α}
    (hcp : ∀ e sc, ScInvCp sc → ScKeeps ScInvCp (g e sc)) (hpd : ∀ e sc, ScInvPd sc → ScKeeps ScInvPd (g e sc)) :
    Answers (onChannel s a v g) := by
  unfold Machine.onChannel
  split
  · exact .onCpChannel h a v hcp
  · exact .onPdChannel h v hpd

theorem Answers.serve {a : DevId} {d : Device} (hd : s.dev a = some d) (q : DevId) (now : Time) :
    Answers (serve s a d q now) :=
  finish_answers _ _ _ _ _ _
    (devTick_noFault (e := s.cpEnv a) (w := Work.start d (s.drawn a)) (h.contexts.devices a d hd) now)

theorem Answers.muxTick (now : Time) : Answers (execMuxTick now s) := by
  unfold execMuxTick
  split
  · exact .refuse _ _
  split
  · unfold muxBusy
    split
    · split
      · exact .serve h ‹_› _ _
      · exact .answer _ _ _
    · exact .answer _ _ _
  · unfold muxScan
    split
    · split
      · split
        · exact .serve h ‹_› _ _
        · exact .answer _ _ _
      · exact .answer _ _ _
    · exact .answer _ _ _

theorem Answers.pdReply (t : Nat) (p : Bytes) : Answers (execPdReply t p s) := by
  refine .onPd h fun e w hw => ?_
  split
  · exact (Work.refuse_keeps (P := PdcInv e.par) w _).noFault
  · exact (pdReply_inv hw).noFault

theorem Answers.deliver (a : Nat) (b : Bytes) : Answers (deliver a b s) := by
  unfold Machine.deliver
  split
  · exact .muxRoute h a fun _ _ hw => (devRx_inv hw).noFault
  · exact .onPd h fun _ _ hw => (pdRx_inv hw).noFault

theorem Answers.deliverMessage (a : Nat) (t : Byte) (m : Message) : Answers (deliverMessage a t m s) := by
  unfold Machine.deliverMessage
  split
  · exact .muxRoute h a fun _ _ hw => (cpPacket_inv hw).noFault
  · exact .onPd h fun _ _ hw => (acceptCommand_inv hw).noFault

/-- Every instruction answers in a state that meets the invariant, whatever the parameters. -/
theorem exec_answers (i : Instr) : Answers (exec i s) := by
  cases i with
  | wfEncode p => exact .wfEncode p s
  | wfDecode b => exact .wfDecode b s
  | wfFeed a c => exact .wfFeed a c s
  | wfFlush a => exact .wfFlush a s
  | scReset a => exact .onChannel h a _ (fun _ _ _ => ⟨scInvCp_init, nofun⟩) (fun _ _ _ => ⟨scInvPd_init, nofun⟩)
  | scCpBegin a =>
    show Answers (execScCpBegin a s)
    exact .onCpChannel h a _ fun _ _ hsc => scCpBegin_keeps hsc
  | scCpVerify a p =>
    show Answers (execScCpVerify a p s)
    exact .onCpChannel h a _ fun _ _ hsc => scCpVerify_keeps hsc
  | scCpConfirm a => exact .onCpChannel h a _ fun _ _ hsc => scCpConfirm_keeps hsc
  | scCpFinish a => exact .onCpChannel h a _ fun _ _ hsc => scCpFinish_keeps hsc
  | scPdChallenge p =>
    show Answers (execScPdChallenge p s)
    exact .onPdChannel h _ fun _ _ hsc => scPdChallenge_keeps hsc
  | scPdVerify p =>
    show Answers (execScPdVerify p s)
    exact .onPdChannel h _ fun _ _ hsc => scPdVerify_keeps hsc
  | scWrap a p =>
    exact .onChannel h a _ (fun _ _ hsc => scWrapDone_keeps hsc hsc.hasKeys)
      (fun _ _ hsc => scWrapDone_keeps hsc hsc.hasKeys)
  | scUnwrap a w =>
    exact .onChannel h a _ (fun _ _ hsc => scUnwrap_keeps hsc hsc.hasKeys scInvCp_broken)
      (fun _ _ hsc => scUnwrap_keeps hsc hsc.hasKeys scInvPd_broken)
  | regLookupCmd t => exact .regLookupCmd t s
  | regLookupRpl t => exact .regLookupRpl t s
  | devRegister a u => exact .devRegister a u s
  | devDeregister a => exact .devDeregister a s
  | devStart a => exact .onDevice h a fun e w _ => devStart_noFault e w
  | devSubmit a t p => exact .devSubmit a t p s
  | devScStart a => exact .onDevice h a fun _ _ hw => (devScStart_inv hw).noFault
  | devTick a now => exact .onDevice h a fun _ _ hw => devTick_noFault hw now
  | devRx a c => exact .onDevice h a fun _ _ hw => (devRx_inv hw).noFault
  | pdRx c => exact .onPd h fun _ _ hw => (pdRx_inv hw).noFault
  | pdReply t p => exact .pdReply h t p
  | muxTick now => exact .muxTick h now
  | muxRx a c => exact .muxRoute h a fun _ _ hw => (devRx_inv hw).noFault
  | reset => exact .answer _ _ _
  | frameSk a f k => exact .deliver h a _
  | frameSc a f k => exact .deliver h a _
  | frameLk a f k => exact .deliver h a _
  | frameLc a f k => exact .deliver h a _
  | tPoll a m => exact .deliverMessage h a _ m
  | tChlng a m => exact .deliverMessage h a _ m
  | tCcrypt a m => exact .deliverMessage h a _ m
  | tScrypt a m => exact .deliverMessage h a _ m
  | tScdone a m => exact .deliverMessage h a _ m
  | otherOp c => exact .refuse s _

end

/-- Settles O56: under the invariant every instruction answers (`exec_answers`). -/
theorem everyOperationReturnsAResult : Obligations.EveryOperationReturnsAResult :=
  fun i _ h => exec_answers h i

end Sys2Proof.Machine
end

section
/-! Proofs of the family `70_reset_and_hazards.md`: what RESET leaves (O49) and the invariant's base case (O58). -/

namespace Sys2Proof.Machine

/-- Settles O49: no device stays registered (`execReset_dev`); the other registers are those `execReset` writes. -/
theorem resetLeavesTheResetValues : Obligations.ResetLeavesTheResetValues :=
  fun _ => ⟨_, rfl, execReset_dev rfl, rfl, rfl, rfl, rfl, rfl⟩

/-- Settles O58, by `State.resetWith_inv`, of which `State.reset` is an instance. -/
theorem resetMeetsTheInvariant : Obligations.ResetMeetsTheInvariant :=
  fun p => ⟨State.resetWith_inv p, State.resetWith_inv Config.straps⟩

end Sys2Proof.Machine
end
